-- ==== Sys2Proof/Word.lean ====
section
/-! DEFINITION. The word types of the model: bytes, and the 64-bit words that the spec uses for input
addresses (R33), physical addresses (R41) and paging-structure entries (R60). -/

namespace Sys2Proof

/-- One byte of physical memory (R40). -/
abbrev Byte := BitVec 8

/-- A 64-bit word: an input address, a physical address or a paging-structure entry (R33, R46, R60). -/
abbrev Word64 := BitVec 64

/-- A 4-KByte frame number: bits 51:12 of a physical address, which is what an ADDR field or SLPTPTR gives (R43, R62). -/
abbrev Frame := BitVec 40

end Sys2Proof
end

