-- ==== Sys2Proof/Syntax.lean ====
section
/-! DEFINITION. The vocabulary of requests and entries, and `Instr`, one constructor per row of
spec/opcode_table.json (R89): three kinds of request and seven shapes of paging-structure entry. -/

namespace Sys2Proof

/-- The level of the walk at which an entry is read (R28, R60): 4 reads a SL-PML4E, 3 a SL-PDPE, 2 a SL-PDE, 1 a SL-PTE. -/
inductive Level
  | l4 | l3 | l2 | l1
  deriving DecidableEq, Repr, Inhabited

/-- The spec's number of a level (R28). -/
def Level.num : Level → Nat
  | .l4 => 4
  | .l3 => 3
  | .l2 => 2
  | .l1 => 1

/-- The kind of a request-without-PASID (R33, R87, R111). -/
inductive Kind
  | read | write | atomic
  deriving DecidableEq, Repr, Inhabited

/-- A request-without-PASID (R33). `source` is the opaque key by which `ContextLookup` finds the context-entry. -/
structure Request where
  kind : Kind
  ia : Word64
  noSnoop : Bool
  inCoherencyDomain : Bool
  source : Nat
  deriving DecidableEq, Repr, Inhabited

/-- What an entry read at a level is used for (R85). -/
inductive EntryClass
  | notPresent | reserved | leaf4K | leaf2M | leaf1G | table
  deriving DecidableEq, Repr

/-- The reserved-bit clauses, each named by what is wrong with the entry (R73 to R82). -/
inductive RsvdClause
  /-- R73: a bit of 51:HAW is 1. -/
  | addrAboveHaw
  /-- R74: PS is 1 in a SL-PML4E. -/
  | pml4ePs
  /-- R75: PS is 1 in a SL-PDPE and 1-GByte pages are not supported. -/
  | pdpePsUnsupported
  /-- R76: PS is 1 in a SL-PDPE and a bit of 29:12 is 1. -/
  | pdpePageLow
  /-- R77: PS is 1 in a SL-PDE and 2-MByte pages are not supported. -/
  | pdePsUnsupported
  /-- R78: PS is 1 in a SL-PDE and a bit of 20:12 is 1. -/
  | pdePageLow
  /-- R79: SNP or TM is 1 in a non-leaf entry. -/
  | nonLeafSnpTm
  /-- R80: SNP is 1 in a SL-PTE and SC is reported as 0. -/
  | pteSnp
  /-- R81: TM is 1 in a SL-PTE and DT is reported as 0. -/
  | pteTm
  /-- R82: SNP or TM is 1 in a large-page leaf, its capability is 0, and LARGE_LEAF_SNP_TM_RSVD holds. -/
  | largeLeafSnpTm
  deriving DecidableEq, Repr

/-- One constructor per row of spec/opcode_table.json. The three requests carry the fields of R33. An entry carries its
fields, and in `ign` (or `rest`) the bits that no clause names (R83), so that no bit of a word is lost. -/
inductive Instr
  /-- READ (R112). -/
  | read (ia : Word64) (noSnoop inCoherencyDomain : Bool) (source : Nat)
  /-- WRITE (R113). -/
  | write (ia : Word64) (noSnoop inCoherencyDomain : Bool) (source : Nat)
  /-- ATOMIC (R114). -/
  | atomic (ia : Word64) (noSnoop inCoherencyDomain : Bool) (source : Nat)
  /-- SL-ENTRY.NOT_PRESENT (R72): `rest` is the whole word; its R and W bits are 0. -/
  | slEntryNotPresent (rest : Word64)
  /-- SL-PML4E (R104). -/
  | slPml4e (r w : Bool) (addr : Frame) (ign : Word64)
  /-- SL-PDPE.TABLE (R105). -/
  | slPdpeTable (r w : Bool) (addr : Frame) (ign : Word64)
  /-- SL-PDPE.PAGE1G (R105): `page` is bits 51:30. -/
  | slPdpePage1g (r w snp tm : Bool) (page : BitVec 22) (ign : Word64)
  /-- SL-PDE.TABLE (R106). -/
  | slPdeTable (r w : Bool) (addr : Frame) (ign : Word64)
  /-- SL-PDE.PAGE2M (R106): `page` is bits 51:21. -/
  | slPdePage2m (r w snp tm : Bool) (page : BitVec 31) (ign : Word64)
  /-- SL-PTE (R107): `ign` includes the bit at PS_BIT, which no rule reads at level 1 (R61, R83). -/
  | slPte (r w snp tm : Bool) (page : Frame) (ign : Word64)
  deriving DecidableEq, Repr

/-- The request row of a request (R87, R112 to R114). -/
def Request.instr (q : Request) : Instr :=
  match q.kind with
  | .read => .read q.ia q.noSnoop q.inCoherencyDomain q.source
  | .write => .write q.ia q.noSnoop q.inCoherencyDomain q.source
  | .atomic => .atomic q.ia q.noSnoop q.inCoherencyDomain q.source

/-- The levels at which a row of the table applies (column `level` of spec/opcode_table.json); none for a request. -/
def Instr.levels : Instr → List Level
  | .read .. => []
  | .write .. => []
  | .atomic .. => []
  | .slEntryNotPresent _ => [.l4, .l3, .l2, .l1]
  | .slPml4e .. => [.l4]
  | .slPdpeTable .. => [.l3]
  | .slPdpePage1g .. => [.l3]
  | .slPdeTable .. => [.l2]
  | .slPdePage2m .. => [.l2]
  | .slPte .. => [.l1]

/-- An entry row is one that applies at some level; the other rows are the requests (R89). -/
def Instr.isEntry (i : Instr) : Bool := !i.levels.isEmpty

end Sys2Proof
end

