-- ==== Sys2Proof/Config.lean ====
section
/-! DEFINITION. What an implementation fixes (00_scope.md R4 to R10, R36), as one record of plain data that State
carries so that every statement quantifies over it, and the free values, each an opaque constant with no body. -/

namespace Sys2Proof

/-- The Capability Register's three reports (R22; R4, R5, R6). SAGAW is a subset of 39 and 48 (R5, D9), so two Booleans hold it. -/
structure CapReg where
  mgaw : Nat
  sagaw39 : Bool
  sagaw48 : Bool
  sllps2M : Bool
  sllps1G : Bool
  deriving DecidableEq, Repr

/-- The Extended Capability Register's fields C, SC and DT (R23, R7). -/
structure ECapReg where
  c : Bool
  sc : Bool
  dt : Bool
  deriving DecidableEq, Repr

/-- The bit positions of the single-bit fields of an entry (R9). -/
structure BitPos where
  r : Nat
  w : Nat
  ps : Nat
  snp : Nat
  tm : Nat
  deriving DecidableEq, Repr

/-- BYTE_ORDER (R10, R42). -/
inductive ByteOrder
  | little | big
  deriving DecidableEq, Repr

/-- FAULT_CHOICE (R10, R149). -/
inductive FaultChoice
  | walkOrder | anyApplicable
  deriving DecidableEq, Repr

/-- Backed (R10, R56): the default, every address below 2^HAW, or explicit ranges of base and size. -/
inductive Backing
  | belowHaw
  | ranges (l : List (Nat × Nat))
  deriving DecidableEq, Repr

/-- The configuration (R36): fixed for a run, different from one implementation to another. -/
structure Config where
  cap : CapReg
  ecap : ECapReg
  haw : Nat
  pos : BitPos
  byteOrder : ByteOrder
  backed : Backing
  largeLeafRsvd : Bool
  faultChoice : FaultChoice
  deriving DecidableEq, Repr

/-- The configuration State.reset carries: configuration A of 95_test_vectors.md with the spec's default parameters.
DESIGN CHOICE (log 1), unsafe: a statement about State.reset's configuration says nothing of another implementation. -/
def Config.a : Config where
  cap := { mgaw := 48, sagaw39 := true, sagaw48 := true, sllps2M := true, sllps1G := true }
  ecap := { c := true, sc := true, dt := true }
  haw := 46
  pos := { r := 0, w := 1, ps := 7, snp := 11, tm := 62 }
  byteOrder := .little
  backed := .belowHaw
  largeLeafRsvd := false
  faultChoice := .walkOrder

/-- The sixteen fault causes (R147). -/
inductive Cause
  | rootAccessError | rootNotPresent | rootInvalid | rootReserved
  | ctxAccessError | ctxNotPresent | ctxInvalid | ctxBlocked | ctxReserved
  | addrBeyondWidth
  | slAccessError | slNotPresent | slReserved
  | readDenied | writeDenied | atomicDenied
  deriving DecidableEq, Repr, Inhabited

/-- What a fault record holds beside the request and the cause (R147, column "information recorded"). -/
inductive FaultInfo
  /-- The request alone (the causes of `ContextLookup`). -/
  | request
  /-- The input address (AddrBeyondWidth). -/
  | input (ia : Word64)
  /-- The level and the address of the entry concerned (the causes of the walk and the denials). -/
  | entry (level : Level) (addr : Word64)
  deriving DecidableEq, Repr, Inhabited

/-- The context record (R24). `slptptr` holds bits 51:12 of the pointer: the rest of it is never used (R43). `cd` is
meaningful only when `extended` (R24, R132). `agaw` is a number of bits. -/
structure Ctx where
  extended : Bool
  slptptr : Frame
  agaw : Nat
  cd : Bool
  deriving DecidableEq, Repr, Inhabited

/-- The ten outcomes of `ContextLookup` (R24). -/
inductive CtxOutcome
  | rootAccessError | rootNotPresent | rootInvalid | rootReserved
  | ctxAccessError | ctxNotPresent | ctxInvalid | ctxBlocked | ctxReserved
  | ok (ctx : Ctx)
  deriving DecidableEq, Repr, Inhabited

/-- The size of a mapped page (R34, R40). -/
inductive PageSize
  | size4K | size2M | size1G
  deriving DecidableEq, Repr

/-- The memory type of an access (R34, R135). -/
inductive MemType
  | uc | wb | ignored
  deriving DecidableEq, Repr

/-- The classes of access that a memory type is given for (R135). -/
inductive AccessClass
  | rootOrCtxEntry | slEntry | finalPage
  deriving DecidableEq, Repr

/-- FREE VALUE (R27, R36, R52, R149): the choice made at the n-th draw. A member of a set of two or more is taken by it. -/
opaque Config.draw : Nat → Nat

/-- FREE VALUE (R36, D12): what `ContextLookup` answers at the n-th draw, for a source that `State.ctxTable` does not bind. -/
opaque Config.contextLookup : Nat → Request → CtxOutcome

/-- FREE VALUE (R120, R121, U4): whether the own read made at the n-th draw is snooped when ECAP_C is 0. -/
opaque Config.ownReadSnooped : Nat → Bool

/-- FREE VALUE (R149): the place recorded with a denial drawn under any_applicable when the walk met no leaf. -/
opaque Config.deniedInfo : Nat → FaultInfo

/-- FREE VALUE (R114, N16): the byte an atomic operation leaves at an offset, given the draw, the old bytes and the
device's operand. -/
opaque Config.atomicByte : Nat → List Byte → List Byte → Nat → Byte

/-- FaultCode (R148, D15): the numeric code of a cause. No rule reads it. -/
opaque Config.faultCode : Cause → Nat

end Sys2Proof
end

