-- ==== Sys2Proof/WellFormed.lean ====
section
/-! DEFINITION. Which configurations (premise L5 of R171) and which instructions (the `constraints` of the rows of
spec/opcode_table.json) are well formed. -/

namespace Sys2Proof

/-- Premise L5 of R171, with the ranges of R4, R8 and R9. -/
def BitPos.wf (p : BitPos) : Bool :=
  let l := [p.r, p.w, p.ps, p.snp, p.tm]
  decide l.Nodup && l.all (fun n => decide (n < 64) && (decide (n < 12) || decide (51 < n)))

/-- Premise L5 of R171: 1 ≤ MGAW ≤ 64 (R4), 13 ≤ HAW ≤ 52 (R8), the bit positions distinct and outside 51:12 (R9). -/
def Config.wf (c : Config) : Bool :=
  decide (1 ≤ c.cap.mgaw) && decide (c.cap.mgaw ≤ 64) && decide (13 ≤ c.haw) && decide (c.haw ≤ 52) && c.pos.wf

/-- The ignored bits of an entry hold none of the named bits: ADDR, R, W, SNP, TM (R61, R83). -/
def ignoredBitsOnly (p : BitPos) (ign : Word64) : Bool :=
  ign.extractLsb' 12 40 == 0 && !ign.getLsbD p.r && !ign.getLsbD p.w && !ign.getLsbD p.snp && !ign.getLsbD p.tm

/-- The bits of a frame number that lie in 51:HAW are 0 (R73). -/
def frameBelowHaw (c : Config) (f : Frame) : Bool := decide (f.toNat < 2 ^ (c.haw - 12))

/-- Well-formedness of a non-leaf entry (R72, R73, R74, R79): R or W set, ADDR below HAW; PS, SNP, TM are 0 by its shape. -/
def tableWf (c : Config) (r w : Bool) (addr : Frame) (ign : Word64) : Bool :=
  (r || w) && frameBelowHaw c addr && ignoredBitsOnly c.pos ign && !ign.getLsbD c.pos.ps

/-- SNP and TM of a large-page leaf (R82). -/
def largeLeafSnpTmWf (c : Config) (snp tm : Bool) : Bool :=
  !(c.largeLeafRsvd && ((!c.ecap.sc && snp) || (!c.ecap.dt && tm)))

/-- Well-formedness of an instruction under a configuration: the `constraints` of its row. A request has none (R87). -/
def Instr.wf (c : Config) : Instr → Bool
  | .read .. => true
  | .write .. => true
  | .atomic .. => true
  | .slEntryNotPresent rest => !rest.getLsbD c.pos.r && !rest.getLsbD c.pos.w
  | .slPml4e r w addr ign => tableWf c r w addr ign
  | .slPdpeTable r w addr ign => tableWf c r w addr ign
  | .slPdpePage1g r w snp tm page ign =>
    (r || w) && c.cap.sllps1G && frameBelowHaw c (page ++ (0 : BitVec 18)) && largeLeafSnpTmWf c snp tm
      && ignoredBitsOnly c.pos ign && !ign.getLsbD c.pos.ps
  | .slPdeTable r w addr ign => tableWf c r w addr ign
  | .slPdePage2m r w snp tm page ign =>
    (r || w) && c.cap.sllps2M && frameBelowHaw c (page ++ (0 : BitVec 9)) && largeLeafSnpTmWf c snp tm
      && ignoredBitsOnly c.pos ign && !ign.getLsbD c.pos.ps
  | .slPte r w snp tm page ign =>
    (r || w) && frameBelowHaw c page && (c.ecap.sc || !snp) && (c.ecap.dt || !tm) && ignoredBitsOnly c.pos ign

end Sys2Proof
end

