-- ==== Sys2Proof/Decode.lean ====
section
/-! DEFINITION. Decoding of paging-structure entries (R60 to R63, R72 to R85) and the encoder. What an entry is depends
on the level at which it is read (R60), so the decoder takes the level. A reserved entry is rejected by the clause it
breaks; requests have no words (R87, R89). -/

namespace Sys2Proof

/-! ### Fields of an entry (R61, R62) -/

/-- `field(e, R)` (R61). -/
def fieldR (c : Config) (e : Word64) : Bool := e.getLsbD c.pos.r

/-- `field(e, W)` (R61). -/
def fieldW (c : Config) (e : Word64) : Bool := e.getLsbD c.pos.w

/-- `field(e, PS)` (R61). -/
def fieldPs (c : Config) (e : Word64) : Bool := e.getLsbD c.pos.ps

/-- `field(e, SNP)` (R61). -/
def fieldSnp (c : Config) (e : Word64) : Bool := e.getLsbD c.pos.snp

/-- `field(e, TM)` (R61). -/
def fieldTm (c : Config) (e : Word64) : Bool := e.getLsbD c.pos.tm

/-- ADDR is e[51:12] (R62). -/
def fieldAddr (e : Word64) : Frame := e.extractLsb' 12 40

/-- The page bits of a 2-MByte leaf, e[51:21] (R69). -/
def fieldPage2M (e : Word64) : BitVec 31 := e.extractLsb' 21 31

/-- The page bits of a 1-GByte leaf, e[51:30] (R68). -/
def fieldPage1G (e : Word64) : BitVec 22 := e.extractLsb' 30 22

/-- A word with one bit, or none. -/
def bitAt (n : Nat) (b : Bool) : Word64 := if b then 1#64 <<< n else 0#64

/-- ADDR, R, W, SNP and TM: the bits of an entry that are named at every level (R61). -/
def namedMask (p : BitPos) : Word64 :=
  ((BitVec.allOnes 40).setWidth 64 <<< 12) ||| bitAt p.r true ||| bitAt p.w true ||| bitAt p.snp true ||| bitAt p.tm true

/-- The bits of a SL-PTE that no clause names (R83): the bit at PS_BIT is among them (R61). -/
def ignoredPte (p : BitPos) (e : Word64) : Word64 := e &&& ~~~(namedMask p)

/-- The bits of a SL-PML4E, SL-PDPE or SL-PDE that no clause names (R83). -/
def ignoredUpper (p : BitPos) (e : Word64) : Word64 := e &&& ~~~(namedMask p ||| bitAt p.ps true)

/-! ### Reserved bits and classification (R72 to R85) -/

/-- Bits 51:HAW are not all 0 (R73). -/
def addrAboveHaw (c : Config) (e : Word64) : Bool := e.extractLsb' c.haw (52 - c.haw) != 0

/-- SNP or TM is 1 (R79). -/
def snpOrTm (c : Config) (e : Word64) : Bool := fieldSnp c e || fieldTm c e

/-- `snp_tm_large` of R84 (R82). -/
def snpTmLarge (c : Config) (e : Word64) : Bool :=
  c.largeLeafRsvd && ((!c.ecap.sc && fieldSnp c e) || (!c.ecap.dt && fieldTm c e))

/-- The clauses of one level, in the order of R84. -/
def levelClause (c : Config) (L : Level) (e : Word64) : Option RsvdClause :=
  match L with
  | .l4 =>
    if fieldPs c e then some .pml4ePs
    else if snpOrTm c e then some .nonLeafSnpTm
    else none
  | .l3 =>
    if fieldPs c e then
      if !c.cap.sllps1G then some .pdpePsUnsupported
      else if e.extractLsb' 12 18 != 0 then some .pdpePageLow
      else if snpTmLarge c e then some .largeLeafSnpTm
      else none
    else if snpOrTm c e then some .nonLeafSnpTm
    else none
  | .l2 =>
    if fieldPs c e then
      if !c.cap.sllps2M then some .pdePsUnsupported
      else if e.extractLsb' 12 9 != 0 then some .pdePageLow
      else if snpTmLarge c e then some .largeLeafSnpTm
      else none
    else if snpOrTm c e then some .nonLeafSnpTm
    else none
  | .l1 =>
    if !c.ecap.sc && fieldSnp c e then some .pteSnp
    else if !c.ecap.dt && fieldTm c e then some .pteTm
    else none

/-- The first clause of R84 that an entry with R or W set breaks at a level, if any. -/
def rsvdClause (c : Config) (L : Level) (e : Word64) : Option RsvdClause :=
  if addrAboveHaw c e then some .addrAboveHaw else levelClause c L e

/-- `RsvdSet(e, L)` (R84). -/
def rsvdSet (c : Config) (L : Level) (e : Word64) : Bool := (rsvdClause c L e).isSome

/-- `Classify(e, L)` (R85). -/
def classify (c : Config) (L : Level) (e : Word64) : EntryClass :=
  if !fieldR c e && !fieldW c e then .notPresent
  else if rsvdSet c L e then .reserved
  else match L with
    | .l1 => .leaf4K
    | .l2 => if fieldPs c e then .leaf2M else .table
    | .l3 => if fieldPs c e then .leaf1G else .table
    | .l4 => .table

/-! ### The decoder -/

/-- Why bytes are not an entry that can be used. -/
inductive Reject
  /-- Fewer than the eight bytes of an entry (R60). -/
  | truncated
  /-- R or W is 1 and a reserved bit is 1, by clause (R72, R84). -/
  | reserved (clause : RsvdClause)
  deriving DecidableEq, Repr

/-- The instruction of a usable entry read at a level: its row and its fields (R60, R61, R104 to R107). -/
def usableEntry (c : Config) (L : Level) (e : Word64) : Instr :=
  match L with
  | .l4 => .slPml4e (fieldR c e) (fieldW c e) (fieldAddr e) (ignoredUpper c.pos e)
  | .l3 =>
    if fieldPs c e then
      .slPdpePage1g (fieldR c e) (fieldW c e) (fieldSnp c e) (fieldTm c e) (fieldPage1G e) (ignoredUpper c.pos e)
    else .slPdpeTable (fieldR c e) (fieldW c e) (fieldAddr e) (ignoredUpper c.pos e)
  | .l2 =>
    if fieldPs c e then
      .slPdePage2m (fieldR c e) (fieldW c e) (fieldSnp c e) (fieldTm c e) (fieldPage2M e) (ignoredUpper c.pos e)
    else .slPdeTable (fieldR c e) (fieldW c e) (fieldAddr e) (ignoredUpper c.pos e)
  | .l1 => .slPte (fieldR c e) (fieldW c e) (fieldSnp c e) (fieldTm c e) (fieldAddr e) (ignoredPte c.pos e)

/-- The decoder of entries, in the order of R85: not present, then reserved, then the shape of the level. -/
def decodeEntry (c : Config) (L : Level) (e : Word64) : Except Reject Instr :=
  if !fieldR c e && !fieldW c e then .ok (.slEntryNotPresent e)
  else match rsvdClause c L e with
    | some cl => .error (.reserved cl)
    | none => .ok (usableEntry c L e)

/-- The 64-bit entry whose bytes, lowest address first, are given (R42): the byte at `a + i` holds bits 8i+7:8i when
BYTE_ORDER is little, bits 63-8i:56-8i when it is big. -/
def entryOfBytes (o : ByteOrder) (b0 b1 b2 b3 b4 b5 b6 b7 : Byte) : Word64 :=
  match o with
  | .little => b7 ++ b6 ++ b5 ++ b4 ++ b3 ++ b2 ++ b1 ++ b0
  | .big => b0 ++ b1 ++ b2 ++ b3 ++ b4 ++ b5 ++ b6 ++ b7

/-- The bytes of an entry, lowest address first (R42). -/
def bytesOfEntry (o : ByteOrder) (e : Word64) : List Byte :=
  let little := (List.range 8).map (fun i => e.extractLsb' (8 * i) 8)
  match o with
  | .little => little
  | .big => little.reverse

/-- Decode the entry at the front of a list of bytes read at a level; the rest of the bytes is returned. -/
def decodeBytes (c : Config) (L : Level) : List Byte → Except Reject (Instr × List Byte)
  | b0 :: b1 :: b2 :: b3 :: b4 :: b5 :: b6 :: b7 :: rest =>
    match decodeEntry c L (entryOfBytes c.byteOrder b0 b1 b2 b3 b4 b5 b6 b7) with
    | .ok i => .ok (i, rest)
    | .error r => .error r
  | _ => .error .truncated

/-! ### The encoder -/

/-- The fields of an entry put in their places (R61, R62). -/
def assemble (p : BitPos) (r w ps snp tm : Bool) (addr : Frame) (ign : Word64) : Word64 :=
  ign ||| (addr.setWidth 64 <<< 12) ||| bitAt p.r r ||| bitAt p.w w ||| bitAt p.ps ps ||| bitAt p.snp snp ||| bitAt p.tm tm

/-- The word of an entry instruction; a request has no word (R87, R89). -/
def encodeEntry (c : Config) : Instr → Option Word64
  | .read .. => none
  | .write .. => none
  | .atomic .. => none
  | .slEntryNotPresent rest => some rest
  | .slPml4e r w addr ign => some (assemble c.pos r w false false false addr ign)
  | .slPdpeTable r w addr ign => some (assemble c.pos r w false false false addr ign)
  | .slPdpePage1g r w snp tm page ign => some (assemble c.pos r w true snp tm (page ++ (0 : BitVec 18)) ign)
  | .slPdeTable r w addr ign => some (assemble c.pos r w false false false addr ign)
  | .slPdePage2m r w snp tm page ign => some (assemble c.pos r w true snp tm (page ++ (0 : BitVec 9)) ign)
  | .slPte r w snp tm page ign => some (assemble c.pos r w false snp tm page ign)

/-! ### The host's reading of one table row -/

/-- The level at which a lone word is read when nothing else fixes it: the highest level whose decoder gives it a usable
shape, else level 4. A word does not say its level (R60); DESIGN CHOICE (log 20), for `decodeTableWord` alone. -/
def tableWordLevel (c : Config) (e : Word64) : Level :=
  (([.l4, .l3, .l2, .l1] : List Level).find? (fun L => (decodeEntry c L e).isOk)).getD .l4

/-- The entry word that the host's `nbits` and `w` give: bits above `nbits` are 0. -/
def tableWord (nbits w : Nat) : Word64 := BitVec.ofNat 64 (w % 2 ^ nbits)

/-- The instruction the decoder reads from a table row's word, under the default configuration, its bytes laid out in
memory order. A request row has no bits and so no word (R87, R89): none. -/
def decodeTableWord (nbits w : Nat) : Option Instr :=
  if nbits = 0 then none
  else
    let e := tableWord nbits w
    match decodeBytes Config.a (tableWordLevel Config.a e) (bytesOfEntry Config.a.byteOrder e) with
    | .ok (i, _) => some i
    | .error _ => none

end Sys2Proof
end

