-- ==== Sys2Proof/Machine/State.lean ====
section
/-! DEFINITION. The state of the machine (10_state.md): memory, translation caches, context bindings, the requests in
flight, the fault log, and the agents' inputs; the reasons a step stops; and the state at launch. -/

namespace Sys2Proof.Machine

/-- The outcome record of a request (R34). -/
inductive ReqOutcome
  /-- `Translated(pa, page_size, snooped, mem_type, tm)`. -/
  | translated (pa : Word64) (size : PageSize) (snooped : Bool) (memType : MemType) (tm : Bool)
  /-- `Fault(cause, info)`. -/
  | fault (cause : Cause) (info : FaultInfo)
  deriving DecidableEq, Repr

/-- Where the processing of a request stands (R28). The context record is set once `ContextLookup` has answered `Ok`,
so it stands in the phases that have one. -/
inductive Phase
  | lookup
  | check (ctx : Ctx)
  | walk (ctx : Ctx)
  | done (outcome : ReqOutcome)
  deriving DecidableEq, Repr

/-- One of the hardware's own reads, for its attributes (R120, R121, R135): the root and context entries as one
class (their number is hidden in `ContextLookup`, N5), or a second-level entry. -/
inductive OwnAccess
  | rootOrCtx
  | slEntry (level : Level) (addr : Word64)
  deriving DecidableEq, Repr

/-- An own read with its attributes: whether it is snooped (R120, R121) and its memory type (R133, R134). -/
structure OwnRead where
  what : OwnAccess
  snooped : Bool
  memType : MemType
  deriving DecidableEq, Repr

/-- The walk state of one request in flight (R28), with the list of the hardware's own reads for it, oldest first. -/
structure Walk where
  req : Request
  phase : Phase
  level : Level
  base : Word64
  allR : Bool
  allW : Bool
  reads : List OwnRead
  deriving DecidableEq, Repr

/-- The walk state of a request that has just been issued (R28, R33). DESIGN CHOICE (log 31), safe: the spec gives `level`,
`base`, `allR` and `allW` no value before R95 sets them; what stands here (level 4, base 0, both rights) is read by no
step, since `startWalk` sets all four at the start of the walk. -/
def Walk.start (q : Request) : Walk :=
  { req := q, phase := .lookup, level := .l4, base := 0, allR := true, allW := true, reads := [] }

/-- A record of the fault log (R29). -/
structure FaultRecord where
  req : Request
  cause : Cause
  info : FaultInfo
  deriving DecidableEq, Repr

/-- A translated access that a device has performed (R57, R177), with the attributes of its outcome (R34). `data` is what
a READ got, what a WRITE stored, what an ATOMIC found. -/
structure Access where
  req : Request
  pa : Word64
  size : PageSize
  snooped : Bool
  memType : MemType
  data : List Byte
  deriving DecidableEq, Repr

/-- A turn of one agent (R20, R100, R160): what moves next is an input of the machine, held as plain data. -/
inductive Turn
  /-- A device issues a request and the hardware processes it to its end with no other agent's step between (R99). -/
  | process (q : Request)
  /-- A device issues a request; its processing is left to later turns (R20(a), R28). -/
  | issue (q : Request)
  /-- The remapping hardware takes one step of the request at a place of `walks` (R96, R100). -/
  | advance (k : Nat)
  /-- The device of a finished request performs its translated access, if it has one (R57, R177). `data` is what it
  writes, or its operand; of a READ only the number of bytes counts. -/
  | conclude (k : Nat) (data : List Byte)
  /-- Software writes bytes to physical memory (R20(c), R178). -/
  | write (addr : Nat) (data : List Byte)
  /-- Software performs `Invalidate` (R54). -/
  | invalidate
  /-- Software reprograms the root and context entries of a source: `ContextLookup` may now answer any of these (R24, R36). -/
  | program (source : Nat) (answers : List CtxOutcome)
  deriving DecidableEq, Repr

/-- The state of the machine. Every field but `accesses`, `agenda`, `cur` and `freeCount` is the spec's. -/
structure State where
  /-- The capability registers and parameters (R22, R23, R36); no step changes them. -/
  cfg : Config
  /-- Physical memory (R21): addresses strictly rising, no byte equal to what an unlisted address reads as. -/
  mem : List Host.Cell
  /-- Hist (R27, R52), by 8-byte-aligned address, each set as a strictly rising list; an address that is not listed has
  the singleton of its current content. -/
  hist : List (Nat × List Word64)
  /-- The answers `ContextLookup` may give, by source (R24, R36); a source that is not listed gets a free answer. -/
  ctxTable : List (Nat × List CtxOutcome)
  /-- The requests being processed or finished but not concluded, oldest first (R28). -/
  walks : List Walk
  /-- The fault log, oldest first (R29). -/
  faultLog : List FaultRecord
  /-- The MODEL's own: the translated accesses performed, oldest first (R57). -/
  accesses : List Access
  /-- The MODEL's own: the turns the agents will take (R20, R100). -/
  agenda : List Turn
  /-- The MODEL's own: which of `walks` the hardware is advancing. -/
  cur : Nat
  /-- The MODEL's own: how many free values have been drawn. -/
  freeCount : Nat
  deriving DecidableEq, Repr

/-- The machine stops with a fault. -/
inductive Fault
  /-- Raised by a turn of software or of a device that touches a physical address that is not Backed: the platform's
  address map has nothing there and the spec says nothing of the access (R56, R57, 95_test_vectors.md Program 2). Safe. -/
  | physicalHole (addr : Nat)
  deriving DecidableEq, Repr

/-- The machine gives no meaning. -/
inductive Refusal
  /-- Raised by an arm of `exec` for an instruction that has no meaning yet. Safe. -/
  | notModelled (mnemonic : String)
  /-- Raised by the processing of a request whose context record has an AGAW that is not one of 39 and 48 or not in
  SAGAW: the spec refuses it, neither translated nor faulted (R92, U2). Safe. -/
  | unsupportedAgaw (agaw : Nat)
  /-- Raised by the meaning of an entry when the request being advanced does not stand in its walk at a level of that
  entry: what a word is depends on the level at which a walk reads it, so the spec gives it no meaning there (R60). No
  step reaches it. Safe. -/
  | entryOutOfPlace
  deriving DecidableEq, Repr

/-- The machine at launch: the spec gives no reset value (R35, R170), so this is the launch state of the premises L1 to L5
(R171) with configuration A; each value is a DESIGN CHOICE named in the assumption log. -/
def State.reset : State where
  cfg := Config.a
  mem := []
  hist := []
  ctxTable := []
  walks := []
  faultLog := []
  accesses := []
  agenda := []
  cur := 0
  freeCount := 0

end Sys2Proof.Machine
end

