-- ==== Sys2Proof/Machine/Operands.lean ====
section
/-! DEFINITION. Widths and levels (R90 to R95), the assembly of entry addresses and of final addresses (R63 to R70), and
the choice of one member of a set. -/

namespace Sys2Proof.Machine

/-! ### Widths and levels -/

/-- AGAW from GAW (R90, D10): upward to the next width with (AGAW - 12) a multiple of 9, capped at 64. Software computes
it; the hardware never does. DESIGN CHOICE of the spec (log 22). DESIGN CHOICE of the model (log 22), unsafe for a
statement about such a width: below 12 the spec's formula has no value on unsigned numbers, and this function answers
GAW itself, which is no AGAW. -/
def agawOfGaw (gaw : Nat) : Nat :=
  let r := (gaw - 12) % 9
  min (if r = 0 then gaw else gaw + 9 - r) 64

/-- `levels = (AGAW - 12) / 9` (R91). -/
def levelsOfAgaw (agaw : Nat) : Nat := (agaw - 12) / 9

/-- SAGAW as a set (R5). -/
def sagaw (c : Config) : List Nat :=
  (if c.cap.sagaw39 then [39] else []) ++ (if c.cap.sagaw48 then [48] else [])

/-- The AGAW is one the model admits: 39 or 48, and a member of SAGAW (R92). -/
def agawAdmitted (c : Config) (agaw : Nat) : Bool :=
  (agaw == 39 || agaw == 48) && (sagaw c).contains agaw

/-- The level of the top table (R91, R95): 4 levels start at level 4, 3 levels at level 3. -/
def startLevel (agaw : Nat) : Level := if levelsOfAgaw agaw = 4 then .l4 else .l3

/-- `X = min(MGAW, ctx.AGAW)` (R94). -/
def addressWidth (c : Config) (ctx : Ctx) : Nat := min c.cap.mgaw ctx.agaw

/-- The input address is above 2^X - 1 (R94, R144). -/
def beyondWidth (c : Config) (ctx : Ctx) (ia : Word64) : Bool := decide (ia.toNat > 2 ^ addressWidth c ctx - 1)

/-! ### Address assembly -/

/-- The lowest input-address bit that selects an entry at a level (R63): `lo(L)`. -/
def indexLow : Level → Nat
  | .l4 => 39
  | .l3 => 30
  | .l2 => 21
  | .l1 => 12

/-- The index of the entry selected at a level: nine bits of the input address (R63). -/
def entryIndex (ia : Word64) (L : Level) : BitVec 9 := ia.extractLsb' (indexLow L) 9

/-- `EntryAddr(base, ia, L)` (R63): bits 51:12 of the base, nine bits of the input address, three zeros. -/
def entryAddr (base ia : Word64) (L : Level) : Word64 :=
  (base.extractLsb' 12 40 ++ entryIndex ia L ++ (0 : BitVec 3)).setWidth 64

/-- The base of the table that a frame number gives: `f ++ 0^12` (R43, R64 to R67, R96). -/
def frameBase (f : Frame) : Word64 := (f ++ (0 : BitVec 12)).setWidth 64

/-- Final address in a 4-KByte page (R70). -/
def finalAddr4K (page : Frame) (ia : Word64) : Word64 := (page ++ ia.extractLsb' 0 12).setWidth 64

/-- Final address in a 2-MByte page (R69). -/
def finalAddr2M (page : BitVec 31) (ia : Word64) : Word64 := (page ++ ia.extractLsb' 0 21).setWidth 64

/-- Final address in a 1-GByte page (R68). -/
def finalAddr1G (page : BitVec 22) (ia : Word64) : Word64 := (page ++ ia.extractLsb' 0 30).setWidth 64

/-- The number of offset bits of a page (R45, R68 to R70). -/
def pageBits : PageSize → Nat
  | .size4K => 12
  | .size2M => 21
  | .size1G => 30

/-- How many bytes lie from an address to the end of its page (D11). -/
def bytesLeftInPage (pa : Word64) (size : PageSize) : Nat := 2 ^ pageBits size - pa.toNat % 2 ^ pageBits size

/-! ### Drawing -/

/-- One member of a list by the number drawn: a list of one has no choice, and an empty list gives the default. -/
def pick {α : Type} (n : Nat) (dflt : α) : List α → α
  | [] => dflt
  | [v] => v
  | v :: u :: vs => (v :: u :: vs).getD (n % (vs.length + 2)) v

end Sys2Proof.Machine
end

