-- ==== Sys2Proof/Machine/Flags.lean ====
section
/-! DEFINITION. The hardware has no flags (R32). What stands here is every computation of rights and attributes: the
permission function (R117), the snoop function (R125), the memory-type function (R135). -/

namespace Sys2Proof.Machine

/-- `Permitted(kind, allR, allW)` (R117, R112 to R114). -/
def permitted (k : Kind) (allR allW : Bool) : Bool :=
  match k with
  | .read => allR
  | .write => allW
  | .atomic => allR && allW

/-- The denied cause of a kind (R146). -/
def deniedCause : Kind → Cause
  | .read => .readDenied
  | .write => .writeDenied
  | .atomic => .atomicDenied

/-- `Snoop(req, leaf)` (R125), given the leaf's SNP bit. -/
def snoop (c : Config) (q : Request) (leafSnp : Bool) : Bool := (c.ecap.sc && leafSnp) || !q.noSnoop

/-- `MemTypeOf(req, ctx, what)` (R135). -/
def memTypeOf (q : Request) (ctx : Ctx) (what : AccessClass) : MemType :=
  if !q.inCoherencyDomain then .ignored
  else if ctx.extended && ctx.cd then .uc
  else match what with
    | .rootOrCtxEntry => .uc
    | .slEntry => .wb
    | .finalPage => .wb

/-- The memory type of the reads of root and context entries, which are made before the context record is known: R135
gives the same answer for every record. -/
def rootOrCtxMemType (q : Request) : MemType := if q.inCoherencyDomain then .uc else .ignored

/-- Whether an own read is snooped (R120, R121, R126): yes when ECAP_C is 1, a free value when it is 0. -/
def ownReadSnooped (c : Config) (n : Nat) : Bool := c.ecap.c || Config.ownReadSnooped n

end Sys2Proof.Machine
end

