-- ==== Sys2Proof/Machine/Ops.lean ====
section
/-! DEFINITION. The named operations over memory (R21, R42), the translation caches (R27, R52 to R54), `MemRead64` (R46,
R56), `ContextLookup` (R24) and the walk states (R28), with the taking of a translation fault as one operation (R150) and
the end of a walk as one operation (R98, R149). There is no return from a fault (R155). -/

namespace Sys2Proof.Machine

/-- The answer of a meaning or a step. -/
abbrev Out := Host.Outcome State Fault Refusal

/-! ### Memory -/

/-- What an address that is not listed reads as. DESIGN CHOICE (log 4), unsafe: the spec gives memory no reset contents. -/
def unlistedByte : Byte := 0

/-- The canonical form of memory: addresses strictly rising, no byte equal to what an unlisted address reads as. -/
abbrev Memory.wf (m : List Host.Cell) : Prop :=
  m.Pairwise (fun x y => x.1 < y.1) ∧ ∀ x ∈ m, x.2 ≠ unlistedByte

/-- Read one byte of memory. -/
def memRead : List Host.Cell → Nat → Byte
  | [], _ => unlistedByte
  | (b, v) :: t, a => if b = a then v else memRead t a

/-- A cell put before a list, or nothing where the byte is what an unlisted address reads as. -/
def consCell (a : Nat) (v : Byte) (t : List Host.Cell) : List Host.Cell :=
  if v = unlistedByte then t else (a, v) :: t

/-- Write one byte of memory, keeping the canonical form. -/
def memWrite : List Host.Cell → Nat → Byte → List Host.Cell
  | [], a, v => consCell a v []
  | (b, u) :: t, a, v =>
    if a < b then consCell a v ((b, u) :: t)
    else if a = b then consCell a v t
    else (b, u) :: memWrite t a v

/-- Write bytes at rising addresses. -/
def memWriteBytes (m : List Host.Cell) (a : Nat) : List Byte → List Host.Cell
  | [] => m
  | v :: vs => memWriteBytes (memWrite m a v) (a + 1) vs

/-- Read bytes at rising addresses. -/
def memReadBytes (m : List Host.Cell) (a n : Nat) : List Byte := (List.range n).map (fun i => memRead m (a + i))

/-- The 64-bit content of the location at an address, in BYTE_ORDER (R42). -/
def content64 (o : ByteOrder) (m : List Host.Cell) (a : Nat) : Word64 :=
  entryOfBytes o (memRead m a) (memRead m (a + 1)) (memRead m (a + 2)) (memRead m (a + 3))
    (memRead m (a + 4)) (memRead m (a + 5)) (memRead m (a + 6)) (memRead m (a + 7))

/-! ### Lists by key -/

/-- The value bound to a key. -/
def assocGet {α : Type} : List (Nat × α) → Nat → Option α
  | [], _ => none
  | (b, v) :: t, a => if b = a then some v else assocGet t a

/-- Bind a key, keeping the keys rising. -/
def assocPut {α : Type} : List (Nat × α) → Nat → α → List (Nat × α)
  | [], a, v => [(a, v)]
  | (b, u) :: t, a, v =>
    if a < b then (a, v) :: (b, u) :: t
    else if a = b then (a, v) :: t
    else (b, u) :: assocPut t a v

/-! ### The translation caches -/

/-- Add a value to a set of values held as a strictly rising list. -/
def wordInsert : List Word64 → Word64 → List Word64
  | [], v => [v]
  | u :: t, v => if v.toNat < u.toNat then v :: u :: t else if v = u then u :: t else u :: wordInsert t v

/-- Hist at an address, given the memory and the listed sets (R52). -/
def histSet (o : ByteOrder) (m : List Host.Cell) (h : List (Nat × List Word64)) (a : Nat) : List Word64 :=
  (assocGet h a).getD [content64 o m a]

/-- `Hist(a)` (R27, R52). -/
def histOf (s : State) (a : Nat) : List Word64 := histSet s.cfg.byteOrder s.mem s.hist a

/-- What a write does to Hist at one location: a changed content is added (R52). -/
def histNote (o : ByteOrder) (before after : List Host.Cell) (h : List (Nat × List Word64)) (a : Nat) :
    List (Nat × List Word64) :=
  if content64 o before a = content64 o after a then h
  else assocPut h a (wordInsert (histSet o before h a) (content64 o after a))

/-- The 8-byte-aligned locations that n bytes at an address touch. -/
def touchedWords (a n : Nat) : List Nat := (List.range ((a + n - 1) / 8 - a / 8 + 1)).map (fun i => 8 * (a / 8 + i))

/-- A write of bytes to physical memory by software or by a device (R21, R52). -/
def storeBytes (a : Nat) (data : List Byte) (s : State) : State :=
  let after := memWriteBytes s.mem a data
  { s with
    mem := after
    hist := (touchedWords a data.length).foldl (histNote s.cfg.byteOrder s.mem after) s.hist }

/-- `Invalidate` (R54): every Hist(a) becomes the singleton of the current content. -/
def invalidateCaches (s : State) : State := { s with hist := [] }

/-! ### Reads of structures -/

/-- `Backed(a)` (R56). -/
def backed (c : Config) (a : Nat) : Bool :=
  match c.backed with
  | .belowHaw => decide (a < 2 ^ c.haw)
  | .ranges l => l.any (fun x => decide (x.1 ≤ a) && decide (a < x.1 + x.2))

/-- The first of n addresses that is not Backed, if any. -/
def firstHole (c : Config) (a n : Nat) : Option Nat := ((List.range n).map (fun i => a + i)).find? (fun x => !backed c x)

/-- `MemRead64(a)` (R46, R52, R56): `none` is `Error`; a value is any member of Hist(a). -/
def memRead64 (s : State) (a : Word64) : Option Word64 :=
  if backed s.cfg a.toNat then
    some (pick (Config.draw s.freeCount) (content64 s.cfg.byteOrder s.mem a.toNat) (histOf s a.toNat))
  else none

/-- `ContextLookup(req)` (R24, R36): any answer bound to the source, or a free answer where none is bound. -/
def contextLookup (s : State) (q : Request) : CtxOutcome :=
  match assocGet s.ctxTable q.source with
  | some answers => pick (Config.draw s.freeCount) (Config.contextLookup s.freeCount q) answers
  | none => Config.contextLookup s.freeCount q

/-! ### Walk states -/

/-- The place in the walk where a request stands: its level and the address of the entry (R63, R141, R145). -/
def entryHere (ws : Walk) : FaultInfo := .entry ws.level (entryAddr ws.base ws.req.ia ws.level)

/-- An own read noted in a walk state with its attributes (R120, R121, R135). -/
def noteRead (s : State) (ws : Walk) (what : OwnAccess) (t : MemType) : Walk :=
  { ws with reads := ws.reads ++ [{ what := what, snooped := ownReadSnooped s.cfg s.freeCount, memType := t }] }

/-- Put a walk state in its place. -/
def setWalk (k : Nat) (ws : Walk) (s : State) : State := { s with walks := s.walks.set k ws }

/-- Count one draw. -/
def countDraw (s : State) : State := { s with freeCount := s.freeCount + 1 }

/-- The rights of one more usable entry (R115). -/
def accumulate (ws : Walk) (r w : Bool) : Walk := { ws with allR := ws.allR && r, allW := ws.allW && w }

/-- TAKING A TRANSLATION FAULT, `raise Fault(cause, info)` (R150): the request is over, one record is appended to the
fault log, nothing else changes. -/
def raiseFault (k : Nat) (ws : Walk) (cause : Cause) (info : FaultInfo) (s : State) : State :=
  { s with
    walks := s.walks.set k { ws with phase := .done (.fault cause info) }
    faultLog := s.faultLog ++ [{ req := ws.req, cause := cause, info := info }] }

/-- The leaf that ended a walk (R96): its final address, page size, SNP and TM. -/
structure Leaf where
  pa : Word64
  size : PageSize
  snp : Bool
  tm : Bool
  deriving DecidableEq, Repr

/-- How the loop of R99 ended. -/
inductive LoopEnd
  | unusable (cause : Cause)
  | leaf (l : Leaf)
  deriving DecidableEq, Repr

/-- The walk's own cause under either mode of R149. -/
def walkCause (ws : Walk) : LoopEnd → List (Cause × FaultInfo)
  | .unusable cause => [(cause, entryHere ws)]
  | .leaf _ => []

/-- The denial of the request's kind, if the rights met so far lack one it needs (R117, R146). Its place is the leaf; where
the walk met none (under any_applicable alone) the spec states no place, and a free value stands there (log 13). -/
def denial (ws : Walk) (e : LoopEnd) (n : Nat) : List (Cause × FaultInfo) :=
  if permitted ws.req.kind ws.allR ws.allW then []
  else
    match e with
    | .unusable _ => [(deniedCause ws.req.kind, Config.deniedInfo n)]
    | .leaf _ => [(deniedCause ws.req.kind, entryHere ws)]

/-- The faults from which the reported one is taken when the loop of R99 has ended (R149). Under walk_order it is the first
one met; under any_applicable it is the set A(req). -/
def faultsMet (c : Config) (ctx : Ctx) (ws : Walk) (e : LoopEnd) (n : Nat) : List (Cause × FaultInfo) :=
  match c.faultChoice with
  | .walkOrder =>
    match e with
    | .unusable _ => walkCause ws e
    | .leaf _ => denial ws e n
  | .anyApplicable =>
    (if beyondWidth c ctx ws.req.ia then [(Cause.addrBeyondWidth, FaultInfo.input ws.req.ia)] else [])
      ++ walkCause ws e ++ denial ws e n

/-- `Translated(result_pa, page_size, Snoop(req, leaf), MemType(req, ctx), leaf[TM_BIT])` (R98). -/
def translatedOutcome (c : Config) (ctx : Ctx) (q : Request) (l : Leaf) : ReqOutcome :=
  .translated l.pa l.size (snoop c q l.snp) (memTypeOf q ctx .finalPage) l.tm

/-- The end of a walk (R98, R99, R149): the request is translated, or takes one of the faults met. -/
def endWalk (k : Nat) (ws : Walk) (ctx : Ctx) (e : LoopEnd) (s : State) : State :=
  match faultsMet s.cfg ctx ws e s.freeCount, e with
  | [], .leaf l => countDraw (setWalk k { ws with phase := .done (translatedOutcome s.cfg ctx ws.req l) } s)
  | [], .unusable cause => countDraw (raiseFault k ws cause (entryHere ws) s)
  | f :: fs, _ =>
    let g := pick (Config.draw s.freeCount) f (f :: fs)
    countDraw (raiseFault k ws g.1 g.2 s)

/-- The request being advanced, when it stands in its walk, with its context record (R28). -/
def currentWalk (s : State) : Option (Walk × Ctx) :=
  match s.walks[s.cur]? with
  | some ws =>
    match ws.phase with
    | .walk ctx => some (ws, ctx)
    | .lookup => none
    | .check _ => none
    | .done _ => none
  | none => none

/-- Give the current walk to the meaning of an entry of one of these levels; elsewhere an entry has no meaning (R60). -/
def onEntry (levels : List Level) (s : State) (f : Walk → Ctx → State) : Out :=
  match currentWalk s with
  | some (ws, ctx) => if ws.level ∈ levels then .next (f ws ctx) else .refused .entryOutOfPlace
  | none => .refused .entryOutOfPlace

/-- The transfer to the table of the next level (R96, R103). -/
def descend (r w : Bool) (addr : Frame) (next : Level) (ws : Walk) (s : State) : State :=
  setWalk s.cur { accumulate ws r w with base := frameBase addr, level := next } s

end Sys2Proof.Machine
end

