-- ==== Sys2Proof/Machine/Entries.lean ====
section
/-! DEFINITION. The meanings of the seven entry rows (R72, R104 to R107): each acts on the request being advanced. -/

namespace Sys2Proof.Machine

/-- SL-ENTRY.NOT_PRESENT, at every level (R72, R145): fault SlNotPresent with the level and the address of the entry. -/
def execSlEntryNotPresent (_rest : Word64) (s : State) : Out :=
  onEntry [.l4, .l3, .l2, .l1] s (fun ws ctx => endWalk s.cur ws ctx (.unusable .slNotPresent) s)

/-- SL-PML4E (R104): the walk goes to level 3. -/
def execSlPml4e (r w : Bool) (addr : Frame) (_ign : Word64) (s : State) : Out :=
  onEntry [.l4] s (fun ws _ => descend r w addr .l3 ws s)

/-- SL-PDPE with PS = 0 (R105): the walk goes to level 2. -/
def execSlPdpeTable (r w : Bool) (addr : Frame) (_ign : Word64) (s : State) : Out :=
  onEntry [.l3] s (fun ws _ => descend r w addr .l2 ws s)

/-- SL-PDPE with PS = 1 (R105, R68): the walk ends with a 1-GByte page. -/
def execSlPdpePage1g (r w snp tm : Bool) (page : BitVec 22) (_ign : Word64) (s : State) : Out :=
  onEntry [.l3] s (fun ws ctx =>
    endWalk s.cur (accumulate ws r w) ctx
      (.leaf { pa := finalAddr1G page ws.req.ia, size := .size1G, snp := snp, tm := tm }) s)

/-- SL-PDE with PS = 0 (R106): the walk goes to level 1. -/
def execSlPdeTable (r w : Bool) (addr : Frame) (_ign : Word64) (s : State) : Out :=
  onEntry [.l2] s (fun ws _ => descend r w addr .l1 ws s)

/-- SL-PDE with PS = 1 (R106, R69): the walk ends with a 2-MByte page. -/
def execSlPdePage2m (r w snp tm : Bool) (page : BitVec 31) (_ign : Word64) (s : State) : Out :=
  onEntry [.l2] s (fun ws ctx =>
    endWalk s.cur (accumulate ws r w) ctx
      (.leaf { pa := finalAddr2M page ws.req.ia, size := .size2M, snp := snp, tm := tm }) s)

/-- SL-PTE (R107, R70): the walk ends with a 4-KByte page. -/
def execSlPte (r w snp tm : Bool) (page : Frame) (_ign : Word64) (s : State) : Out :=
  onEntry [.l1] s (fun ws ctx =>
    endWalk s.cur (accumulate ws r w) ctx
      (.leaf { pa := finalAddr4K page ws.req.ia, size := .size4K, snp := snp, tm := tm }) s)

/-- The meaning of an entry the decoder gave; a request row is no entry (R60, R89). -/
def runEntry (i : Instr) (s : State) : Out :=
  match i with
  | .read .. => .refused .entryOutOfPlace
  | .write .. => .refused .entryOutOfPlace
  | .atomic .. => .refused .entryOutOfPlace
  | .slEntryNotPresent rest => execSlEntryNotPresent rest s
  | .slPml4e r w addr ign => execSlPml4e r w addr ign s
  | .slPdpeTable r w addr ign => execSlPdpeTable r w addr ign s
  | .slPdpePage1g r w snp tm page ign => execSlPdpePage1g r w snp tm page ign s
  | .slPdeTable r w addr ign => execSlPdeTable r w addr ign s
  | .slPdePage2m r w snp tm page ign => execSlPdePage2m r w snp tm page ign s
  | .slPte r w snp tm page ign => execSlPte r w snp tm page ign s

end Sys2Proof.Machine
end

