-- ==== Sys2Proof/Machine/Process.lean ====
section
/-! DEFINITION. One step of the remapping hardware on one request (R93, R96, R99, R100): ContextLookup, the address-width
check, or one entry read with the effect of the entry. -/

namespace Sys2Proof.Machine

/-- The fault of a `ContextLookup` outcome, or the context record (R24, R99). -/
def lookupFault : CtxOutcome → Except Cause Ctx
  | .rootAccessError => .error .rootAccessError
  | .rootNotPresent => .error .rootNotPresent
  | .rootInvalid => .error .rootInvalid
  | .rootReserved => .error .rootReserved
  | .ctxAccessError => .error .ctxAccessError
  | .ctxNotPresent => .error .ctxNotPresent
  | .ctxInvalid => .error .ctxInvalid
  | .ctxBlocked => .error .ctxBlocked
  | .ctxReserved => .error .ctxReserved
  | .ok ctx => .ok ctx

/-- Phase Lookup (R24, R93(1), R99). -/
def lookupStep (k : Nat) (ws : Walk) (s : State) : State :=
  let ws' := noteRead s ws .rootOrCtx (rootOrCtxMemType ws.req)
  match lookupFault (contextLookup s ws.req) with
  | .error cause => countDraw (raiseFault k ws' cause .request s)
  | .ok ctx => countDraw (setWalk k { ws' with phase := .check ctx } s)

/-- The walk state at the start of the walk (R95). -/
def startWalk (ws : Walk) (ctx : Ctx) : Walk :=
  { ws with phase := .walk ctx, level := startLevel ctx.agaw, base := frameBase ctx.slptptr, allR := true, allW := true }

/-- Phase Check (R92, R93(2), R94, R95). Under any_applicable an address beyond the width is collected at the end of the
walk instead (R149). -/
def checkStep (k : Nat) (ws : Walk) (ctx : Ctx) (s : State) : Out :=
  if !agawAdmitted s.cfg ctx.agaw then .refused (.unsupportedAgaw ctx.agaw)
  else if s.cfg.faultChoice = .walkOrder ∧ beyondWidth s.cfg ctx ws.req.ia = true then
    .next (raiseFault k ws .addrBeyondWidth (.input ws.req.ia) s)
  else .next (setWalk k (startWalk ws ctx) s)

/-- The state in which the meaning of an entry acts: the read is noted and this request is the current one. -/
def readNoted (k : Nat) (ws : Walk) (ctx : Ctx) (a : Word64) (s : State) : State :=
  { countDraw (setWalk k (noteRead s ws (.slEntry ws.level a) (memTypeOf ws.req ctx .slEntry)) s) with cur := k }

/-- The outcome of a read that failed or of an entry that sets a reserved bit (R96, R141, R145). -/
def unusableStep (k : Nat) (ctx : Ctx) (cause : Cause) (s : State) : Out :=
  match s.walks[k]? with
  | some ws => .next (endWalk k ws ctx (.unusable cause) s)
  | none => .next s

/-- `WalkStep` (R96): fetch the entry of the level, decode it at the level, and give it to its meaning. -/
def walkStep (run : Instr → State → Out) (k : Nat) (ws : Walk) (ctx : Ctx) (s : State) : Out :=
  let a := entryAddr ws.base ws.req.ia ws.level
  let s' := readNoted k ws ctx a s
  match memRead64 s a with
  | none => unusableStep k ctx .slAccessError s'
  | some e =>
    match decodeEntry s.cfg ws.level e with
    | .error _ => unusableStep k ctx .slReserved s'
    | .ok i => run i s'

/-- One step of the remapping hardware on the request at a place of `walks` (R100, R160). A place with no request, or with
a request that is over, asks for no step (R177). -/
def hwStep (run : Instr → State → Out) (k : Nat) (s : State) : Out :=
  match s.walks[k]? with
  | none => .next s
  | some ws =>
    match ws.phase with
    | .lookup => .next (lookupStep k ws s)
    | .check ctx => checkStep k ws ctx s
    | .walk ctx => walkStep run k ws ctx s
    | .done _ => .next s

/-- A device issues a request (R20(a), R28). -/
def issueRequest (q : Request) (s : State) : State := { s with walks := s.walks ++ [Walk.start q] }

/-- Consecutive steps of the remapping hardware on one request. -/
def hwSteps (run : Instr → State → Out) (k : Nat) : Nat → State → Out
  | 0, s => .next s
  | n + 1, s =>
    match hwStep run k s with
    | .next s' => hwSteps run k n s'
    | .fault f => .fault f
    | .refused r => .refused r

/-- `Process(req)` (R99) with no step of another agent between its steps: Lookup, Check and at most four entry reads
(R103). The request stays in `walks`, finished, until its device concludes it (R177). -/
def process (q : Request) (s : State) : Out := hwSteps runEntry s.walks.length 6 (issueRequest q s)

end Sys2Proof.Machine
end

