-- ==== Sys2Proof/Machine/Requests.lean ====
section
/-! DEFINITION. The meanings of the three request rows (R112 to R114). -/

namespace Sys2Proof.Machine

/-- READ (R112): Process(req) with Permitted = allR. -/
def execRead (ia : Word64) (noSnoop inCoherencyDomain : Bool) (source : Nat) (s : State) : Out :=
  process { kind := .read, ia := ia, noSnoop := noSnoop, inCoherencyDomain := inCoherencyDomain, source := source } s

/-- WRITE (R113): Process(req) with Permitted = allW. -/
def execWrite (ia : Word64) (noSnoop inCoherencyDomain : Bool) (source : Nat) (s : State) : Out :=
  process { kind := .write, ia := ia, noSnoop := noSnoop, inCoherencyDomain := inCoherencyDomain, source := source } s

/-- ATOMIC (R114): Process(req) with Permitted = allR and allW. -/
def execAtomic (ia : Word64) (noSnoop inCoherencyDomain : Bool) (source : Nat) (s : State) : Out :=
  process { kind := .atomic, ia := ia, noSnoop := noSnoop, inCoherencyDomain := inCoherencyDomain, source := source } s

end Sys2Proof.Machine
end

