-- ==== Sys2Proof/Machine/Dispatch.lean ====
section
/-! DEFINITION. The meaning of every instruction: one arm per row of spec/opcode_table.json. -/

namespace Sys2Proof.Machine

def exec (i : Instr) (s : State) : Host.Outcome State Fault Refusal :=
  match i with
  | .read ia noSnoop coh source => Sys2Proof.Machine.execRead ia noSnoop coh source s
  | .write ia noSnoop coh source => Sys2Proof.Machine.execWrite ia noSnoop coh source s
  | .atomic ia noSnoop coh source => Sys2Proof.Machine.execAtomic ia noSnoop coh source s
  | .slEntryNotPresent rest => Sys2Proof.Machine.execSlEntryNotPresent rest s
  | .slPml4e r w addr ign => Sys2Proof.Machine.execSlPml4e r w addr ign s
  | .slPdpeTable r w addr ign => Sys2Proof.Machine.execSlPdpeTable r w addr ign s
  | .slPdpePage1g r w snp tm page ign => Sys2Proof.Machine.execSlPdpePage1g r w snp tm page ign s
  | .slPdeTable r w addr ign => Sys2Proof.Machine.execSlPdeTable r w addr ign s
  | .slPdePage2m r w snp tm page ign => Sys2Proof.Machine.execSlPdePage2m r w snp tm page ign s
  | .slPte r w snp tm page ign => Sys2Proof.Machine.execSlPte r w snp tm page ign s

end Sys2Proof.Machine
end

