-- ==== Sys2Proof/Machine/Agents.lean ====
section
/-! DEFINITION. The turns of the agents (R20, R54, R57, R100, R177, R178), the order in which they move, and the placing of
one table word for the host. -/

namespace Sys2Proof.Machine

/-- Software writes bytes to physical memory (R20(c), R52, R178). -/
def softwareWrite (a : Nat) (data : List Byte) (s : State) : Out :=
  match firstHole s.cfg a data.length with
  | some h => .fault (.physicalHole h)
  | none => .next (storeBytes a data s)

/-- Software reprograms the root and context entries of a source (R24, R36). -/
def softwareProgram (source : Nat) (answers : List CtxOutcome) (s : State) : State :=
  { s with ctxTable := assocPut s.ctxTable source answers }

/-- The bytes an atomic operation leaves: the source does not say which (R114, N16), so each is a free value. -/
def atomicResult (n : Nat) (old data : List Byte) : List Byte :=
  (List.range data.length).map (Config.atomicByte n old data)

/-- The access of a device at its final address (R57). It touches bytes of the mapped page only (D11). -/
def translatedAccess (k : Nat) (ws : Walk) (pa : Word64) (size : PageSize) (snooped : Bool) (memType : MemType)
    (data : List Byte) (s : State) : Out :=
  let bytes := data.take (bytesLeftInPage pa size)
  let found := memReadBytes s.mem pa.toNat bytes.length
  let access (d : List Byte) : Access :=
    { req := ws.req, pa := pa, size := size, snooped := snooped, memType := memType, data := d }
  let leave (d : List Byte) : State := { s with walks := s.walks.eraseIdx k, accesses := s.accesses ++ [access d] }
  match firstHole s.cfg pa.toNat bytes.length with
  | some h => .fault (.physicalHole h)
  | none =>
    match ws.req.kind with
    | .read => .next (leave found)
    | .write => .next (storeBytes pa.toNat bytes (leave bytes))
    | .atomic => .next (countDraw (storeBytes pa.toNat (atomicResult s.freeCount found bytes) (leave found)))

/-- The last step of a device on its request (R57, R177): the access of a translated request, nothing for a faulted one
(R150). A request that is not over is left as it is. -/
def conclude (k : Nat) (data : List Byte) (s : State) : Out :=
  match s.walks[k]? with
  | none => .next s
  | some ws =>
    match ws.phase with
    | .lookup => .next s
    | .check _ => .next s
    | .walk _ => .next s
    | .done (.fault _ _) => .next { s with walks := s.walks.eraseIdx k }
    | .done (.translated pa size snooped memType _) => translatedAccess k ws pa size snooped memType data s

/-- One turn of one agent (R20). -/
def runTurn (t : Turn) (s : State) : Out :=
  match t with
  | .process q => exec q.instr s
  | .issue q => .next (issueRequest q s)
  | .advance k => hwStep exec k s
  | .conclude k data => conclude k data s
  | .write a data => softwareWrite a data s
  | .invalidate => .next (invalidateCaches s)
  | .program source answers => .next (softwareProgram source answers s)

/-- The request is not over (R177). -/
def Walk.unfinished (ws : Walk) : Bool :=
  match ws.phase with
  | .lookup => true
  | .check _ => true
  | .walk _ => true
  | .done _ => false

/-- What moves when no agent's turn is listed: the hardware, on the oldest request that is not over; nothing when there is
none, the run being over (R177). -/
def defaultMove (s : State) : Out :=
  match s.walks.findIdx? Walk.unfinished with
  | some k => hwStep exec k s
  | none => .next s

/-- The move of the machine: the first turn listed, or the default one. -/
def move (s : State) : Out :=
  match s.agenda with
  | t :: ts => runTurn t { s with agenda := ts }
  | [] => defaultMove s

/-- The context record under which a lone table word is read (log 20). -/
def tableWordCtx : Ctx := { extended := false, slptptr := 0, agaw := 48, cd := false }

/-- The request whose walk reads a lone table word (log 20). -/
def tableWordRequest : Request := { kind := .read, ia := 0, noSnoop := false, inCoherencyDomain := true, source := 0 }

/-- A walk that stands at a level with its table at address 0 (log 20). -/
def tableWordWalk (L : Level) : Walk :=
  { Walk.start tableWordRequest with phase := .walk tableWordCtx, level := L }

/-- Place one table word so that the next move reads it as an entry and gives it to its meaning (log 20): under the
configuration the word is written for, the word at address 0 with a clean cache, a walk at the level at which the decoder
reads the word, and the hardware's turn on it first. A request row has no word and is not placed (R87, R89). -/
def placeTableWord (s : State) (nbits w : Nat) : State :=
  if nbits = 0 then s
  else
    let e := tableWord nbits w
    { s with
      cfg := Config.a
      mem := memWriteBytes s.mem 0 (bytesOfEntry Config.a.byteOrder e)
      hist := s.hist.filter (fun x => x.1 != 0)
      walks := s.walks ++ [tableWordWalk (tableWordLevel Config.a e)]
      agenda := .advance s.walks.length :: s.agenda }

end Sys2Proof.Machine
end

