-- ==== Sys2Proof/Machine/Step.lean ====
section
/-! DEFINITION. The step of the machine, and the placing of one instruction for the host. -/

namespace Sys2Proof.Machine

/-- One step: the move of one agent (R20, R100). -/
def step (s : State) : Host.Outcome State Fault Refusal := move s

/-- `s` with the table word where the next step fetches it (log 20). -/
def State.withFetchWord (s : State) (nbits w : Nat) : State := placeTableWord s nbits w

end Sys2Proof.Machine
end

