-- ==== Sys2Proof/Safety.lean ====
section
/-! DEFINITION. The terms in which claims speak: the launch premises (R171), the invariant of the machine, and `Process`
as R99 writes it, over a reader of entries, as the reference the machine is compared with. -/

namespace Sys2Proof.Machine

/-! ### Launch premises (R171) -/

/-- L1: no fault recorded. -/
abbrev State.noFaultRecorded (s : State) : Prop := s.faultLog = []

/-- L2: nothing in flight. -/
abbrev State.nothingInFlight (s : State) : Prop := s.walks = []

/-- L3: caches clean, every Hist(a) the singleton of the current content. -/
abbrev State.cachesClean (s : State) : Prop := s.hist = []

/-- L5: the configuration is one the spec admits. -/
abbrev State.configured (s : State) : Prop := s.cfg.wf = true

/-! ### The invariant -/

/-- A set of Hist is held as a strictly rising list. -/
abbrev wordsRising (l : List Word64) : Prop := l.Pairwise (fun x y => x.toNat < y.toNat)

/-- The translation caches are in canonical form, and every set holds the current content (R52): "The current content of
memory is always a member". -/
abbrev histWf (o : ByteOrder) (m : List Host.Cell) (h : List (Nat × List Word64)) : Prop :=
  h.Pairwise (fun x y => x.1 < y.1) ∧
    ∀ x ∈ h, x.1 % 8 = 0 ∧ wordsRising x.2 ∧ 2 ≤ x.2.length ∧ content64 o m x.1 ∈ x.2

/-- A walk that has started stands where the rules put it (R43, R92, R94, R95, R103): an admitted AGAW, a level no higher
than its top, a 4-KByte-aligned base below 2^52, and, under walk_order, an input address within the width. A final address
has at most 52 significant bits (R101). -/
def Walk.wf (c : Config) (ws : Walk) : Bool :=
  match ws.phase with
  | .lookup => true
  | .check _ => true
  | .walk ctx =>
    agawAdmitted c ctx.agaw && decide (ws.level.num ≤ levelsOfAgaw ctx.agaw) && decide (ws.base.toNat % 4096 = 0)
      && decide (ws.base.toNat < 2 ^ 52)
      && (c.faultChoice == .anyApplicable || !beyondWidth c ctx ws.req.ia)
  | .done (.translated pa _ _ _ _) => decide (pa.toNat < 2 ^ 52)
  | .done (.fault _ _) => true

/-- Every record of a finished, faulted request stands in the fault log (R29, R150). -/
def State.faultsLogged (s : State) : Prop :=
  ∀ ws ∈ s.walks, ∀ cause info, ws.phase = .done (.fault cause info) →
    ({ req := ws.req, cause := cause, info := info } : FaultRecord) ∈ s.faultLog

/-- The invariant of the machine. -/
structure State.Inv (s : State) : Prop where
  memory : Memory.wf s.mem
  caches : histWf s.cfg.byteOrder s.mem s.hist
  walks : ∀ ws ∈ s.walks, ws.wf s.cfg = true
  logged : s.faultsLogged

/-! ### Process as R99 writes it -/

/-- What the reference says of a request: an outcome record, or that the spec refuses it (R92). -/
inductive Verdict
  | outcome (o : ReqOutcome)
  | refused (agaw : Nat)
  deriving DecidableEq, Repr

/-- The rest of R99 after the loop has met a leaf: rights, then the outcome record (R98, R117, R146). -/
def afterLeaf (c : Config) (ctx : Ctx) (q : Request) (L : Level) (a : Word64) (allR allW : Bool) (leaf : Word64)
    (pa : Word64) (size : PageSize) : ReqOutcome :=
  if !permitted q.kind allR allW then .fault (deniedCause q.kind) (.entry L a)
  else .translated pa size (snoop c q (fieldSnp c leaf)) (memTypeOf q ctx .finalPage) (fieldTm c leaf)

/-- The loop of R99 from a level down, over a reader of entries: `below` is the loop at the next lower level, given the
base and the rights so far. -/
def loopAt (c : Config) (ctx : Ctx) (q : Request) (rd : Word64 → Option Word64) (L : Level)
    (below : Word64 → Bool → Bool → ReqOutcome) (base : Word64) (allR allW : Bool) : ReqOutcome :=
  let a := entryAddr base q.ia L
  match rd a with
  | none => .fault .slAccessError (.entry L a)
  | some e =>
    let r := allR && fieldR c e
    let w := allW && fieldW c e
    match classify c L e with
    | .notPresent => .fault .slNotPresent (.entry L a)
    | .reserved => .fault .slReserved (.entry L a)
    | .table => below (frameBase (fieldAddr e)) r w
    | .leaf1G => afterLeaf c ctx q L a r w e (finalAddr1G (fieldPage1G e) q.ia) .size1G
    | .leaf2M => afterLeaf c ctx q L a r w e (finalAddr2M (fieldPage2M e) q.ia) .size2M
    | .leaf4K => afterLeaf c ctx q L a r w e (finalAddr4K (fieldAddr e) q.ia) .size4K

/-- The loop of R99 at level 1: there is no level below it, and `Classify` gives no table there (R85). -/
def loop1 (c : Config) (ctx : Ctx) (q : Request) (rd : Word64 → Option Word64) : Word64 → Bool → Bool → ReqOutcome :=
  loopAt c ctx q rd .l1 (fun base _ _ => .fault .slReserved (.entry .l1 base))

/-- The loop of R99 at level 2. -/
def loop2 (c : Config) (ctx : Ctx) (q : Request) (rd : Word64 → Option Word64) : Word64 → Bool → Bool → ReqOutcome :=
  loopAt c ctx q rd .l2 (loop1 c ctx q rd)

/-- The loop of R99 at level 3. -/
def loop3 (c : Config) (ctx : Ctx) (q : Request) (rd : Word64 → Option Word64) : Word64 → Bool → Bool → ReqOutcome :=
  loopAt c ctx q rd .l3 (loop2 c ctx q rd)

/-- The loop of R99 at level 4. -/
def loop4 (c : Config) (ctx : Ctx) (q : Request) (rd : Word64 → Option Word64) : Word64 → Bool → Bool → ReqOutcome :=
  loopAt c ctx q rd .l4 (loop3 c ctx q rd)

/-- `Process(req)` (R99) under walk_order, given the answer of `ContextLookup` and the reader of entries. -/
def processSpec (c : Config) (answer : CtxOutcome) (rd : Word64 → Option Word64) (q : Request) : Verdict :=
  match lookupFault answer with
  | .error cause => .outcome (.fault cause .request)
  | .ok ctx =>
    if !agawAdmitted c ctx.agaw then .refused ctx.agaw
    else if beyondWidth c ctx q.ia then .outcome (.fault .addrBeyondWidth (.input q.ia))
    else if levelsOfAgaw ctx.agaw = 4 then .outcome (loop4 c ctx q rd (frameBase ctx.slptptr) true true)
    else .outcome (loop3 c ctx q rd (frameBase ctx.slptptr) true true)

/-- The reader of entries when the caches are clean (R52, R56): memory's own content, or an error where nothing is Backed. -/
def cleanReader (s : State) (a : Word64) : Option Word64 :=
  if backed s.cfg a.toNat then some (content64 s.cfg.byteOrder s.mem a.toNat) else none

/-! ### The entries that control a translation (R110) -/

/-- A valid translation of an input address: the entries the walk used, from the top level down to the leaf (R110), the
leaf among them again, its level and its address, the final address and the page size. -/
structure Mapped where
  entries : List Word64
  leaf : Word64
  level : Level
  addr : Word64
  pa : Word64
  size : PageSize
  deriving DecidableEq, Repr

/-- The rest of a chain of entries from a level down, over a reader of entries. -/
def chainAt (c : Config) (ia : Word64) (rd : Word64 → Option Word64) (L : Level) (below : Word64 → Option Mapped)
    (base : Word64) : Option Mapped :=
  let a := entryAddr base ia L
  match rd a with
  | none => none
  | some e =>
    match classify c L e with
    | .notPresent => none
    | .reserved => none
    | .table => (below (frameBase (fieldAddr e))).map (fun m => { m with entries := e :: m.entries })
    | .leaf1G => some { entries := [e], leaf := e, level := L, addr := a, pa := finalAddr1G (fieldPage1G e) ia, size := .size1G }
    | .leaf2M => some { entries := [e], leaf := e, level := L, addr := a, pa := finalAddr2M (fieldPage2M e) ia, size := .size2M }
    | .leaf4K => some { entries := [e], leaf := e, level := L, addr := a, pa := finalAddr4K (fieldAddr e) ia, size := .size4K }

/-- The translation of an input address by the structure of a context record, without the width check (R63 to R70, R103). -/
def mappedBy (c : Config) (ctx : Ctx) (rd : Word64 → Option Word64) (ia : Word64) : Option Mapped :=
  let from1 := chainAt c ia rd .l1 (fun _ => none)
  let from2 := chainAt c ia rd .l2 from1
  let from3 := chainAt c ia rd .l3 from2
  let from4 := chainAt c ia rd .l4 from3
  if levelsOfAgaw ctx.agaw = 4 then from4 (frameBase ctx.slptptr) else from3 (frameBase ctx.slptptr)

/-- A leaf row as the meaning of an entry sees it: the level it is read at, its R and W, and the leaf it makes of an input
address (R68 to R70). -/
structure LeafForm where
  level : Level
  r : Bool
  w : Bool
  leaf : Leaf
  deriving DecidableEq, Repr

/-- The three leaf rows; no other row is a leaf (R97). -/
def leafForm (ia : Word64) : Instr → Option LeafForm
  | .slPdpePage1g r w snp tm page _ =>
    some { level := .l3, r := r, w := w, leaf := { pa := finalAddr1G page ia, size := .size1G, snp := snp, tm := tm } }
  | .slPdePage2m r w snp tm page _ =>
    some { level := .l2, r := r, w := w, leaf := { pa := finalAddr2M page ia, size := .size2M, snp := snp, tm := tm } }
  | .slPte r w snp tm page _ =>
    some { level := .l1, r := r, w := w, leaf := { pa := finalAddr4K page ia, size := .size4K, snp := snp, tm := tm } }
  | .read .. => none
  | .write .. => none
  | .atomic .. => none
  | .slEntryNotPresent _ => none
  | .slPml4e .. => none
  | .slPdpeTable .. => none
  | .slPdeTable .. => none

/-! ### Outcomes and frames -/

/-- Several steps of the machine, ending at the first fault or refusal. -/
def stepN : Nat → State → Host.Outcome State Fault Refusal
  | 0, s => .next s
  | n + 1, s =>
    match step s with
    | .next s' => stepN n s'
    | .fault f => .fault f
    | .refused r => .refused r

/-- The records that an outcome puts into the fault log (R29, R150): one for a fault, none for a translation. -/
def recordsOf (q : Request) : ReqOutcome → List FaultRecord
  | .translated _ _ _ _ _ => []
  | .fault cause info => [{ req := q, cause := cause, info := info }]

/-- The level below a level (R103); level 1 has none, and `Classify` gives no table there (R85). -/
def nextLevel : Level → Level
  | .l4 => .l3
  | .l3 => .l2
  | .l2 => .l1
  | .l1 => .l1

/-- The phase of the request at a place, if there is one. -/
def State.phaseAt (s : State) (k : Nat) : Option Phase := (s.walks[k]?).map Walk.phase

/-- The request at a place of `walks` has this outcome. -/
abbrev State.hasOutcome (s : State) (k : Nat) (o : ReqOutcome) : Prop := s.phaseAt k = some (.done o)

/-- Everything the spec says a request's processing leaves alone (R48, R150(d)): all of the state but the request's own
walk state, the fault log and the model's counters. -/
structure SameButWalksAndLog (s t : State) : Prop where
  cfg : t.cfg = s.cfg
  mem : t.mem = s.mem
  hist : t.hist = s.hist
  ctxTable : t.ctxTable = s.ctxTable
  accesses : t.accesses = s.accesses
  agenda : t.agenda = s.agenda

end Sys2Proof.Machine
end

