-- ==== Sys2Proof/Certificates/Slice0/Obligations.lean ====
section
/-! DEFINITION. The statements for the provers. Each docstring names the rule of spec/ that the statement formalises, and,
where it rests on a choice of the model, the log entry. -/

open Sys2Proof Sys2Proof.Machine

/-! ### Launch and the invariant -/

/-- The launch state of R171: L1, L2, L3 and L5 hold of it, and the invariant. MODEL'S CHOICE (log 1, 4, 19): the spec gives
no reset values (R35); these are its launch premises with configuration A. -/
def Obligations.ResetMeetsLaunchPremises : Prop :=
  State.reset.noFaultRecorded ∧ State.reset.nothingInFlight ∧ State.reset.cachesClean ∧ State.reset.configured ∧
    State.reset.Inv

/-- Every step keeps the invariant: memory and the translation caches in canonical form, every Hist(a) holding the current
content (R52), every walk where the rules put it (R43, R92, R94, R103), every faulted request in the fault log (R29). -/
def Obligations.EveryStepKeepsTheInvariant : Prop :=
  ∀ s t : State, s.Inv → step s = .next t → t.Inv

/-- R22, R36: the configuration, the two capability registers among it, never changes while the hardware runs. -/
def Obligations.ConfigurationNeverChanges : Prop :=
  ∀ s t : State, step s = .next t → t.cfg = s.cfg

/-- R29: the fault log is appended to, never shortened; one step appends at most one record. -/
def Obligations.FaultLogOnlyGrows : Prop :=
  ∀ s t : State, step s = .next t → ∃ new, t.faultLog = s.faultLog ++ new ∧ new.length ≤ 1

/-- R48: only a software write and a device's translated access change memory; no step of the remapping hardware does, and
of the other steps only `Invalidate` changes a Hist. -/
def Obligations.HardwareWritesNoMemory : Prop :=
  ∀ s t : State, step s = .next t → (∀ a data, s.agenda.head? ≠ some (.write a data)) →
    (∀ k data, s.agenda.head? ≠ some (.conclude k data)) →
    t.mem = s.mem ∧ (s.agenda.head? ≠ some .invalidate → t.hist = s.hist)

/-! ### Decoding and encoding -/

/-- Words written out from the encodings of spec/opcode_table.json, at the default bit positions, decode at their levels to
the instructions they stand for; and one reserved word of each of three kinds is rejected by its clause. -/
def Obligations.WordsOfTheTableDecode : Prop :=
  decodeEntry Config.a .l4 0x0000000000101003 = .ok (.slPml4e true true 0x101 0) ∧
  decodeEntry Config.a .l3 0x0000000000102001 = .ok (.slPdpeTable true false 0x102 0) ∧
  decodeEntry Config.a .l3 0x00000002C0000083 = .ok (.slPdpePage1g true true false false 0xB 0) ∧
  decodeEntry Config.a .l2 0x0000000000103002 = .ok (.slPdeTable false true 0x103 0) ∧
  decodeEntry Config.a .l2 0x0000000044200881 = .ok (.slPdePage2m true false true false 0x221 0) ∧
  decodeEntry Config.a .l1 0x4000000876543803 = .ok (.slPte true true true true 0x876543 0) ∧
  decodeEntry Config.a .l1 0x8FF0000876543083 = .ok (.slPte true true false false 0x876543 0x8FF0000000000080) ∧
  decodeEntry Config.a .l2 0xFFFFFFFFFFFFFFFC = .ok (.slEntryNotPresent 0xFFFFFFFFFFFFFFFC) ∧
  decodeEntry Config.a .l4 0x0000000000101083 = .error (.reserved .pml4ePs) ∧
  decodeEntry Config.a .l3 0x00000002C0001083 = .error (.reserved .pdpePageLow) ∧
  decodeEntry Config.a .l1 0x0000400876543003 = .error (.reserved .addrAboveHaw)

/-- For every well-formed entry of every row, read at a level of its row: decoding its word gives it back, with every operand
at every value and at any admitted bit positions (R9, R60 to R62, R72 to R85). -/
def Obligations.DecodeOfEncodeIsIdentity : Prop :=
  ∀ (c : Config) (i : Instr) (L : Level) (e : Word64), c.wf = true → i.wf c = true → L ∈ i.levels →
    encodeEntry c i = some e → decodeEntry c L e = .ok i

/-- The other direction: what the decoder gives for a word is well formed, belongs to the level, and encodes to that word, so
no two words of a level share an instruction (R60 to R62, R83). -/
def Obligations.EncodeOfDecodeIsIdentity : Prop :=
  ∀ (c : Config) (i : Instr) (L : Level) (e : Word64), c.wf = true → decodeEntry c L e = .ok i →
    encodeEntry c i = some e ∧ i.wf c = true ∧ L ∈ i.levels

/-- R72, R85: an entry is not present exactly when its R and W bits are both 0, whatever its other bits hold; and the decoder
answers as `Classify` does: not present, rejected for a reserved bit, a leaf of the class's page size, or a table row. -/
def Obligations.DecoderFollowsClassify : Prop :=
  ∀ (c : Config) (L : Level) (e ia : Word64),
    (classify c L e = .notPresent ↔ e.getLsbD c.pos.r = false ∧ e.getLsbD c.pos.w = false) ∧
    (classify c L e = .notPresent ↔ decodeEntry c L e = .ok (.slEntryNotPresent e)) ∧
    (classify c L e = .reserved ↔ ∃ r, decodeEntry c L e = .error r) ∧
    (classify c L e = .table ↔ ∃ r w addr ign, decodeEntry c L e = .ok (.slPml4e r w addr ign) ∨
      decodeEntry c L e = .ok (.slPdpeTable r w addr ign) ∨ decodeEntry c L e = .ok (.slPdeTable r w addr ign)) ∧
    (classify c L e = .leaf1G ↔ ∃ i f, decodeEntry c L e = .ok i ∧ leafForm ia i = some f ∧ f.leaf.size = .size1G) ∧
    (classify c L e = .leaf2M ↔ ∃ i f, decodeEntry c L e = .ok i ∧ leafForm ia i = some f ∧ f.leaf.size = .size2M) ∧
    (classify c L e = .leaf4K ↔ ∃ i f, decodeEntry c L e = .ok i ∧ leafForm ia i = some f ∧ f.leaf.size = .size4K)

/-- R42: an entry stored at an address in BYTE_ORDER is read back there, and its bytes lie as R42 says. -/
def Obligations.EntryBytesInMemory : Prop :=
  ∀ (o : ByteOrder) (m : List Host.Cell) (a : Nat) (e : Word64), Memory.wf m →
    content64 o (memWriteBytes m a (bytesOfEntry o e)) a = e ∧
    ∀ i, i < 8 → memRead (memWriteBytes m a (bytesOfEntry o e)) (a + i) =
      (match o with
        | .little => e.extractLsb' (8 * i) 8
        | .big => e.extractLsb' (56 - 8 * i) 8)

/-! ### Reserved bits -/

/-- R73 to R82: an entry is reserved exactly when R or W is 1 and at least one of the clauses finds a bit that is 1. -/
def Obligations.ReservedExactlyByTheClauses : Prop :=
  ∀ (c : Config) (L : Level) (e : Word64),
    classify c L e = .reserved ↔
      (e.getLsbD c.pos.r = true ∨ e.getLsbD c.pos.w = true) ∧
      ((∃ i, c.haw ≤ i ∧ i ≤ 51 ∧ e.getLsbD i = true) ∨
       (L = .l4 ∧ e.getLsbD c.pos.ps = true) ∨
       (L = .l3 ∧ c.cap.sllps1G = false ∧ e.getLsbD c.pos.ps = true) ∨
       (L = .l3 ∧ e.getLsbD c.pos.ps = true ∧ ∃ i, 12 ≤ i ∧ i ≤ 29 ∧ e.getLsbD i = true) ∨
       (L = .l2 ∧ c.cap.sllps2M = false ∧ e.getLsbD c.pos.ps = true) ∨
       (L = .l2 ∧ e.getLsbD c.pos.ps = true ∧ ∃ i, 12 ≤ i ∧ i ≤ 20 ∧ e.getLsbD i = true) ∨
       ((L = .l4 ∨ ((L = .l3 ∨ L = .l2) ∧ e.getLsbD c.pos.ps = false)) ∧
         (e.getLsbD c.pos.snp = true ∨ e.getLsbD c.pos.tm = true)) ∨
       (L = .l1 ∧ c.ecap.sc = false ∧ e.getLsbD c.pos.snp = true) ∨
       (L = .l1 ∧ c.ecap.dt = false ∧ e.getLsbD c.pos.tm = true) ∨
       ((L = .l3 ∨ L = .l2) ∧ e.getLsbD c.pos.ps = true ∧ c.largeLeafRsvd = true ∧
         ((c.ecap.sc = false ∧ e.getLsbD c.pos.snp = true) ∨ (c.ecap.dt = false ∧ e.getLsbD c.pos.tm = true))))

/-- R83: bits that no clause names cause no fault and change no result: two words that agree on ADDR, R, W, SNP, TM and,
above level 1, PS are classified alike, and their instructions do the same in every state. -/
def Obligations.UnnamedBitsAreIgnored : Prop :=
  ∀ (c : Config) (L : Level) (e e' : Word64), c.wf = true →
    (∀ i, ((12 ≤ i ∧ i ≤ 51) ∨ i = c.pos.r ∨ i = c.pos.w ∨ i = c.pos.snp ∨ i = c.pos.tm ∨ (i = c.pos.ps ∧ L ≠ .l1)) →
      e.getLsbD i = e'.getLsbD i) →
    classify c L e = classify c L e' ∧
    ∀ i i', decodeEntry c L e = .ok i → decodeEntry c L e' = .ok i' → ∀ s, exec i s = exec i' s

/-! ### Addresses -/

/-- R63 (and R44): the address of an entry has bits 2:0 zero, the level's nine bits of the input address in bits 11:3, bits
51:12 of the base, and zeros above; for an aligned base it is base + 8 * index. -/
def Obligations.EntryAddressAssembly : Prop :=
  ∀ (base ia : Word64) (L : Level),
    (entryAddr base ia L).extractLsb' 0 3 = 0 ∧
    (entryAddr base ia L).extractLsb' 3 9 =
      (match L with
        | .l4 => ia.extractLsb' 39 9
        | .l3 => ia.extractLsb' 30 9
        | .l2 => ia.extractLsb' 21 9
        | .l1 => ia.extractLsb' 12 9) ∧
    (entryAddr base ia L).extractLsb' 12 40 = base.extractLsb' 12 40 ∧
    (entryAddr base ia L).extractLsb' 52 12 = 0 ∧
    (base.toNat % 4096 = 0 → base.toNat < 2 ^ 52 →
      (entryAddr base ia L).toNat = base.toNat + 8 * (ia.toNat / 2 ^ indexLow L % 512))

/-- R68, R69, R70: the final address takes its low bits from the input address and the bits above them from the leaf. -/
def Obligations.FinalAddressAssembly : Prop :=
  ∀ (e ia : Word64),
    ((finalAddr1G (fieldPage1G e) ia).extractLsb' 0 30 = ia.extractLsb' 0 30 ∧
      (finalAddr1G (fieldPage1G e) ia).extractLsb' 30 22 = e.extractLsb' 30 22 ∧
      (finalAddr1G (fieldPage1G e) ia).extractLsb' 52 12 = 0) ∧
    ((finalAddr2M (fieldPage2M e) ia).extractLsb' 0 21 = ia.extractLsb' 0 21 ∧
      (finalAddr2M (fieldPage2M e) ia).extractLsb' 21 31 = e.extractLsb' 21 31 ∧
      (finalAddr2M (fieldPage2M e) ia).extractLsb' 52 12 = 0) ∧
    ((finalAddr4K (fieldAddr e) ia).extractLsb' 0 12 = ia.extractLsb' 0 12 ∧
      (finalAddr4K (fieldAddr e) ia).extractLsb' 12 40 = e.extractLsb' 12 40 ∧
      (finalAddr4K (fieldAddr e) ia).extractLsb' 52 12 = 0)

/-- R45, R71: a page is mapped as a whole: another input address of the same page is translated by the same entries to the
same place of the same page. -/
def Obligations.PageIsMappedAsAWhole : Prop :=
  ∀ (c : Config) (ctx : Ctx) (rd : Word64 → Option Word64) (ia ia' : Word64) (m : Mapped),
    mappedBy c ctx rd ia = some m → ia.toNat / 2 ^ pageBits m.size = ia'.toNat / 2 ^ pageBits m.size →
    ∃ m', mappedBy c ctx rd ia' = some m' ∧ m'.entries = m.entries ∧ m'.size = m.size ∧ m'.level = m.level ∧
      m'.addr = m.addr ∧
      m'.pa.toNat = m.pa.toNat - m.pa.toNat % 2 ^ pageBits m.size + ia'.toNat % 2 ^ pageBits m.size

/-- R90: AGAW is the next width at or above GAW with (AGAW - 12) a multiple of 9, capped at 64. MODEL'S CHOICE of direction
(log 22), the spec's own decision D10. -/
def Obligations.AgawIsAdjustedUpward : Prop :=
  ∀ gaw, 12 ≤ gaw → gaw ≤ 64 →
    gaw ≤ agawOfGaw gaw ∧ agawOfGaw gaw ≤ 64 ∧ agawOfGaw gaw < gaw + 9 ∧
    ((agawOfGaw gaw - 12) % 9 = 0 ∨ (agawOfGaw gaw = 64 ∧ 57 < gaw))

/-! ### Lookup and check -/

/-- R24, R141, R142, R143: a step in phase Lookup ends the request with the fault of the outcome, or goes on to phase Check
with the context record. Either way the hardware's own read of the root and context entries is noted (R120, R130, R132,
R133): snooped when ECAP_C is 1 (either way when it is 0), its memory type ignored outside the coherency domain and UC
inside it. MODEL'S CHOICE (log 14): those reads are one item, and the non-extended forms are snooped as the extended ones
(R126, the spec's decision D25). Nothing else of the state changes. -/
def Obligations.LookupFaultsEndTheRequest : Prop :=
  ∀ (s : State) (k : Nat) (ws : Walk), s.walks[k]? = some ws → ws.phase = .lookup →
    ∃ t ws' snooped, hwStep exec k s = .next t ∧ SameButWalksAndLog s t ∧ (∀ j, j ≠ k → t.walks[j]? = s.walks[j]?) ∧
      t.walks[k]? = some ws' ∧ (s.cfg.ecap.c = true → snooped = true) ∧
      ws'.reads = ws.reads ++ [{ what := .rootOrCtx, snooped := snooped, memType :=
          if ws.req.inCoherencyDomain = false then .ignored else .uc }] ∧
      (∀ answer cause,
        (answer, cause) ∈ [(CtxOutcome.rootAccessError, Cause.rootAccessError), (.rootNotPresent, .rootNotPresent),
          (.rootInvalid, .rootInvalid), (.rootReserved, .rootReserved), (.ctxAccessError, .ctxAccessError),
          (.ctxNotPresent, .ctxNotPresent), (.ctxInvalid, .ctxInvalid), (.ctxBlocked, .ctxBlocked),
          (.ctxReserved, .ctxReserved)] →
        contextLookup s ws.req = answer →
        t.hasOutcome k (.fault cause .request) ∧
          t.faultLog = s.faultLog ++ [{ req := ws.req, cause := cause, info := .request }]) ∧
      (∀ ctx, contextLookup s ws.req = .ok ctx → t.phaseAt k = some (.check ctx) ∧ t.faultLog = s.faultLog)

/-- R94, R144, R95 (walk_order): with an admitted AGAW, an input address above 2^X - 1, X the minimum of MGAW and AGAW, takes
the fault AddrBeyondWidth, recorded with the input address; any other starts the walk at SLPTPTR, at level 4 when AGAW
is 48 and at level 3 when it is 39, with both rights. -/
def Obligations.AddressWidthCheck : Prop :=
  ∀ (s : State) (k : Nat) (ws : Walk) (ctx : Ctx), s.walks[k]? = some ws → ws.phase = .check ctx →
    s.cfg.faultChoice = .walkOrder →
    ((ctx.agaw = 39 ∧ s.cfg.cap.sagaw39 = true) ∨ (ctx.agaw = 48 ∧ s.cfg.cap.sagaw48 = true)) →
    (ws.req.ia.toNat > 2 ^ min s.cfg.cap.mgaw ctx.agaw - 1 →
      hwStep exec k s = .next { s with
        walks := s.walks.set k { ws with phase := .done (.fault .addrBeyondWidth (.input ws.req.ia)) }
        faultLog := s.faultLog ++ [{ req := ws.req, cause := .addrBeyondWidth, info := .input ws.req.ia }] }) ∧
    (ws.req.ia.toNat ≤ 2 ^ min s.cfg.cap.mgaw ctx.agaw - 1 →
      hwStep exec k s = .next { s with
        walks := s.walks.set k { ws with
          phase := .walk ctx
          level := if ctx.agaw = 48 then .l4 else .l3
          base := (ctx.slptptr ++ (0 : BitVec 12)).setWidth 64
          allR := true
          allW := true } })

/-- R149 (any_applicable), the spec's decision D13 (log 13): the loop is run without the address-width check, so with an
admitted AGAW every input address starts the walk, also one beyond the width. -/
def Obligations.AnyApplicableStartsEveryWalk : Prop :=
  ∀ (s : State) (k : Nat) (ws : Walk) (ctx : Ctx), s.walks[k]? = some ws → ws.phase = .check ctx →
    s.cfg.faultChoice = .anyApplicable →
    ((ctx.agaw = 39 ∧ s.cfg.cap.sagaw39 = true) ∨ (ctx.agaw = 48 ∧ s.cfg.cap.sagaw48 = true)) →
    hwStep exec k s = .next { s with
      walks := s.walks.set k { ws with
        phase := .walk ctx
        level := if ctx.agaw = 48 then .l4 else .l3
        base := (ctx.slptptr ++ (0 : BitVec 12)).setWidth 64
        allR := true
        allW := true } }

/-- R92: an AGAW other than 39 and 48, or one that is not in SAGAW, is refused: neither translated nor faulted. -/
def Obligations.UnsupportedAgawIsRefused : Prop :=
  ∀ (s : State) (k : Nat) (ws : Walk) (ctx : Ctx), s.walks[k]? = some ws → ws.phase = .check ctx →
    ¬((ctx.agaw = 39 ∧ s.cfg.cap.sagaw39 = true) ∨ (ctx.agaw = 48 ∧ s.cfg.cap.sagaw48 = true)) →
    hwStep exec k s = .refused (.unsupportedAgaw ctx.agaw)

/-! ### Entries: what each row does, and its frame -/

/-- R104, R105, R106 (R103, R115): a usable SL-PML4E, SL-PDPE with PS = 0 and SL-PDE with PS = 0 take the walk one level
down, to the table at ADDR, and accumulate the rights. The equation is the whole next state, so nothing else changes. -/
def Obligations.TableEntriesDescend : Prop :=
  ∀ (s : State) (ws : Walk) (ctx : Ctx) (r w : Bool) (addr : Frame) (ign : Word64),
    s.walks[s.cur]? = some ws → ws.phase = .walk ctx →
    (ws.level = .l4 → exec (.slPml4e r w addr ign) s = .next { s with
      walks := s.walks.set s.cur { ws with allR := ws.allR && r, allW := ws.allW && w, level := .l3, base := (addr ++ (0 : BitVec 12)).setWidth 64 } }) ∧
    (ws.level = .l3 → exec (.slPdpeTable r w addr ign) s = .next { s with
      walks := s.walks.set s.cur { ws with allR := ws.allR && r, allW := ws.allW && w, level := .l2, base := (addr ++ (0 : BitVec 12)).setWidth 64 } }) ∧
    (ws.level = .l2 → exec (.slPdeTable r w addr ign) s = .next { s with
      walks := s.walks.set s.cur { ws with allR := ws.allR && r, allW := ws.allW && w, level := .l1, base := (addr ++ (0 : BitVec 12)).setWidth 64 } })

/-- R98 (R105 to R107, walk_order): SL-PDPE with PS = 1, SL-PDE with PS = 1 and SL-PTE, read at their levels, end the walk of
a request whose rights permit it with Translated(pa, page_size, Snoop, MemType, TM); nothing else changes. -/
def Obligations.LeafEntriesTranslatePermittedRequests : Prop :=
  ∀ (s : State) (ws : Walk) (ctx : Ctx) (i : Instr) (f : LeafForm),
    s.walks[s.cur]? = some ws → ws.phase = .walk ctx → s.cfg.faultChoice = .walkOrder →
    leafForm ws.req.ia i = some f → ws.level = f.level →
    permitted ws.req.kind (ws.allR && f.r) (ws.allW && f.w) = true →
    exec i s = .next { s with
      walks := s.walks.set s.cur { ws with
        allR := ws.allR && f.r
        allW := ws.allW && f.w
        phase := .done (.translated f.leaf.pa f.leaf.size (snoop s.cfg ws.req f.leaf.snp)
          (memTypeOf ws.req ctx .finalPage) f.leaf.tm) }
      freeCount := s.freeCount + 1 }

/-- R146 (walk_order): at a leaf, a request whose rights do not permit it takes the denied fault of its kind, recorded with
the level and the address of the leaf; nothing else changes. -/
def Obligations.LeafEntriesDenyOtherRequests : Prop :=
  ∀ (s : State) (ws : Walk) (ctx : Ctx) (i : Instr) (f : LeafForm),
    s.walks[s.cur]? = some ws → ws.phase = .walk ctx → s.cfg.faultChoice = .walkOrder →
    leafForm ws.req.ia i = some f → ws.level = f.level →
    permitted ws.req.kind (ws.allR && f.r) (ws.allW && f.w) = false →
    exec i s = .next { s with
      walks := s.walks.set s.cur { ws with
        allR := ws.allR && f.r
        allW := ws.allW && f.w
        phase := .done (.fault (deniedCause ws.req.kind) (.entry ws.level (entryAddr ws.base ws.req.ia ws.level))) }
      faultLog := s.faultLog ++ [{ req := ws.req, cause := deniedCause ws.req.kind, info := .entry ws.level (entryAddr ws.base ws.req.ia ws.level) }]
      freeCount := s.freeCount + 1 }

/-- R149 (any_applicable): at a leaf the request is translated when the address is within the width and the rights permit
it; otherwise the fault reported is one of those that apply; every other request stays as it is. It holds for every value
of the free choice. -/
def Obligations.LeafEntriesUnderAnyApplicable : Prop :=
  ∀ (s : State) (ws : Walk) (ctx : Ctx) (i : Instr) (f : LeafForm),
    s.walks[s.cur]? = some ws → ws.phase = .walk ctx → s.cfg.faultChoice = .anyApplicable →
    leafForm ws.req.ia i = some f → ws.level = f.level →
    ∃ t o, exec i s = .next t ∧ SameButWalksAndLog s t ∧ (∀ j, j ≠ s.cur → t.walks[j]? = s.walks[j]?) ∧
      t.hasOutcome s.cur o ∧ t.faultLog = s.faultLog ++ recordsOf ws.req o ∧
      (beyondWidth s.cfg ctx ws.req.ia = false → permitted ws.req.kind (ws.allR && f.r) (ws.allW && f.w) = true →
        o = .translated f.leaf.pa f.leaf.size (snoop s.cfg ws.req f.leaf.snp) (memTypeOf ws.req ctx .finalPage) f.leaf.tm) ∧
      (beyondWidth s.cfg ctx ws.req.ia = true ∨ permitted ws.req.kind (ws.allR && f.r) (ws.allW && f.w) = false →
        (o = .fault .addrBeyondWidth (.input ws.req.ia) ∧ beyondWidth s.cfg ctx ws.req.ia = true) ∨
        (o = .fault (deniedCause ws.req.kind) (.entry ws.level (entryAddr ws.base ws.req.ia ws.level)) ∧
          permitted ws.req.kind (ws.allR && f.r) (ws.allW && f.w) = false))

/-- R145, R150 (walk_order): an entry with R = W = 0 ends the request at any level with SlNotPresent, recorded with the level
and the address of the entry; nothing else changes. -/
def Obligations.NotPresentEntryFaults : Prop :=
  ∀ (s : State) (ws : Walk) (ctx : Ctx) (rest : Word64),
    s.walks[s.cur]? = some ws → ws.phase = .walk ctx → s.cfg.faultChoice = .walkOrder →
    exec (.slEntryNotPresent rest) s = .next { s with
      walks := s.walks.set s.cur
        { ws with phase := .done (.fault .slNotPresent (.entry ws.level (entryAddr ws.base ws.req.ia ws.level))) }
      faultLog := s.faultLog ++ [{ req := ws.req, cause := .slNotPresent, info := .entry ws.level (entryAddr ws.base ws.req.ia ws.level) }]
      freeCount := s.freeCount + 1 }

/-- R56, R141, R145 (walk_order): a walk whose entry read fails ends with SlAccessError, one that reads an entry with a
reserved bit with SlReserved, each recorded with the level and the address of the entry; memory and all else stay. -/
def Obligations.FailedReadAndReservedEntryFault : Prop :=
  ∀ (s : State) (k : Nat) (ws : Walk) (ctx : Ctx) (cause : Cause),
    s.walks[k]? = some ws → ws.phase = .walk ctx → s.cfg.faultChoice = .walkOrder →
    ((cause = .slAccessError ∧ backed s.cfg (entryAddr ws.base ws.req.ia ws.level).toNat = false) ∨
      (cause = .slReserved ∧ ∃ e, memRead64 s (entryAddr ws.base ws.req.ia ws.level) = some e ∧
        classify s.cfg ws.level e = .reserved)) →
    ∃ t, hwStep exec k s = .next t ∧ SameButWalksAndLog s t ∧ (∀ j, j ≠ k → t.walks[j]? = s.walks[j]?) ∧
      t.hasOutcome k (.fault cause (.entry ws.level (entryAddr ws.base ws.req.ia ws.level))) ∧
      t.faultLog = s.faultLog ++ [{ req := ws.req, cause := cause, info := .entry ws.level (entryAddr ws.base ws.req.ia ws.level) }]

/-- R149 (any_applicable): a walk whose entry read fails, or meets an entry that is not present or sets a reserved bit, ends
with a fault that applies: the walk's own cause with the level and the address of the entry, AddrBeyondWidth where the
input address is beyond the width, or the denial of its kind where the usable entries met lack a right it needs (the place
recorded with that denial is a free value, log 13). It holds for every value of the free choice. -/
def Obligations.UnusableEntriesUnderAnyApplicable : Prop :=
  ∀ (s : State) (k : Nat) (ws : Walk) (ctx : Ctx) (cause : Cause),
    s.walks[k]? = some ws → ws.phase = .walk ctx → s.cfg.faultChoice = .anyApplicable →
    ((cause = .slAccessError ∧ backed s.cfg (entryAddr ws.base ws.req.ia ws.level).toNat = false) ∨
      (∃ e, memRead64 s (entryAddr ws.base ws.req.ia ws.level) = some e ∧
        ((cause = .slNotPresent ∧ classify s.cfg ws.level e = .notPresent) ∨
          (cause = .slReserved ∧ classify s.cfg ws.level e = .reserved)))) →
    ∃ t reported info, hwStep exec k s = .next t ∧ SameButWalksAndLog s t ∧
      (∀ j, j ≠ k → t.walks[j]? = s.walks[j]?) ∧ t.hasOutcome k (.fault reported info) ∧
      t.faultLog = s.faultLog ++ [{ req := ws.req, cause := reported, info := info }] ∧
      ((reported = cause ∧ info = .entry ws.level (entryAddr ws.base ws.req.ia ws.level)) ∨
        (reported = .addrBeyondWidth ∧ info = .input ws.req.ia ∧ beyondWidth s.cfg ctx ws.req.ia = true) ∨
        (reported = deniedCause ws.req.kind ∧ permitted ws.req.kind ws.allR ws.allW = false))

/-- R60: what an entry is depends on the level at which a walk reads it: where the request being advanced does not stand in
its walk at a level of the row, the row has no meaning and is refused by name. -/
def Obligations.EntryNeedsAWalkAtItsLevel : Prop :=
  ∀ (s : State) (i : Instr), i.isEntry = true →
    (∀ ws ctx, s.walks[s.cur]? = some ws → ws.phase = .walk ctx → ws.level ∉ i.levels) →
    exec i s = .refused .entryOutOfPlace

/-! ### The walk -/

/-- R103 (R31): one step of a walk always completes, and either ends the request or goes exactly one level down. -/
def Obligations.WalkStepMakesProgress : Prop :=
  ∀ (s : State) (k : Nat) (ws : Walk) (ctx : Ctx), s.walks[k]? = some ws → ws.phase = .walk ctx →
    ∃ t ws', hwStep exec k s = .next t ∧ t.walks[k]? = some ws' ∧
      ((∃ o, ws'.phase = .done o) ∨ (ws'.phase = .walk ctx ∧ ws'.level.num + 1 = ws.level.num))

/-- R160, R48: one step of the hardware on a request leaves every other request, memory, the caches, the context bindings and
the accesses as they are. -/
def Obligations.AdvanceTouchesOneRequest : Prop :=
  ∀ (s t : State) (k : Nat), hwStep exec k s = .next t →
    SameButWalksAndLog s t ∧ t.walks.length = s.walks.length ∧ ∀ j, j ≠ k → t.walks[j]? = s.walks[j]?

/-- R121, R130, R132, R134: the read of a second-level entry is noted as snooped when ECAP_C is 1 (either way when it is 0),
with the memory type of the read: ignored outside the coherency domain, UC when CD is 1 in an extended-context-entry, WB
otherwise. -/
def Obligations.EntryReadAttributes : Prop :=
  ∀ (s : State) (k : Nat) (ws : Walk) (ctx : Ctx), s.walks[k]? = some ws → ws.phase = .walk ctx →
    ∃ t ws' snooped, hwStep exec k s = .next t ∧ t.walks[k]? = some ws' ∧ (s.cfg.ecap.c = true → snooped = true) ∧
      ws'.reads = ws.reads ++ [{ what := .slEntry ws.level (entryAddr ws.base ws.req.ia ws.level), snooped := snooped, memType :=
          if ws.req.inCoherencyDomain = false then .ignored
          else if ctx.extended = true ∧ ctx.cd = true then .uc else .wb }]

/-! ### Requests -/

/-- R112 (R98, R110, R115): a READ of an input address with a valid translation is translated when R is 1 in every entry
that controls the translation, and takes ReadDenied, recorded with the level and address of the leaf, when some entry has
R = 0. Clean caches, walk_order, and one bound answer of ContextLookup make the translation unique. -/
def Obligations.ReadNeedsReadInEveryEntry : Prop :=
  ∀ (s : State) (ia : Word64) (ns coh : Bool) (source : Nat) (ctx : Ctx) (m : Mapped),
    s.cachesClean → s.cfg.faultChoice = .walkOrder → assocGet s.ctxTable source = some [.ok ctx] →
    agawAdmitted s.cfg ctx.agaw = true → ia.toNat ≤ 2 ^ min s.cfg.cap.mgaw ctx.agaw - 1 →
    mappedBy s.cfg ctx (cleanReader s) ia = some m →
    ∃ t o, exec (.read ia ns coh source) s = .next t ∧ SameButWalksAndLog s t ∧ t.hasOutcome s.walks.length o ∧
      t.faultLog = s.faultLog ++ recordsOf ⟨.read, ia, ns, coh, source⟩ o ∧
      ((∀ e ∈ m.entries, fieldR s.cfg e = true) →
        o = .translated m.pa m.size (snoop s.cfg ⟨.read, ia, ns, coh, source⟩ (fieldSnp s.cfg m.leaf))
          (memTypeOf ⟨.read, ia, ns, coh, source⟩ ctx .finalPage) (fieldTm s.cfg m.leaf)) ∧
      ((∃ e ∈ m.entries, fieldR s.cfg e = false) → o = .fault .readDenied (.entry m.level m.addr))

/-- R113 (R98, R110, R115): a WRITE to an input address with a valid translation is translated when W is 1 in every entry
that controls the translation, and takes WriteDenied when some entry has W = 0. -/
def Obligations.WriteNeedsWriteInEveryEntry : Prop :=
  ∀ (s : State) (ia : Word64) (ns coh : Bool) (source : Nat) (ctx : Ctx) (m : Mapped),
    s.cachesClean → s.cfg.faultChoice = .walkOrder → assocGet s.ctxTable source = some [.ok ctx] →
    agawAdmitted s.cfg ctx.agaw = true → ia.toNat ≤ 2 ^ min s.cfg.cap.mgaw ctx.agaw - 1 →
    mappedBy s.cfg ctx (cleanReader s) ia = some m →
    ∃ t o, exec (.write ia ns coh source) s = .next t ∧ SameButWalksAndLog s t ∧ t.hasOutcome s.walks.length o ∧
      t.faultLog = s.faultLog ++ recordsOf ⟨.write, ia, ns, coh, source⟩ o ∧
      ((∀ e ∈ m.entries, fieldW s.cfg e = true) →
        o = .translated m.pa m.size (snoop s.cfg ⟨.write, ia, ns, coh, source⟩ (fieldSnp s.cfg m.leaf))
          (memTypeOf ⟨.write, ia, ns, coh, source⟩ ctx .finalPage) (fieldTm s.cfg m.leaf)) ∧
      ((∃ e ∈ m.entries, fieldW s.cfg e = false) → o = .fault .writeDenied (.entry m.level m.addr))

/-- R114 (R98, R110, R115): an ATOMIC is translated when R and W are both 1 in every entry that controls the translation,
and takes AtomicDenied when some entry lacks one of them. -/
def Obligations.AtomicNeedsBothInEveryEntry : Prop :=
  ∀ (s : State) (ia : Word64) (ns coh : Bool) (source : Nat) (ctx : Ctx) (m : Mapped),
    s.cachesClean → s.cfg.faultChoice = .walkOrder → assocGet s.ctxTable source = some [.ok ctx] →
    agawAdmitted s.cfg ctx.agaw = true → ia.toNat ≤ 2 ^ min s.cfg.cap.mgaw ctx.agaw - 1 →
    mappedBy s.cfg ctx (cleanReader s) ia = some m →
    ∃ t o, exec (.atomic ia ns coh source) s = .next t ∧ SameButWalksAndLog s t ∧ t.hasOutcome s.walks.length o ∧
      t.faultLog = s.faultLog ++ recordsOf ⟨.atomic, ia, ns, coh, source⟩ o ∧
      ((∀ e ∈ m.entries, fieldR s.cfg e = true ∧ fieldW s.cfg e = true) →
        o = .translated m.pa m.size (snoop s.cfg ⟨.atomic, ia, ns, coh, source⟩ (fieldSnp s.cfg m.leaf))
          (memTypeOf ⟨.atomic, ia, ns, coh, source⟩ ctx .finalPage) (fieldTm s.cfg m.leaf)) ∧
      ((∃ e ∈ m.entries, fieldR s.cfg e = false ∨ fieldW s.cfg e = false) →
        o = .fault .atomicDenied (.entry m.level m.addr))

/-- R99: with clean caches, walk_order and one bound answer of ContextLookup, the meaning of a request of any kind has the
outcome that the pseudocode of R99 computes, or is refused where it refuses. -/
def Obligations.ProcessingMeetsThePseudocode : Prop :=
  ∀ (s : State) (q : Request) (answer : CtxOutcome), s.cachesClean → s.cfg.faultChoice = .walkOrder →
    assocGet s.ctxTable q.source = some [answer] →
    (∀ o, processSpec s.cfg answer (cleanReader s) q = .outcome o →
      ∃ t, exec q.instr s = .next t ∧ t.hasOutcome s.walks.length o ∧ t.faultLog = s.faultLog ++ recordsOf q o) ∧
    (∀ agaw, processSpec s.cfg answer (cleanReader s) q = .refused agaw →
      exec q.instr s = .refused (.unsupportedAgaw agaw))

/-- R103, R176: in every state, whatever the caches hold and whatever is drawn, READ, WRITE and ATOMIC complete with an
outcome, unless ContextLookup answers an AGAW that the model does not admit (R92). -/
def Obligations.RequestsAlwaysEnd : Prop :=
  ∀ (s : State) (q : Request), (∀ ctx, contextLookup s q = .ok ctx → agawAdmitted s.cfg ctx.agaw = true) →
    ∃ t o, exec q.instr s = .next t ∧ t.hasOutcome s.walks.length o

/-- R48, R150, R154, R160: THE FRAME of READ, WRITE and ATOMIC. A request adds its own walk state, which ends with an
outcome; a fault appends its one record; memory, the caches, the context bindings, the accesses, the agenda, the
configuration and every other request are unchanged. -/
def Obligations.RequestFrame : Prop :=
  ∀ (s t : State) (q : Request), exec q.instr s = .next t →
    SameButWalksAndLog s t ∧ t.walks.length = s.walks.length + 1 ∧
    (∀ j, j < s.walks.length → t.walks[j]? = s.walks[j]?) ∧
    (∀ a, memRead t.mem a = memRead s.mem a) ∧
    ∃ o, t.hasOutcome s.walks.length o ∧ t.faultLog = s.faultLog ++ recordsOf q o

/-- R147 (walk_order): each cause is raised for its kinds only, and recorded with what the table says: the request alone, the
input address, or the level and address of an entry. That entry is the one at which the finished walk stands, and the last
one the walk read: one whose read fails for SlAccessError, one that classifies as NotPresent or Reserved for those causes,
and a leaf for a denial. The value read is some draw of the entry's Hist, whichever it is. -/
def Obligations.FaultsFollowTheTableOfCauses : Prop :=
  ∀ (s t : State) (q : Request) (cause : Cause) (info : FaultInfo), s.cfg.faultChoice = .walkOrder →
    exec q.instr s = .next t → t.hasOutcome s.walks.length (.fault cause info) →
    (cause = .readDenied → q.kind = .read) ∧ (cause = .writeDenied → q.kind = .write) ∧
    (cause = .atomicDenied → q.kind = .atomic) ∧
    (cause ∈ [Cause.rootAccessError, .rootNotPresent, .rootInvalid, .rootReserved, .ctxAccessError, .ctxNotPresent,
      .ctxInvalid, .ctxBlocked, .ctxReserved] → info = .request) ∧
    (cause = .addrBeyondWidth → info = .input q.ia) ∧
    (cause ∈ [Cause.slAccessError, .slNotPresent, .slReserved, .readDenied, .writeDenied, .atomicDenied] →
      ∃ ws' a read n, t.walks[s.walks.length]? = some ws' ∧ a = entryAddr ws'.base q.ia ws'.level ∧
        info = .entry ws'.level a ∧ ws'.reads.getLast? = some read ∧ read.what = .slEntry ws'.level a ∧
        (cause, (memRead64 { s with freeCount := n } a).map (classify s.cfg ws'.level)) ∈
          [(Cause.slAccessError, none), (.slNotPresent, some EntryClass.notPresent), (.slReserved, some .reserved),
            (.readDenied, some .leaf1G), (.readDenied, some .leaf2M), (.readDenied, some .leaf4K),
            (.writeDenied, some .leaf1G), (.writeDenied, some .leaf2M), (.writeDenied, some .leaf4K),
            (.atomicDenied, some .leaf1G), (.atomicDenied, some .leaf2M), (.atomicDenied, some .leaf4K)])

/-- R68 to R70, R101, R41: from any state and whatever is drawn, a translated request keeps the offset of its input address
in the page, its final address is below 2^52, and below 2^HAW when the page is no larger than 2^HAW (log 27). -/
def Obligations.TranslationKeepsTheOffset : Prop :=
  ∀ (s t : State) (q : Request) (pa : Word64) (size : PageSize) (snooped : Bool) (mt : MemType) (tm : Bool),
    exec q.instr s = .next t → t.hasOutcome s.walks.length (.translated pa size snooped mt tm) →
    pa.toNat % 2 ^ pageBits size = q.ia.toNat % 2 ^ pageBits size ∧ pa.toNat < 2 ^ 52 ∧
    (pageBits size ≤ s.cfg.haw → pa.toNat < 2 ^ s.cfg.haw)

/-- R149: whether a request faults never depends on FAULT_CHOICE, and neither does its translation: from every state,
whatever the caches hold, whatever ContextLookup may answer and whatever is drawn, the same request is translated alike
under both, faults under both, or is refused under both (R92). -/
def Obligations.FaultChoiceNeverDecidesWhetherARequestFaults : Prop :=
  ∀ (s : State) (q : Request),
    (∀ t, exec q.instr { s with cfg := { s.cfg with faultChoice := .walkOrder } } = .next t →
      ∃ t', exec q.instr { s with cfg := { s.cfg with faultChoice := .anyApplicable } } = .next t' ∧
        ((∃ cause info, t.hasOutcome s.walks.length (.fault cause info)) ↔
          (∃ cause info, t'.hasOutcome s.walks.length (.fault cause info))) ∧
        ∀ pa size snooped mt tm, t.hasOutcome s.walks.length (.translated pa size snooped mt tm) ↔
          t'.hasOutcome s.walks.length (.translated pa size snooped mt tm)) ∧
    ∀ r, exec q.instr { s with cfg := { s.cfg with faultChoice := .walkOrder } } = .refused r ↔
      exec q.instr { s with cfg := { s.cfg with faultChoice := .anyApplicable } } = .refused r

/-- R100: the uninterrupted processing of a request is one of the admitted interleavings: issuing it and taking six steps of
the hardware on it, turn by turn, answers the same. MODEL'S CHOICE (log 8): the meaning of a request row is that run. -/
def Obligations.UninterruptedProcessingIsAnInterleaving : Prop :=
  ∀ (s : State) (q : Request),
    stepN 7 { s with agenda := .issue q :: List.replicate 6 (.advance s.walks.length) } =
      exec q.instr { s with agenda := [] }

/-! ### Steps -/

/-- A STEP RUNS THE DECODED ENTRY (R96): when the hardware's turn is on a walk (listed first in the agenda, or by default the
oldest request that is not over) and the value read at the walk's entry address decodes at its level to `i`, the step is
`exec i` on the state in which the turn is taken, the read is noted, and this request is the current one. MODEL'S CHOICE
(log 7): that with an empty agenda the oldest request that is not over moves; R36 and R100 leave the schedule free. -/
def Obligations.StepRunsTheDecodedEntry : Prop :=
  ∀ (s : State) (k : Nat) (ws : Walk) (ctx : Ctx) (e : Word64) (i : Instr),
    ((∃ rest, s.agenda = .advance k :: rest) ∨ (s.agenda = [] ∧ s.walks.findIdx? Walk.unfinished = some k)) →
    s.walks[k]? = some ws → ws.phase = .walk ctx →
    memRead64 s (entryAddr ws.base ws.req.ia ws.level) = some e → decodeEntry s.cfg ws.level e = .ok i →
    step s = exec i { s with
      agenda := s.agenda.tail
      walks := s.walks.set k { ws with reads := ws.reads ++
        [{ what := .slEntry ws.level (entryAddr ws.base ws.req.ia ws.level), snooped := ownReadSnooped s.cfg s.freeCount, memType := memTypeOf ws.req ctx .slEntry }] }
      cur := k
      freeCount := s.freeCount + 1 }

/-- A STEP RUNS THE REQUEST (R20, R99): when a device's turn to have a request processed comes first in the agenda, the step
is `exec` of that request's row on the state with the turn taken. MODEL'S CHOICE (log 7): that the agenda, plain data, says
which turn comes first. MODEL'S CHOICE (log 8): that one step runs the whole request, uninterrupted; R100 makes each
`MemRead64` of R99 a step of its own, and the turns `issue` and `advance` give those interleavings. -/
def Obligations.StepRunsTheRequest : Prop :=
  ∀ (s : State) (q : Request) (rest : List Turn), s.agenda = .process q :: rest →
    step s = exec (match q.kind with
      | .read => .read q.ia q.noSnoop q.inCoherencyDomain q.source
      | .write => .write q.ia q.noSnoop q.inCoherencyDomain q.source
      | .atomic => .atomic q.ia q.noSnoop q.inCoherencyDomain q.source) { s with agenda := rest }

/-- A STEP TAKES THE FIRST TURN (R20, R100): the step is the move of the agent whose turn comes first, on the state with the
turn taken. MODEL'S CHOICE (log 7): which agent moves next is the agenda's, plain data. -/
def Obligations.StepTakesTheFirstTurn : Prop :=
  ∀ (s : State) (turn : Turn) (rest : List Turn), s.agenda = turn :: rest →
    step s = runTurn turn { s with agenda := rest }

/-- R177: when no turn is listed and no request is unfinished the run is over, and a step changes nothing. MODEL'S CHOICE
(log 7): the machine idles. -/
def Obligations.RunIsOverWhenNothingMoves : Prop :=
  ∀ s : State, s.agenda = [] → (∀ ws ∈ s.walks, ∃ o, ws.phase = .done o) → step s = .next s

/-- R20(a), R28, R33: a device that issues a request adds its walk state, in phase Lookup, and changes nothing else. -/
def Obligations.IssueAddsAWalkState : Prop :=
  ∀ (s : State) (q : Request) (rest : List Turn), s.agenda = .issue q :: rest →
    ∃ ws, step s = .next { s with agenda := rest, walks := s.walks ++ [ws] } ∧ ws.req = q ∧ ws.phase = .lookup ∧
      ws.reads = []

/-! ### Accesses of devices -/

/-- R57 (R21, D11): the translated WRITE of a device puts its bytes at the final address, inside the mapped page, and every
byte outside them, the configuration, the context bindings and the fault log stay; the access is noted and the request
leaves the requests in flight. MODEL'S CHOICE (log 11, 25): bytes past the end of the page are no part of the request. -/
def Obligations.TranslatedWriteStoresInItsPage : Prop :=
  ∀ (s : State) (k : Nat) (ws : Walk) (pa : Word64) (size : PageSize) (snooped : Bool) (mt : MemType) (tm : Bool)
    (data bytes : List Byte),
    s.walks[k]? = some ws → ws.phase = .done (.translated pa size snooped mt tm) → ws.req.kind = .write →
    Memory.wf s.mem → bytes = data.take (2 ^ pageBits size - pa.toNat % 2 ^ pageBits size) →
    (∀ i, i < bytes.length → backed s.cfg (pa.toNat + i) = true) →
    ∃ t, runTurn (.conclude k data) s = .next t ∧
      (∀ i (h : i < bytes.length), memRead t.mem (pa.toNat + i) = bytes[i]) ∧
      (∀ i, i < bytes.length → (pa.toNat + i) / 2 ^ pageBits size = pa.toNat / 2 ^ pageBits size) ∧
      (∀ a, a < pa.toNat ∨ pa.toNat + bytes.length ≤ a → memRead t.mem a = memRead s.mem a) ∧
      t.accesses = s.accesses ++ [{ req := ws.req, pa := pa, size := size, snooped := snooped, memType := mt, data := bytes }] ∧
      t.walks = s.walks.eraseIdx k ∧ t.cfg = s.cfg ∧ t.ctxTable = s.ctxTable ∧ t.faultLog = s.faultLog ∧
      t.agenda = s.agenda

/-- R57: the translated READ of a device gets the bytes that memory holds at the final address and changes no memory and no
Hist; the access is noted and the request leaves the requests in flight. -/
def Obligations.TranslatedReadGetsMemory : Prop :=
  ∀ (s : State) (k : Nat) (ws : Walk) (pa : Word64) (size : PageSize) (snooped : Bool) (mt : MemType) (tm : Bool)
    (data : List Byte) (n : Nat),
    s.walks[k]? = some ws → ws.phase = .done (.translated pa size snooped mt tm) → ws.req.kind = .read →
    n = min data.length (2 ^ pageBits size - pa.toNat % 2 ^ pageBits size) →
    (∀ i, i < n → backed s.cfg (pa.toNat + i) = true) →
    runTurn (.conclude k data) s = .next { s with
      walks := s.walks.eraseIdx k
      accesses := s.accesses ++ [{ req := ws.req, pa := pa, size := size, snooped := snooped, memType := mt, data := (List.range n).map (fun i => memRead s.mem (pa.toNat + i)) }] }

/-- R114, R57, N16: the translated ATOMIC of a device leaves, at each byte of its operand's length, the free value that the
operation makes of the old bytes and the operand, for every such value (log 11); every byte outside stays, and what it
found is noted. -/
def Obligations.TranslatedAtomicChangesOnlyItsBytes : Prop :=
  ∀ (s : State) (k : Nat) (ws : Walk) (pa : Word64) (size : PageSize) (snooped : Bool) (mt : MemType) (tm : Bool)
    (data bytes : List Byte),
    s.walks[k]? = some ws → ws.phase = .done (.translated pa size snooped mt tm) → ws.req.kind = .atomic →
    Memory.wf s.mem → bytes = data.take (2 ^ pageBits size - pa.toNat % 2 ^ pageBits size) →
    (∀ i, i < bytes.length → backed s.cfg (pa.toNat + i) = true) →
    ∃ t found, runTurn (.conclude k data) s = .next t ∧
      found = (List.range bytes.length).map (fun i => memRead s.mem (pa.toNat + i)) ∧
      (∀ i, i < bytes.length → memRead t.mem (pa.toNat + i) = Config.atomicByte s.freeCount found bytes i) ∧
      (∀ a, a < pa.toNat ∨ pa.toNat + bytes.length ≤ a → memRead t.mem a = memRead s.mem a) ∧
      t.accesses = s.accesses ++ [{ req := ws.req, pa := pa, size := size, snooped := snooped, memType := mt, data := found }] ∧
      t.walks = s.walks.eraseIdx k ∧ t.cfg = s.cfg ∧ t.ctxTable = s.ctxTable ∧ t.faultLog = s.faultLog ∧
      t.agenda = s.agenda

/-- R150(b): a faulted request performs no access: its last turn changes no memory and notes no access. -/
def Obligations.FaultedRequestAccessesNothing : Prop :=
  ∀ (s : State) (k : Nat) (ws : Walk) (cause : Cause) (info : FaultInfo) (data : List Byte),
    s.walks[k]? = some ws → ws.phase = .done (.fault cause info) →
    runTurn (.conclude k data) s = .next { s with walks := s.walks.eraseIdx k }

/-! ### Software and the translation caches -/

/-- R21, R178: a software write to Backed addresses puts its bytes there, and every byte outside them and every other piece
of state but the caches stay. -/
def Obligations.SoftwareWriteReadsBack : Prop :=
  ∀ (s : State) (a : Nat) (data : List Byte), Memory.wf s.mem →
    (∀ i, i < data.length → backed s.cfg (a + i) = true) →
    ∃ t, runTurn (.write a data) s = .next t ∧ (∀ i (h : i < data.length), memRead t.mem (a + i) = data[i]) ∧
      (∀ x, x < a ∨ a + data.length ≤ x → memRead t.mem x = memRead s.mem x) ∧
      t = { s with mem := t.mem, hist := t.hist }

/-- R56 (log 12): a software write, or a device's translated access, that touches an address that is not Backed stops by
name at the first such address. MODEL'S CHOICE: the spec says nothing of that access (R57). -/
def Obligations.AccessIntoAHoleStops : Prop :=
  (∀ (s : State) (a i : Nat) (data : List Byte), i < data.length → backed s.cfg (a + i) = false →
    (∀ j, j < i → backed s.cfg (a + j) = true) → runTurn (.write a data) s = .fault (.physicalHole (a + i))) ∧
  (∀ (s : State) (k i : Nat) (ws : Walk) (pa : Word64) (size : PageSize) (snooped : Bool) (mt : MemType) (tm : Bool)
    (data : List Byte), s.walks[k]? = some ws → ws.phase = .done (.translated pa size snooped mt tm) →
    i < min data.length (2 ^ pageBits size - pa.toNat % 2 ^ pageBits size) → backed s.cfg (pa.toNat + i) = false →
    (∀ j, j < i → backed s.cfg (pa.toNat + j) = true) →
    runTurn (.conclude k data) s = .fault (.physicalHole (pa.toNat + i)))

/-- R24, R36: when software has reprogrammed the entries of a source, `ContextLookup` answers one of the answers bound to it,
whichever is drawn; the answers of every other source, memory and all else stay. -/
def Obligations.ProgrammingBindsTheAnswers : Prop :=
  ∀ (s : State) (source : Nat) (answers : List CtxOutcome), answers ≠ [] →
    ∃ t, runTurn (.program source answers) s = .next t ∧ t = { s with ctxTable := t.ctxTable } ∧
      (∀ q : Request, q.source = source → contextLookup t q ∈ answers) ∧
      (∀ q : Request, q.source ≠ source → contextLookup t q = contextLookup s q)

/-- R52: a write of software or of a device adds the new content of every location it changes to its Hist, and no turn but
`Invalidate` takes a value out of one: at every aligned location the values that may be read afterwards are those that
might be read before and the current content. -/
def Obligations.WritesExtendHist : Prop :=
  ∀ (s t : State) (turn : Turn), s.Inv → turn ≠ .invalidate → runTurn turn s = .next t →
    ∀ x, x % 8 = 0 → ∀ v, v ∈ histOf t x ↔ v ∈ histOf s x ∨ v = content64 t.cfg.byteOrder t.mem x

/-- R52, R56: an entry read fails exactly where nothing is Backed, and otherwise returns a member of Hist, of which the
current content is one. -/
def Obligations.EntryReadsDrawFromHist : Prop :=
  ∀ (s : State) (a : Word64), s.Inv →
    (memRead64 s a = none ↔ backed s.cfg a.toNat = false) ∧
    (∀ v, memRead64 s a = some v → v ∈ histOf s a.toNat) ∧
    content64 s.cfg.byteOrder s.mem a.toNat ∈ histOf s a.toNat

/-- R54: `Invalidate` resets every Hist to the current content, so that every later read returns what memory holds; it
changes nothing else, and a walk in flight keeps what it has read. -/
def Obligations.InvalidateMakesReadsCurrent : Prop :=
  ∀ s : State, ∃ t, runTurn .invalidate s = .next t ∧ t = { s with hist := t.hist } ∧
    (∀ a, histOf t a = [content64 s.cfg.byteOrder s.mem a]) ∧
    ∀ a, backed s.cfg a.toNat = true → memRead64 t a = some (content64 s.cfg.byteOrder s.mem a.toNat)

/-- R116, R173: the one hazard: from clean caches, after software has changed an entry, a read of it returns the old or the
new value, whichever is drawn, until `Invalidate`. -/
def Obligations.StaleEntryReadsOldOrNew : Prop :=
  ∀ (s t : State) (a : Word64) (e v : Word64), s.Inv → s.cachesClean → a.toNat % 8 = 0 →
    runTurn (.write a.toNat (bytesOfEntry s.cfg.byteOrder e)) s = .next t → memRead64 t a = some v →
    v = content64 s.cfg.byteOrder s.mem a.toNat ∨ v = e

/-! ### Attributes and rights -/

/-- R122, R123: with SC = 0 the no-snoop attribute decides; with SC = 1 and SNP = 1 in the leaf the access is snooped
whatever that attribute is. -/
def Obligations.SnoopFunction : Prop :=
  ∀ (c : Config) (q : Request) (snp : Bool),
    (c.ecap.sc = false → snoop c q snp = !q.noSnoop) ∧ (c.ecap.sc = true → snp = true → snoop c q snp = true)

/-- R124: with SC = 1 and SNP = 0 the no-snoop attribute decides. MODEL'S CHOICE (log 15), the spec's decision D16. -/
def Obligations.SnoopWithSnpClear : Prop :=
  ∀ (c : Config) (q : Request), c.ecap.sc = true → snoop c q false = !q.noSnoop

/-- R130, R132, R133, R134: the memory type of every class of access. -/
def Obligations.MemoryTypes : Prop :=
  ∀ (q : Request) (ctx : Ctx),
    (q.inCoherencyDomain = false → ∀ what, memTypeOf q ctx what = .ignored) ∧
    (q.inCoherencyDomain = true → ctx.extended = true → ctx.cd = true → ∀ what, memTypeOf q ctx what = .uc) ∧
    (q.inCoherencyDomain = true → (ctx.extended = false ∨ ctx.cd = false) →
      memTypeOf q ctx .rootOrCtxEntry = .uc ∧ memTypeOf q ctx .slEntry = .wb ∧ memTypeOf q ctx .finalPage = .wb)
end

