-- ==== Sys2Proof/Laws/State.lean ====
section
/-! SUPPORT. One lemma per field per named update of the state, each true by definition, so that no proof unfolds a record
update. -/

namespace Sys2Proof.Machine

/-! ### setWalk -/

@[simp] theorem setWalk_cfg (k : Nat) (ws : Walk) (s : State) :
    (setWalk k ws s).cfg = s.cfg := rfl

@[simp] theorem setWalk_mem (k : Nat) (ws : Walk) (s : State) :
    (setWalk k ws s).mem = s.mem := rfl

@[simp] theorem setWalk_hist (k : Nat) (ws : Walk) (s : State) :
    (setWalk k ws s).hist = s.hist := rfl

@[simp] theorem setWalk_ctxTable (k : Nat) (ws : Walk) (s : State) :
    (setWalk k ws s).ctxTable = s.ctxTable := rfl

@[simp] theorem setWalk_walks (k : Nat) (ws : Walk) (s : State) :
    (setWalk k ws s).walks = s.walks.set k ws := rfl

@[simp] theorem setWalk_faultLog (k : Nat) (ws : Walk) (s : State) :
    (setWalk k ws s).faultLog = s.faultLog := rfl

@[simp] theorem setWalk_accesses (k : Nat) (ws : Walk) (s : State) :
    (setWalk k ws s).accesses = s.accesses := rfl

@[simp] theorem setWalk_agenda (k : Nat) (ws : Walk) (s : State) :
    (setWalk k ws s).agenda = s.agenda := rfl

@[simp] theorem setWalk_cur (k : Nat) (ws : Walk) (s : State) :
    (setWalk k ws s).cur = s.cur := rfl

@[simp] theorem setWalk_freeCount (k : Nat) (ws : Walk) (s : State) :
    (setWalk k ws s).freeCount = s.freeCount := rfl

/-! ### countDraw -/

@[simp] theorem countDraw_cfg (s : State) :
    (countDraw s).cfg = s.cfg := rfl

@[simp] theorem countDraw_mem (s : State) :
    (countDraw s).mem = s.mem := rfl

@[simp] theorem countDraw_hist (s : State) :
    (countDraw s).hist = s.hist := rfl

@[simp] theorem countDraw_ctxTable (s : State) :
    (countDraw s).ctxTable = s.ctxTable := rfl

@[simp] theorem countDraw_walks (s : State) :
    (countDraw s).walks = s.walks := rfl

@[simp] theorem countDraw_faultLog (s : State) :
    (countDraw s).faultLog = s.faultLog := rfl

@[simp] theorem countDraw_accesses (s : State) :
    (countDraw s).accesses = s.accesses := rfl

@[simp] theorem countDraw_agenda (s : State) :
    (countDraw s).agenda = s.agenda := rfl

@[simp] theorem countDraw_cur (s : State) :
    (countDraw s).cur = s.cur := rfl

@[simp] theorem countDraw_freeCount (s : State) :
    (countDraw s).freeCount = s.freeCount + 1 := rfl

/-! ### raiseFault -/

@[simp] theorem raiseFault_cfg (k : Nat) (ws : Walk) (cause : Cause) (info : FaultInfo) (s : State) :
    (raiseFault k ws cause info s).cfg = s.cfg := rfl

@[simp] theorem raiseFault_mem (k : Nat) (ws : Walk) (cause : Cause) (info : FaultInfo) (s : State) :
    (raiseFault k ws cause info s).mem = s.mem := rfl

@[simp] theorem raiseFault_hist (k : Nat) (ws : Walk) (cause : Cause) (info : FaultInfo) (s : State) :
    (raiseFault k ws cause info s).hist = s.hist := rfl

@[simp] theorem raiseFault_ctxTable (k : Nat) (ws : Walk) (cause : Cause) (info : FaultInfo) (s : State) :
    (raiseFault k ws cause info s).ctxTable = s.ctxTable := rfl

@[simp] theorem raiseFault_walks (k : Nat) (ws : Walk) (cause : Cause) (info : FaultInfo) (s : State) :
    (raiseFault k ws cause info s).walks = s.walks.set k { ws with phase := .done (.fault cause info) } := rfl

@[simp] theorem raiseFault_faultLog (k : Nat) (ws : Walk) (cause : Cause) (info : FaultInfo) (s : State) :
    (raiseFault k ws cause info s).faultLog = s.faultLog ++ [{ req := ws.req, cause := cause, info := info }] := rfl

@[simp] theorem raiseFault_accesses (k : Nat) (ws : Walk) (cause : Cause) (info : FaultInfo) (s : State) :
    (raiseFault k ws cause info s).accesses = s.accesses := rfl

@[simp] theorem raiseFault_agenda (k : Nat) (ws : Walk) (cause : Cause) (info : FaultInfo) (s : State) :
    (raiseFault k ws cause info s).agenda = s.agenda := rfl

@[simp] theorem raiseFault_cur (k : Nat) (ws : Walk) (cause : Cause) (info : FaultInfo) (s : State) :
    (raiseFault k ws cause info s).cur = s.cur := rfl

@[simp] theorem raiseFault_freeCount (k : Nat) (ws : Walk) (cause : Cause) (info : FaultInfo) (s : State) :
    (raiseFault k ws cause info s).freeCount = s.freeCount := rfl

/-! ### invalidateCaches -/

@[simp] theorem invalidateCaches_cfg (s : State) :
    (invalidateCaches s).cfg = s.cfg := rfl

@[simp] theorem invalidateCaches_mem (s : State) :
    (invalidateCaches s).mem = s.mem := rfl

@[simp] theorem invalidateCaches_hist (s : State) :
    (invalidateCaches s).hist = [] := rfl

@[simp] theorem invalidateCaches_ctxTable (s : State) :
    (invalidateCaches s).ctxTable = s.ctxTable := rfl

@[simp] theorem invalidateCaches_walks (s : State) :
    (invalidateCaches s).walks = s.walks := rfl

@[simp] theorem invalidateCaches_faultLog (s : State) :
    (invalidateCaches s).faultLog = s.faultLog := rfl

@[simp] theorem invalidateCaches_accesses (s : State) :
    (invalidateCaches s).accesses = s.accesses := rfl

@[simp] theorem invalidateCaches_agenda (s : State) :
    (invalidateCaches s).agenda = s.agenda := rfl

@[simp] theorem invalidateCaches_cur (s : State) :
    (invalidateCaches s).cur = s.cur := rfl

@[simp] theorem invalidateCaches_freeCount (s : State) :
    (invalidateCaches s).freeCount = s.freeCount := rfl

/-! ### issueRequest -/

@[simp] theorem issueRequest_cfg (q : Request) (s : State) :
    (issueRequest q s).cfg = s.cfg := rfl

@[simp] theorem issueRequest_mem (q : Request) (s : State) :
    (issueRequest q s).mem = s.mem := rfl

@[simp] theorem issueRequest_hist (q : Request) (s : State) :
    (issueRequest q s).hist = s.hist := rfl

@[simp] theorem issueRequest_ctxTable (q : Request) (s : State) :
    (issueRequest q s).ctxTable = s.ctxTable := rfl

@[simp] theorem issueRequest_walks (q : Request) (s : State) :
    (issueRequest q s).walks = s.walks ++ [Walk.start q] := rfl

@[simp] theorem issueRequest_faultLog (q : Request) (s : State) :
    (issueRequest q s).faultLog = s.faultLog := rfl

@[simp] theorem issueRequest_accesses (q : Request) (s : State) :
    (issueRequest q s).accesses = s.accesses := rfl

@[simp] theorem issueRequest_agenda (q : Request) (s : State) :
    (issueRequest q s).agenda = s.agenda := rfl

@[simp] theorem issueRequest_cur (q : Request) (s : State) :
    (issueRequest q s).cur = s.cur := rfl

@[simp] theorem issueRequest_freeCount (q : Request) (s : State) :
    (issueRequest q s).freeCount = s.freeCount := rfl

/-! ### softwareProgram -/

@[simp] theorem softwareProgram_cfg (source : Nat) (answers : List CtxOutcome) (s : State) :
    (softwareProgram source answers s).cfg = s.cfg := rfl

@[simp] theorem softwareProgram_mem (source : Nat) (answers : List CtxOutcome) (s : State) :
    (softwareProgram source answers s).mem = s.mem := rfl

@[simp] theorem softwareProgram_hist (source : Nat) (answers : List CtxOutcome) (s : State) :
    (softwareProgram source answers s).hist = s.hist := rfl

@[simp] theorem softwareProgram_ctxTable (source : Nat) (answers : List CtxOutcome) (s : State) :
    (softwareProgram source answers s).ctxTable = assocPut s.ctxTable source answers := rfl

@[simp] theorem softwareProgram_walks (source : Nat) (answers : List CtxOutcome) (s : State) :
    (softwareProgram source answers s).walks = s.walks := rfl

@[simp] theorem softwareProgram_faultLog (source : Nat) (answers : List CtxOutcome) (s : State) :
    (softwareProgram source answers s).faultLog = s.faultLog := rfl

@[simp] theorem softwareProgram_accesses (source : Nat) (answers : List CtxOutcome) (s : State) :
    (softwareProgram source answers s).accesses = s.accesses := rfl

@[simp] theorem softwareProgram_agenda (source : Nat) (answers : List CtxOutcome) (s : State) :
    (softwareProgram source answers s).agenda = s.agenda := rfl

@[simp] theorem softwareProgram_cur (source : Nat) (answers : List CtxOutcome) (s : State) :
    (softwareProgram source answers s).cur = s.cur := rfl

@[simp] theorem softwareProgram_freeCount (source : Nat) (answers : List CtxOutcome) (s : State) :
    (softwareProgram source answers s).freeCount = s.freeCount := rfl

/-! ### storeBytes -/

@[simp] theorem storeBytes_cfg (a : Nat) (data : List Byte) (s : State) :
    (storeBytes a data s).cfg = s.cfg := rfl

@[simp] theorem storeBytes_mem (a : Nat) (data : List Byte) (s : State) :
    (storeBytes a data s).mem = memWriteBytes s.mem a data := rfl

@[simp] theorem storeBytes_hist (a : Nat) (data : List Byte) (s : State) :
    (storeBytes a data s).hist = (touchedWords a data.length).foldl (histNote s.cfg.byteOrder s.mem (memWriteBytes s.mem a data)) s.hist := rfl

@[simp] theorem storeBytes_ctxTable (a : Nat) (data : List Byte) (s : State) :
    (storeBytes a data s).ctxTable = s.ctxTable := rfl

@[simp] theorem storeBytes_walks (a : Nat) (data : List Byte) (s : State) :
    (storeBytes a data s).walks = s.walks := rfl

@[simp] theorem storeBytes_faultLog (a : Nat) (data : List Byte) (s : State) :
    (storeBytes a data s).faultLog = s.faultLog := rfl

@[simp] theorem storeBytes_accesses (a : Nat) (data : List Byte) (s : State) :
    (storeBytes a data s).accesses = s.accesses := rfl

@[simp] theorem storeBytes_agenda (a : Nat) (data : List Byte) (s : State) :
    (storeBytes a data s).agenda = s.agenda := rfl

@[simp] theorem storeBytes_cur (a : Nat) (data : List Byte) (s : State) :
    (storeBytes a data s).cur = s.cur := rfl

@[simp] theorem storeBytes_freeCount (a : Nat) (data : List Byte) (s : State) :
    (storeBytes a data s).freeCount = s.freeCount := rfl

/-! ### descend -/

@[simp] theorem descend_cfg (r w : Bool) (addr : Frame) (next : Level) (ws : Walk) (s : State) :
    (descend r w addr next ws s).cfg = s.cfg := rfl

@[simp] theorem descend_mem (r w : Bool) (addr : Frame) (next : Level) (ws : Walk) (s : State) :
    (descend r w addr next ws s).mem = s.mem := rfl

@[simp] theorem descend_hist (r w : Bool) (addr : Frame) (next : Level) (ws : Walk) (s : State) :
    (descend r w addr next ws s).hist = s.hist := rfl

@[simp] theorem descend_ctxTable (r w : Bool) (addr : Frame) (next : Level) (ws : Walk) (s : State) :
    (descend r w addr next ws s).ctxTable = s.ctxTable := rfl

@[simp] theorem descend_walks (r w : Bool) (addr : Frame) (next : Level) (ws : Walk) (s : State) :
    (descend r w addr next ws s).walks = s.walks.set s.cur { ws with allR := ws.allR && r, allW := ws.allW && w, base := frameBase addr, level := next } := rfl

@[simp] theorem descend_faultLog (r w : Bool) (addr : Frame) (next : Level) (ws : Walk) (s : State) :
    (descend r w addr next ws s).faultLog = s.faultLog := rfl

@[simp] theorem descend_accesses (r w : Bool) (addr : Frame) (next : Level) (ws : Walk) (s : State) :
    (descend r w addr next ws s).accesses = s.accesses := rfl

@[simp] theorem descend_agenda (r w : Bool) (addr : Frame) (next : Level) (ws : Walk) (s : State) :
    (descend r w addr next ws s).agenda = s.agenda := rfl

@[simp] theorem descend_cur (r w : Bool) (addr : Frame) (next : Level) (ws : Walk) (s : State) :
    (descend r w addr next ws s).cur = s.cur := rfl

@[simp] theorem descend_freeCount (r w : Bool) (addr : Frame) (next : Level) (ws : Walk) (s : State) :
    (descend r w addr next ws s).freeCount = s.freeCount := rfl

/-! ### readNoted -/

@[simp] theorem readNoted_cfg (k : Nat) (ws : Walk) (ctx : Ctx) (a : Word64) (s : State) :
    (readNoted k ws ctx a s).cfg = s.cfg := rfl

@[simp] theorem readNoted_mem (k : Nat) (ws : Walk) (ctx : Ctx) (a : Word64) (s : State) :
    (readNoted k ws ctx a s).mem = s.mem := rfl

@[simp] theorem readNoted_hist (k : Nat) (ws : Walk) (ctx : Ctx) (a : Word64) (s : State) :
    (readNoted k ws ctx a s).hist = s.hist := rfl

@[simp] theorem readNoted_ctxTable (k : Nat) (ws : Walk) (ctx : Ctx) (a : Word64) (s : State) :
    (readNoted k ws ctx a s).ctxTable = s.ctxTable := rfl

@[simp] theorem readNoted_walks (k : Nat) (ws : Walk) (ctx : Ctx) (a : Word64) (s : State) :
    (readNoted k ws ctx a s).walks = s.walks.set k (noteRead s ws (.slEntry ws.level a) (memTypeOf ws.req ctx .slEntry)) := rfl

@[simp] theorem readNoted_faultLog (k : Nat) (ws : Walk) (ctx : Ctx) (a : Word64) (s : State) :
    (readNoted k ws ctx a s).faultLog = s.faultLog := rfl

@[simp] theorem readNoted_accesses (k : Nat) (ws : Walk) (ctx : Ctx) (a : Word64) (s : State) :
    (readNoted k ws ctx a s).accesses = s.accesses := rfl

@[simp] theorem readNoted_agenda (k : Nat) (ws : Walk) (ctx : Ctx) (a : Word64) (s : State) :
    (readNoted k ws ctx a s).agenda = s.agenda := rfl

@[simp] theorem readNoted_cur (k : Nat) (ws : Walk) (ctx : Ctx) (a : Word64) (s : State) :
    (readNoted k ws ctx a s).cur = k := rfl

@[simp] theorem readNoted_freeCount (k : Nat) (ws : Walk) (ctx : Ctx) (a : Word64) (s : State) :
    (readNoted k ws ctx a s).freeCount = s.freeCount + 1 := rfl

/-! ### accumulate -/

@[simp] theorem accumulate_req (ws : Walk) (r w : Bool) :
    (accumulate ws r w).req = ws.req := rfl

@[simp] theorem accumulate_phase (ws : Walk) (r w : Bool) :
    (accumulate ws r w).phase = ws.phase := rfl

@[simp] theorem accumulate_level (ws : Walk) (r w : Bool) :
    (accumulate ws r w).level = ws.level := rfl

@[simp] theorem accumulate_base (ws : Walk) (r w : Bool) :
    (accumulate ws r w).base = ws.base := rfl

@[simp] theorem accumulate_allR (ws : Walk) (r w : Bool) :
    (accumulate ws r w).allR = (ws.allR && r) := rfl

@[simp] theorem accumulate_allW (ws : Walk) (r w : Bool) :
    (accumulate ws r w).allW = (ws.allW && w) := rfl

@[simp] theorem accumulate_reads (ws : Walk) (r w : Bool) :
    (accumulate ws r w).reads = ws.reads := rfl

/-! ### startWalk -/

@[simp] theorem startWalk_req (ws : Walk) (ctx : Ctx) :
    (startWalk ws ctx).req = ws.req := rfl

@[simp] theorem startWalk_phase (ws : Walk) (ctx : Ctx) :
    (startWalk ws ctx).phase = .walk ctx := rfl

@[simp] theorem startWalk_level (ws : Walk) (ctx : Ctx) :
    (startWalk ws ctx).level = startLevel ctx.agaw := rfl

@[simp] theorem startWalk_base (ws : Walk) (ctx : Ctx) :
    (startWalk ws ctx).base = frameBase ctx.slptptr := rfl

@[simp] theorem startWalk_allR (ws : Walk) (ctx : Ctx) :
    (startWalk ws ctx).allR = true := rfl

@[simp] theorem startWalk_allW (ws : Walk) (ctx : Ctx) :
    (startWalk ws ctx).allW = true := rfl

@[simp] theorem startWalk_reads (ws : Walk) (ctx : Ctx) :
    (startWalk ws ctx).reads = ws.reads := rfl

/-! ### noteRead -/

@[simp] theorem noteRead_req (s : State) (ws : Walk) (what : OwnAccess) (t : MemType) :
    (noteRead s ws what t).req = ws.req := rfl

@[simp] theorem noteRead_phase (s : State) (ws : Walk) (what : OwnAccess) (t : MemType) :
    (noteRead s ws what t).phase = ws.phase := rfl

@[simp] theorem noteRead_level (s : State) (ws : Walk) (what : OwnAccess) (t : MemType) :
    (noteRead s ws what t).level = ws.level := rfl

@[simp] theorem noteRead_base (s : State) (ws : Walk) (what : OwnAccess) (t : MemType) :
    (noteRead s ws what t).base = ws.base := rfl

@[simp] theorem noteRead_allR (s : State) (ws : Walk) (what : OwnAccess) (t : MemType) :
    (noteRead s ws what t).allR = ws.allR := rfl

@[simp] theorem noteRead_allW (s : State) (ws : Walk) (what : OwnAccess) (t : MemType) :
    (noteRead s ws what t).allW = ws.allW := rfl

@[simp] theorem noteRead_reads (s : State) (ws : Walk) (what : OwnAccess) (t : MemType) :
    (noteRead s ws what t).reads = ws.reads ++ [{ what := what, snooped := ownReadSnooped s.cfg s.freeCount, memType := t }] := rfl

/-! ### Walk.start -/

@[simp] theorem walk_start_req (q : Request) : (Walk.start q).req = q := rfl

@[simp] theorem walk_start_phase (q : Request) : (Walk.start q).phase = .lookup := rfl

@[simp] theorem walk_start_reads (q : Request) : (Walk.start q).reads = [] := rfl

/-! ### Request.instr -/

@[simp] theorem exec_instr (q : Request) (s : State) : exec q.instr s = process q s := by
  rcases q with ⟨k, ia, ns, coh, src⟩
  cases k <;> rfl

end Sys2Proof.Machine
end

