-- ==== Sys2Proof/Laws/Memory.lean ====
section
/-! SUPPORT. The laws of memory: a read after a write, and that every write keeps the canonical form. -/

namespace Sys2Proof.Machine

/-! ### One cell -/

theorem memRead_consCell_same (a : Nat) (v : Byte) (t : List Host.Cell) (h : memRead t a = unlistedByte) :
    memRead (consCell a v t) a = v := by
  unfold consCell
  split
  · next hv => rw [h, hv]
  · simp [memRead]

theorem memRead_consCell_other (a b : Nat) (v : Byte) (t : List Host.Cell) (h : a ≠ b) :
    memRead (consCell a v t) b = memRead t b := by
  unfold consCell
  split
  · rfl
  · simp [memRead, h]

/-- An address below every listed one reads as an unlisted address does. -/
theorem memRead_below (m : List Host.Cell) (a : Nat) (h : ∀ x ∈ m, a < x.1) : memRead m a = unlistedByte := by
  induction m with
  | nil => rfl
  | cons x t ih =>
    obtain ⟨b, u⟩ := x
    have hb : a < b := h (b, u) (by simp)
    have ht := ih (fun y hy => h y (by simp [hy]))
    simp only [memRead]
    rw [if_neg (by omega), ht]

/-! ### One byte -/

theorem memWrite_keys (m : List Host.Cell) (a : Nat) (v : Byte) :
    ∀ x ∈ memWrite m a v, x ∈ m ∨ (x = (a, v) ∧ v ≠ unlistedByte) := by
  induction m with
  | nil =>
    intro x hx
    simp only [memWrite, consCell] at hx
    split at hx
    · simp at hx
    · next hv => right; simpa [hv] using hx
  | cons y t ih =>
    obtain ⟨b, u⟩ := y
    intro x hx
    simp only [memWrite, consCell] at hx
    split at hx
    · split at hx
      · exact .inl hx
      · next hv =>
        rcases List.mem_cons.mp hx with rfl | hx
        · exact .inr ⟨rfl, hv⟩
        · exact .inl hx
    · split at hx
      · split at hx
        · exact .inl (List.mem_cons_of_mem _ hx)
        · next hv =>
          rcases List.mem_cons.mp hx with rfl | hx
          · exact .inr ⟨rfl, hv⟩
          · exact .inl (List.mem_cons_of_mem _ hx)
      · rcases List.mem_cons.mp hx with rfl | hx
        · exact .inl (by simp)
        · rcases ih x hx with h | h
          · exact .inl (List.mem_cons_of_mem _ h)
          · exact .inr h

/-- Writing a byte keeps the canonical form. -/
theorem memWrite_wf (m : List Host.Cell) (a : Nat) (v : Byte) (h : Memory.wf m) : Memory.wf (memWrite m a v) := by
  refine ⟨?_, fun x hx => ?_⟩
  · have hs := h.1
    clear h
    induction m with
    | nil => simp only [memWrite, consCell]; split <;> simp
    | cons y t ih =>
      obtain ⟨b, u⟩ := y
      have hb := (List.pairwise_cons.mp hs).1
      have ht := (List.pairwise_cons.mp hs).2
      simp only [memWrite, consCell]
      split
      · next hab =>
        split
        · exact hs
        · refine List.pairwise_cons.mpr ⟨fun x hx => ?_, hs⟩
          rcases List.mem_cons.mp hx with rfl | hx
          · exact hab
          · exact Nat.lt_trans hab (hb x hx)
      · split
        · next hab =>
          split
          · exact ht
          · exact List.pairwise_cons.mpr ⟨fun x hx => hab ▸ hb x hx, ht⟩
        · refine List.pairwise_cons.mpr ⟨fun x hx => ?_, ih ht⟩
          rcases memWrite_keys t a v x hx with hx | ⟨rfl, _⟩
          · exact hb x hx
          · show b < a
            omega
  · rcases memWrite_keys m a v x hx with hx | ⟨rfl, hv⟩
    · exact h.2 x hx
    · exact hv

theorem memRead_memWrite_same (m : List Host.Cell) (a : Nat) (v : Byte) (h : Memory.wf m) :
    memRead (memWrite m a v) a = v := by
  have hs := h.1
  clear h
  induction m with
  | nil => exact memRead_consCell_same a v [] rfl
  | cons y t ih =>
    obtain ⟨b, u⟩ := y
    have hb := (List.pairwise_cons.mp hs).1
    simp only [memWrite]
    split
    · next hab =>
      apply memRead_consCell_same
      apply memRead_below
      intro x hx
      rcases List.mem_cons.mp hx with rfl | hx
      · exact hab
      · exact Nat.lt_trans hab (hb x hx)
    · split
      · next hab =>
        subst hab
        exact memRead_consCell_same a v t (memRead_below t a hb)
      · next h1 h2 =>
        simp only [memRead]
        rw [if_neg (by omega)]
        exact ih (List.pairwise_cons.mp hs).2

theorem memRead_memWrite_other (m : List Host.Cell) (a b : Nat) (v : Byte) (h : a ≠ b) :
    memRead (memWrite m a v) b = memRead m b := by
  induction m with
  | nil => exact memRead_consCell_other a b v [] h
  | cons y t ih =>
    obtain ⟨c, u⟩ := y
    simp only [memWrite]
    split
    · exact memRead_consCell_other a b v _ h
    · split
      · next hac =>
        subst hac
        rw [memRead_consCell_other a b v t h]
        simp [memRead, h]
      · simp only [memRead, ih]

/-! ### Several bytes -/

/-- Writing bytes keeps the canonical form. -/
theorem memWriteBytes_wf (m : List Host.Cell) (a : Nat) (data : List Byte) (h : Memory.wf m) :
    Memory.wf (memWriteBytes m a data) := by
  induction data generalizing m a with
  | nil => exact h
  | cons v vs ih => exact ih _ _ (memWrite_wf m a v h)

/-- Every address outside the bytes written reads as before. -/
theorem memRead_memWriteBytes_outside (m : List Host.Cell) (a b : Nat) (data : List Byte)
    (h : b < a ∨ a + data.length ≤ b) : memRead (memWriteBytes m a data) b = memRead m b := by
  induction data generalizing m a with
  | nil => rfl
  | cons v vs ih =>
    simp only [List.length_cons] at h
    simp only [memWriteBytes]
    rw [ih _ _ (by omega), memRead_memWrite_other _ _ _ _ (by omega)]

/-- Every byte written reads back. -/
theorem memRead_memWriteBytes_inside (m : List Host.Cell) (a i : Nat) (data : List Byte) (hm : Memory.wf m)
    (h : i < data.length) : memRead (memWriteBytes m a data) (a + i) = data[i] := by
  induction data generalizing m a i with
  | nil => simp at h
  | cons v vs ih =>
    simp only [memWriteBytes]
    cases i with
    | zero =>
      rw [memRead_memWriteBytes_outside _ _ _ _ (by omega)]
      exact memRead_memWrite_same m a v hm
    | succ j =>
      have := ih (memWrite m a v) (a + 1) j (memWrite_wf m a v hm) (by simpa using h)
      rw [show a + (j + 1) = a + 1 + j by omega, this]
      rfl

@[simp] theorem memReadBytes_length (m : List Host.Cell) (a n : Nat) : (memReadBytes m a n).length = n := by
  simp [memReadBytes]

/-- Two memories that agree on the eight bytes of a location hold the same content there. -/
theorem content64_congr (o : ByteOrder) (m m' : List Host.Cell) (a : Nat)
    (h : ∀ i, i < 8 → memRead m (a + i) = memRead m' (a + i)) : content64 o m a = content64 o m' a := by
  have h0 := h 0 (by omega)
  simp only [Nat.add_zero] at h0
  simp only [content64, h0, h 1 (by omega), h 2 (by omega), h 3 (by omega), h 4 (by omega), h 5 (by omega),
    h 6 (by omega), h 7 (by omega)]

theorem reset_memory_wf : Memory.wf State.reset.mem := by decide

theorem storeBytes_memory_wf (a : Nat) (data : List Byte) (s : State) (h : Memory.wf s.mem) :
    Memory.wf (storeBytes a data s).mem := memWriteBytes_wf _ _ _ h

end Sys2Proof.Machine
end

