-- ==== Sys2Proof/Laws/Caches.lean ====
section
/-! SUPPORT. The laws of lists by key, of sets of values, of drawing, and of the translation caches (R52, R54). -/

namespace Sys2Proof.Machine

/-! ### Drawing -/

theorem pick_mem {α : Type} (n : Nat) (dflt : α) (l : List α) (h : l ≠ []) : pick n dflt l ∈ l := by
  match l, h with
  | [v], _ => simp [pick]
  | v :: u :: vs, _ =>
    have hlt : n % (vs.length + 2) < (v :: u :: vs).length := Nat.mod_lt n (Nat.succ_pos _)
    simp only [pick]
    rw [← List.getElem_eq_getD (h := hlt)]
    exact List.getElem_mem hlt

@[simp] theorem pick_single {α : Type} (n : Nat) (dflt v : α) : pick n dflt [v] = v := rfl

/-! ### Lists by key -/

theorem assocGet_assocPut_same {α : Type} (l : List (Nat × α)) (a : Nat) (v : α) : assocGet (assocPut l a v) a = some v := by
  induction l with
  | nil => simp [assocPut, assocGet]
  | cons x t ih =>
    obtain ⟨b, u⟩ := x
    simp only [assocPut]
    split
    · simp [assocGet]
    · split
      · simp [assocGet]
      · next h1 h2 => simp only [assocGet]; rw [if_neg (by omega), ih]

theorem assocGet_assocPut_other {α : Type} (l : List (Nat × α)) (a b : Nat) (v : α) (h : a ≠ b) :
    assocGet (assocPut l a v) b = assocGet l b := by
  induction l with
  | nil => simp [assocPut, assocGet, h]
  | cons x t ih =>
    obtain ⟨c, u⟩ := x
    simp only [assocPut]
    split
    · simp [assocGet, h]
    · split
      · next h2 => subst h2; simp [assocGet, h]
      · simp only [assocGet, ih]

theorem mem_assocPut {α : Type} (l : List (Nat × α)) (a : Nat) (v : α) :
    ∀ x ∈ assocPut l a v, x ∈ l ∨ x = (a, v) := by
  induction l with
  | nil => intro x hx; simpa [assocPut] using hx
  | cons y t ih =>
    obtain ⟨b, u⟩ := y
    intro x hx
    simp only [assocPut] at hx
    split at hx
    · rcases List.mem_cons.mp hx with rfl | hx
      · exact .inr rfl
      · exact .inl hx
    · split at hx
      · rcases List.mem_cons.mp hx with rfl | hx
        · exact .inr rfl
        · exact .inl (List.mem_cons_of_mem _ hx)
      · rcases List.mem_cons.mp hx with rfl | hx
        · exact .inl (by simp)
        · rcases ih x hx with h | h
          · exact .inl (List.mem_cons_of_mem _ h)
          · exact .inr h

theorem assocPut_rising {α : Type} (l : List (Nat × α)) (a : Nat) (v : α) (h : l.Pairwise (fun x y => x.1 < y.1)) :
    (assocPut l a v).Pairwise (fun x y => x.1 < y.1) := by
  induction l with
  | nil => simp [assocPut]
  | cons y t ih =>
    obtain ⟨b, u⟩ := y
    have hb := (List.pairwise_cons.mp h).1
    have ht := (List.pairwise_cons.mp h).2
    simp only [assocPut]
    split
    · next hab =>
      refine List.pairwise_cons.mpr ⟨fun x hx => ?_, h⟩
      rcases List.mem_cons.mp hx with rfl | hx
      · exact hab
      · exact Nat.lt_trans hab (hb x hx)
    · split
      · next hab => exact List.pairwise_cons.mpr ⟨fun x hx => hab ▸ hb x hx, ht⟩
      · refine List.pairwise_cons.mpr ⟨fun x hx => ?_, ih ht⟩
        rcases mem_assocPut t a v x hx with hx | rfl
        · exact hb x hx
        · show b < a
          omega

/-- What a key is bound to is in the list. -/
theorem mem_of_assocGet {α : Type} (l : List (Nat × α)) (a : Nat) (v : α) (h : assocGet l a = some v) : (a, v) ∈ l := by
  induction l with
  | nil => simp [assocGet] at h
  | cons x t ih =>
    obtain ⟨b, u⟩ := x
    simp only [assocGet] at h
    split at h
    · next hb => subst hb; simp_all
    · exact List.mem_cons_of_mem _ (ih h)

/-- In a list with rising keys, what is in the list is what its key is bound to. -/
theorem assocGet_of_mem {α : Type} (l : List (Nat × α)) (x : Nat × α) (hs : l.Pairwise (fun x y => x.1 < y.1))
    (h : x ∈ l) : assocGet l x.1 = some x.2 := by
  induction l with
  | nil => simp at h
  | cons y t ih =>
    obtain ⟨b, u⟩ := y
    have hb := (List.pairwise_cons.mp hs).1
    rcases List.mem_cons.mp h with rfl | hx
    · simp [assocGet]
    · have := hb x hx
      simp only [assocGet]
      rw [if_neg (by simp only at this; omega)]
      exact ih (List.pairwise_cons.mp hs).2 hx

/-! ### Sets of values -/

theorem mem_wordInsert (l : List Word64) (v x : Word64) : x ∈ wordInsert l v ↔ x = v ∨ x ∈ l := by
  induction l with
  | nil => simp [wordInsert]
  | cons u t ih =>
    simp only [wordInsert]
    split
    · simp
    · split
      · next h => subst h; simp
      · simp only [List.mem_cons, ih]
        tauto

theorem wordInsert_rising (l : List Word64) (v : Word64) (h : l.Pairwise (fun x y => x.toNat < y.toNat)) :
    (wordInsert l v).Pairwise (fun x y => x.toNat < y.toNat) := by
  induction l with
  | nil => simp [wordInsert]
  | cons u t ih =>
    have hu := (List.pairwise_cons.mp h).1
    have ht := (List.pairwise_cons.mp h).2
    simp only [wordInsert]
    split
    · next hvu =>
      refine List.pairwise_cons.mpr ⟨fun x hx => ?_, h⟩
      rcases List.mem_cons.mp hx with rfl | hx
      · exact hvu
      · exact Nat.lt_trans hvu (hu x hx)
    · split
      · exact h
      · next h1 h2 =>
        refine List.pairwise_cons.mpr ⟨fun x hx => ?_, ih ht⟩
        rcases (mem_wordInsert t v x).mp hx with rfl | hx
        · have : x.toNat ≠ u.toNat := fun he => h2 (BitVec.eq_of_toNat_eq he)
          omega
        · exact hu x hx

theorem wordInsert_length_le (l : List Word64) (v : Word64) : l.length ≤ (wordInsert l v).length := by
  induction l with
  | nil => simp [wordInsert]
  | cons u t ih =>
    simp only [wordInsert]
    split
    · simp
    · split
      · simp
      · simpa using ih

/-! ### Hist -/

/-- One location's Hist after a write (R52): the content before the write is a member, so is the content after it. -/
theorem histNote_same (o : ByteOrder) (before after : List Host.Cell) (h : List (Nat × List Word64)) (a : Nat)
    (hc : content64 o before a ≠ content64 o after a) :
    assocGet (histNote o before after h a) a = some (wordInsert (histSet o before h a) (content64 o after a)) := by
  simp only [histNote, if_neg hc, assocGet_assocPut_same]

/-- A write at one location leaves every other location's Hist as it was. -/
theorem histNote_other (o : ByteOrder) (before after : List Host.Cell) (h : List (Nat × List Word64)) (a b : Nat)
    (hab : a ≠ b) : assocGet (histNote o before after h a) b = assocGet h b := by
  unfold histNote
  split
  · rfl
  · exact assocGet_assocPut_other _ _ _ _ hab

/-- A location whose content does not change keeps its Hist. -/
theorem histNote_unchanged (o : ByteOrder) (before after : List Host.Cell) (h : List (Nat × List Word64)) (a : Nat)
    (hc : content64 o before a = content64 o after a) : histNote o before after h a = h := by
  simp only [histNote, if_pos hc]

/-- After `Invalidate` every Hist is the singleton of the current content (R54). -/
@[simp] theorem histOf_invalidate (s : State) (a : Nat) :
    histOf (invalidateCaches s) a = [content64 s.cfg.byteOrder s.mem a] := rfl

/-- With clean caches an entry read returns what memory holds (R52, R54, R56). -/
theorem memRead64_clean (s : State) (a : Word64) (h : s.hist = []) :
    memRead64 s a = if backed s.cfg a.toNat then some (content64 s.cfg.byteOrder s.mem a.toNat) else none := by
  simp [memRead64, histOf, histSet, h, assocGet]

/-- A location that n bytes touch is aligned. -/
theorem touchedWords_aligned (a n : Nat) : ∀ x ∈ touchedWords a n, x % 8 = 0 := by
  intro x hx
  obtain ⟨i, -, rfl⟩ := List.mem_map.mp hx
  omega

/-- An aligned location that is not touched lies outside the bytes. -/
theorem outside_of_not_touched (a n x : Nat) (hx : x % 8 = 0) (h : x ∉ touchedWords a n) (hn : 0 < n) :
    x + 8 ≤ a ∨ a + n ≤ x := by
  by_contra hc
  apply h
  refine List.mem_map.mpr ⟨x / 8 - a / 8, List.mem_range.mpr ?_, ?_⟩ <;> omega

/-- The locations touched are different from each other. -/
theorem touchedWords_nodup (a n : Nat) : (touchedWords a n).Nodup := by
  refine List.Nodup.map ?_ List.nodup_range
  intro i j h
  simp only at h
  omega

end Sys2Proof.Machine
end

