-- ==== Sys2Proof/Laws/Fields.lean ====
section
/-! SUPPORT. The bits of entries and of addresses, one lemma per function (R61 to R63, R68 to R70, R73, R83). -/

namespace Sys2Proof.Machine

/-- The bits of two words side by side. -/
theorem append_get {n k : Nat} (x : BitVec n) (y : BitVec k) (i : Nat) :
    (x ++ y).getLsbD i = if i < k then y.getLsbD i else x.getLsbD (i - k) := by
  rw [BitVec.getLsbD_append]

/-- The bits of a field. -/
theorem extract_get (e : Word64) (s n i : Nat) : (e.extractLsb' s n).getLsbD i = (decide (i < n) && e.getLsbD (s + i)) := by
  simp [BitVec.getLsbD_extractLsb']

/-- A field is zero exactly when each of its bits is. -/
theorem extract_zero_iff (e : Word64) (s n : Nat) :
    e.extractLsb' s n = 0 ↔ ∀ i, s ≤ i → i < s + n → e.getLsbD i = false := by
  constructor
  · intro h i h1 h2
    have := congrArg (fun x => x.getLsbD (i - s)) h
    simp only [extract_get] at this
    rw [show s + (i - s) = i by omega] at this
    simpa [show i - s < n by omega] using this
  · intro h
    apply BitVec.eq_of_getLsbD_eq
    intro i hi
    rw [extract_get, h (s + i) (by omega) (by omega)]
    simp

/-- The bits of a word with one bit. -/
theorem bitAt_get (n : Nat) (b : Bool) (i : Nat) : (bitAt n b).getLsbD i = (b && decide (i = n) && decide (i < 64)) := by
  unfold bitAt
  cases b
  · simp
  · simp only [if_true, BitVec.getLsbD_shiftLeft, BitVec.getLsbD_one, Bool.true_and]
    by_cases h : i = n
    · subst h; simp
    · simp [h]; omega

/-- The bits of a frame number put in its place (R62). -/
theorem frame_shifted_get (f : Frame) (i : Nat) :
    (f.setWidth 64 <<< 12).getLsbD i = (decide (12 ≤ i) && decide (i < 52) && f.getLsbD (i - 12)) := by
  have hge : 40 ≤ i - 12 → f.getLsbD (i - 12) = false := fun h => BitVec.getLsbD_of_ge f _ h
  rw [BitVec.getLsbD_shiftLeft, BitVec.getLsbD_setWidth]
  by_cases h1 : i < 12
  · have : ¬ 12 ≤ i := by omega
    simp [h1, this]
  by_cases h2 : i < 52
  · have a1 : 12 ≤ i := by omega
    have a2 : i < 64 := by omega
    have a3 : i - 12 < 64 := by omega
    simp [h1, h2, a1, a2, a3]
  · rw [hge (by omega)]; simp

/-- The bits of an assembled entry (R61, R62). -/
theorem assemble_get (p : BitPos) (r w ps snp tm : Bool) (addr : Frame) (ign : Word64) (i : Nat) :
    (assemble p r w ps snp tm addr ign).getLsbD i =
      (ign.getLsbD i || (decide (12 ≤ i) && decide (i < 52) && addr.getLsbD (i - 12))
        || (r && decide (i = p.r) && decide (i < 64))
        || (w && decide (i = p.w) && decide (i < 64)) || (ps && decide (i = p.ps) && decide (i < 64))
        || (snp && decide (i = p.snp) && decide (i < 64)) || (tm && decide (i = p.tm) && decide (i < 64))) := by
  simp only [assemble, BitVec.getLsbD_or, frame_shifted_get, bitAt_get]

/-- The bits that are named at every level (R61). -/
theorem namedMask_get (p : BitPos) (i : Nat) : (namedMask p).getLsbD i =
    ((decide (12 ≤ i) && decide (i < 52)) || (decide (i = p.r) && decide (i < 64)) || (decide (i = p.w) && decide (i < 64))
      || (decide (i = p.snp) && decide (i < 64)) || (decide (i = p.tm) && decide (i < 64))) := by
  simp only [namedMask, BitVec.getLsbD_or, bitAt_get, frame_shifted_get, BitVec.getLsbD_allOnes]
  by_cases h : 12 ≤ i <;> by_cases h2 : i < 52 <;> simp [h, h2]
  omega

/-- The bits of a SL-PTE that no clause names (R83). -/
theorem ignoredPte_get (p : BitPos) (e : Word64) (i : Nat) (h : i < 64) : (ignoredPte p e).getLsbD i =
    (e.getLsbD i && !((decide (12 ≤ i) && decide (i < 52)) || decide (i = p.r)
      || decide (i = p.w) || decide (i = p.snp) || decide (i = p.tm))) := by
  simp only [ignoredPte, BitVec.getLsbD_and, BitVec.getLsbD_not, namedMask_get, h, decide_true, Bool.and_true, Bool.true_and]

/-- The bits of an entry above level 1 that no clause names (R83). -/
theorem ignoredUpper_get (p : BitPos) (e : Word64) (i : Nat) (h : i < 64) : (ignoredUpper p e).getLsbD i =
    (e.getLsbD i && !((decide (12 ≤ i) && decide (i < 52)) || decide (i = p.r)
      || decide (i = p.w) || decide (i = p.snp) || decide (i = p.tm) || decide (i = p.ps))) := by
  simp only [ignoredUpper, BitVec.getLsbD_and, BitVec.getLsbD_not, BitVec.getLsbD_or, namedMask_get, bitAt_get,
    h, decide_true, Bool.and_true, Bool.true_and]

/-- Bits 51:HAW are 0 exactly when the frame number is below HAW (R73). -/
theorem addrAboveHaw_iff (c : Config) (e : Word64) (h : 13 ≤ c.haw ∧ c.haw ≤ 52) :
    addrAboveHaw c e = false ↔ frameBelowHaw c (fieldAddr e) = true := by
  unfold addrAboveHaw frameBelowHaw
  rw [bne_eq_false_iff_eq, extract_zero_iff, decide_eq_true_eq]
  constructor
  · intro hz
    apply Nat.lt_pow_two_of_testBit
    intro i hi
    show (fieldAddr e).getLsbD i = false
    unfold fieldAddr
    rw [extract_get]
    by_cases hi' : i < 40
    · rw [hz (12 + i) (by omega) (by omega)]; simp
    · simp [hi']
  · intro hlt i h1 h2
    have : (fieldAddr e).getLsbD (i - 12) = false := by
      show (fieldAddr e).toNat.testBit (i-12) = false
      apply Nat.testBit_lt_two_pow
      exact Nat.lt_of_lt_of_le hlt (Nat.pow_le_pow_right (by omega) (by omega))
    unfold fieldAddr at this
    rw [extract_get, show 12 + (i - 12) = i by omega] at this
    simpa [show i - 12 < 40 by omega] using this

/-- The bits of an entry address (R63). -/
theorem entryAddr_get (base ia : Word64) (L : Level) (i : Nat) : (entryAddr base ia L).getLsbD i =
    (decide (i < 64) && if i < 3 then false else if i < 12 then ia.getLsbD (indexLow L + (i - 3))
      else (decide (i < 52) && base.getLsbD i)) := by
  unfold entryAddr entryIndex
  rw [BitVec.getLsbD_setWidth, append_get, append_get, extract_get, extract_get]
  by_cases h1 : i < 3
  · simp [h1]
  by_cases h2 : i < 12
  · have : i - 3 < 9 := by omega
    simp [h1, h2, this]
  · have a1 : ¬ i - 3 < 9 := by omega
    have a2 : 12 + (i - 3 - 9) = i := by omega
    by_cases h3 : i < 52
    · have : i - 3 - 9 < 40 := by omega
      simp [h1, h2, a1, a2, h3, this]
    · have : ¬ i - 3 - 9 < 40 := by omega
      simp [h1, h2, a1, h3, this]

/-- A final address as a number: the page, then the offset (R68 to R70). -/
theorem page_offset_toNat {n k : Nat} (x : BitVec n) (ia : Word64) (h : n + k ≤ 64) :
    ((x ++ ia.extractLsb' 0 k).setWidth 64).toNat = x.toNat * 2^k + ia.toNat % 2^k := by
  rw [BitVec.toNat_setWidth, BitVec.toNat_append, BitVec.extractLsb'_toNat, Nat.shiftRight_zero,
    ← Nat.shiftLeft_add_eq_or_of_lt (Nat.mod_lt _ (Nat.two_pow_pos _)), Nat.shiftLeft_eq]
  apply Nat.mod_eq_of_lt
  have h1 := x.isLt
  have h2 : ia.toNat % 2^k < 2^k := Nat.mod_lt _ (Nat.two_pow_pos _)
  calc _ < (x.toNat + 1) * 2^k := by rw [Nat.add_mul]; omega
    _ ≤ 2^n * 2^k := Nat.mul_le_mul_right _ h1
    _ = 2^(n+k) := by rw [Nat.pow_add]
    _ ≤ 2^64 := Nat.pow_le_pow_right (by decide) h

/-- Input addresses of one page select the same entries down to the leaf (R45). -/
theorem entryAddr_same_page (base ia ia' : Word64) (L : Level) (k : Nat)
    (h : ia.toNat / 2^k = ia'.toNat / 2^k) (hk : k ≤ indexLow L) : entryAddr base ia L = entryAddr base ia' L := by
  unfold entryAddr entryIndex
  have : ia.extractLsb' (indexLow L) 9 = ia'.extractLsb' (indexLow L) 9 := by
    apply BitVec.eq_of_toNat_eq
    rw [BitVec.extractLsb'_toNat, BitVec.extractLsb'_toNat, Nat.shiftRight_eq_div_pow, Nat.shiftRight_eq_div_pow]
    obtain ⟨d, hd⟩ : ∃ d, indexLow L = k + d := ⟨_, (Nat.add_sub_cancel' hk).symm⟩
    rw [hd, Nat.pow_add, ← Nat.div_div_eq_div_mul, ← Nat.div_div_eq_div_mul, h]
  rw [this]

end Sys2Proof.Machine
end

