-- ==== Sys2Proof/Laws/PerInstr.lean ====
section
/-! SUPPORT. A statement about every instruction as syntax: which rows have a word and levels (R60, R87, R89), one lemma
per constructor. -/

namespace Sys2Proof.Laws.WordAndLevels

/-- A row has a word exactly when it applies at some level of a walk; its levels are different from each other; and a row
that makes a leaf of an input address has the level of that leaf. -/
def Statement (i : Instr) : Prop :=
  (∀ c, (encodeEntry c i).isSome = i.isEntry) ∧ i.levels.Nodup ∧
    ∀ ia f, Machine.leafForm ia i = some f → i.levels = [f.level]

theorem read (ia : Word64) (noSnoop coh : Bool) (source : Nat) : Statement (.read ia noSnoop coh source) :=
  ⟨fun _ => rfl, by simp [Instr.levels], fun _ _ h => by cases h⟩

theorem write (ia : Word64) (noSnoop coh : Bool) (source : Nat) : Statement (.write ia noSnoop coh source) :=
  ⟨fun _ => rfl, by simp [Instr.levels], fun _ _ h => by cases h⟩

theorem atomic (ia : Word64) (noSnoop coh : Bool) (source : Nat) : Statement (.atomic ia noSnoop coh source) :=
  ⟨fun _ => rfl, by simp [Instr.levels], fun _ _ h => by cases h⟩

theorem slEntryNotPresent (rest : Word64) : Statement (.slEntryNotPresent rest) :=
  ⟨fun _ => rfl, by simp [Instr.levels], fun _ _ h => by cases h⟩

theorem slPml4e (r w : Bool) (addr : Frame) (ign : Word64) : Statement (.slPml4e r w addr ign) :=
  ⟨fun _ => rfl, by simp [Instr.levels], fun _ _ h => by cases h⟩

theorem slPdpeTable (r w : Bool) (addr : Frame) (ign : Word64) : Statement (.slPdpeTable r w addr ign) :=
  ⟨fun _ => rfl, by simp [Instr.levels], fun _ _ h => by cases h⟩

theorem slPdpePage1g (r w snp tm : Bool) (page : BitVec 22) (ign : Word64) :
    Statement (.slPdpePage1g r w snp tm page ign) :=
  ⟨fun _ => rfl, by simp [Instr.levels], fun _ _ h => by cases h; rfl⟩

theorem slPdeTable (r w : Bool) (addr : Frame) (ign : Word64) : Statement (.slPdeTable r w addr ign) :=
  ⟨fun _ => rfl, by simp [Instr.levels], fun _ _ h => by cases h⟩

theorem slPdePage2m (r w snp tm : Bool) (page : BitVec 31) (ign : Word64) :
    Statement (.slPdePage2m r w snp tm page ign) :=
  ⟨fun _ => rfl, by simp [Instr.levels], fun _ _ h => by cases h; rfl⟩

theorem slPte (r w snp tm : Bool) (page : Frame) (ign : Word64) : Statement (.slPte r w snp tm page ign) :=
  ⟨fun _ => rfl, by simp [Instr.levels], fun _ _ h => by cases h; rfl⟩

end Sys2Proof.Laws.WordAndLevels
end

