-- ==== Sys2Proof/Laws/Process.lean ====
section
/-! SUPPORT. What the shared operations of the walk can do, said once each: the end of a walk, the step of an entry, one
step of the remapping hardware. -/

namespace Sys2Proof.Machine

/-! ### The end of a walk (R98, R149) -/

/-- The outcome of a walk's end. -/
def endOutcome (ws : Walk) (ctx : Ctx) (e : LoopEnd) (s : State) : ReqOutcome :=
  match faultsMet s.cfg ctx ws e s.freeCount, e with
  | [], .leaf l => translatedOutcome s.cfg ctx ws.req l
  | [], .unusable cause => .fault cause (entryHere ws)
  | f :: fs, _ =>
    let g := pick (Config.draw s.freeCount) f (f :: fs)
    .fault g.1 g.2

/-- A walk's end makes the request Done with its outcome, logs a fault, counts a draw, and changes nothing else. -/
theorem endWalk_eq (k : Nat) (ws : Walk) (ctx : Ctx) (e : LoopEnd) (s : State) :
    endWalk k ws ctx e s =
      { s with
        walks := s.walks.set k { ws with phase := .done (endOutcome ws ctx e s) }
        faultLog := s.faultLog ++ recordsOf ws.req (endOutcome ws ctx e s)
        freeCount := s.freeCount + 1 } := by
  unfold endWalk endOutcome
  generalize faultsMet s.cfg ctx ws e s.freeCount = fs
  cases fs with
  | nil => cases e <;> simp [countDraw, setWalk, raiseFault, translatedOutcome, recordsOf]
  | cons f fs => rfl

/-- Under walk_order an unusable entry faults with its own cause (R149). -/
theorem endOutcome_unusable (ws : Walk) (ctx : Ctx) (cause : Cause) (s : State) (h : s.cfg.faultChoice = .walkOrder) :
    endOutcome ws ctx (.unusable cause) s = .fault cause (entryHere ws) := by
  simp [endOutcome, faultsMet, h, walkCause]

/-- Under walk_order a leaf translates when the rights permit the request, and denies it when they do not (R98, R146). -/
theorem endOutcome_leaf (ws : Walk) (ctx : Ctx) (l : Leaf) (s : State) (h : s.cfg.faultChoice = .walkOrder) :
    endOutcome ws ctx (.leaf l) s =
      if permitted ws.req.kind ws.allR ws.allW then translatedOutcome s.cfg ctx ws.req l
      else .fault (deniedCause ws.req.kind) (entryHere ws) := by
  by_cases hp : permitted ws.req.kind ws.allR ws.allW = true
  · simp [endOutcome, faultsMet, h, denial, hp]
  · simp [endOutcome, faultsMet, h, denial, hp]

/-- Under any_applicable a leaf translates exactly when the address is within the width and the rights permit (R149). -/
theorem endOutcome_leaf_any (ws : Walk) (ctx : Ctx) (l : Leaf) (s : State) (h : s.cfg.faultChoice = .anyApplicable)
    (hw : beyondWidth s.cfg ctx ws.req.ia = false) (hp : permitted ws.req.kind ws.allR ws.allW = true) :
    endOutcome ws ctx (.leaf l) s = translatedOutcome s.cfg ctx ws.req l := by
  simp [endOutcome, faultsMet, h, walkCause, denial, hw, hp]

/-- Where faults are met, the outcome is one of them (R149). -/
theorem endOutcome_mem (ws : Walk) (ctx : Ctx) (e : LoopEnd) (s : State)
    (h : faultsMet s.cfg ctx ws e s.freeCount ≠ []) :
    ∃ f ∈ faultsMet s.cfg ctx ws e s.freeCount, endOutcome ws ctx e s = .fault f.1 f.2 := by
  unfold endOutcome
  generalize faultsMet s.cfg ctx ws e s.freeCount = fs at h ⊢
  cases fs with
  | nil => exact absurd rfl h
  | cons f fs => exact ⟨_, pick_mem (Config.draw s.freeCount) f (f :: fs) (by simp), rfl⟩

/-- Under any_applicable the faults met are the set A(req) of R149. -/
theorem mem_faultsMet_any (c : Config) (ctx : Ctx) (ws : Walk) (e : LoopEnd) (n : Nat) (f : Cause × FaultInfo)
    (h : c.faultChoice = .anyApplicable) :
    f ∈ faultsMet c ctx ws e n ↔
      (f = (.addrBeyondWidth, .input ws.req.ia) ∧ beyondWidth c ctx ws.req.ia = true) ∨ f ∈ walkCause ws e ∨
        f ∈ denial ws e n := by
  simp only [faultsMet, h]
  cases beyondWidth c ctx ws.req.ia <;> simp

/-- A denial is met exactly where the rights met so far lack one that the request needs, and it has the cause of its kind
(R117, R146). -/
theorem mem_denial (ws : Walk) (e : LoopEnd) (n : Nat) (f : Cause × FaultInfo) (h : f ∈ denial ws e n) :
    permitted ws.req.kind ws.allR ws.allW = false ∧ f.1 = deniedCause ws.req.kind ∧
      (∀ l, e = .leaf l → f.2 = entryHere ws) := by
  unfold denial at h
  split at h
  · cases h
  · next hp =>
    cases e with
    | unusable cause => simp only [List.mem_singleton] at h; rw [h]; exact ⟨by simpa using hp, rfl, fun l hl => by cases hl⟩
    | leaf l => simp only [List.mem_singleton] at h; rw [h]; exact ⟨by simpa using hp, rfl, fun _ _ => rfl⟩

/-! ### Entries (R60, R96) -/

/-- The meaning of an entry acts where the current walk stands at a level of that entry. -/
theorem onEntry_at (levels : List Level) (s : State) (f : Walk → Ctx → State) (ws : Walk) (ctx : Ctx)
    (h : currentWalk s = some (ws, ctx)) (hl : ws.level ∈ levels) : onEntry levels s f = .next (f ws ctx) := by
  simp [onEntry, h, hl]

/-- If the meaning of an entry answers a next state, a walk stood at a level of that entry. -/
theorem onEntry_next (levels : List Level) (s t : State) (f : Walk → Ctx → State) (h : onEntry levels s f = .next t) :
    ∃ ws ctx, currentWalk s = some (ws, ctx) ∧ ws.level ∈ levels ∧ t = f ws ctx := by
  unfold onEntry at h
  split at h
  · next ws ctx hc =>
    split at h
    · next hl => cases h; exact ⟨ws, ctx, hc, hl, rfl⟩
    · cases h
  · cases h

theorem currentWalk_eq (s : State) (ws : Walk) (ctx : Ctx) (h : s.walks[s.cur]? = some ws) (hp : ws.phase = .walk ctx) :
    currentWalk s = some (ws, ctx) := by
  simp [currentWalk, h, hp]

theorem currentWalk_some (s : State) (ws : Walk) (ctx : Ctx) (h : currentWalk s = some (ws, ctx)) :
    s.walks[s.cur]? = some ws ∧ ws.phase = .walk ctx := by
  unfold currentWalk at h
  split at h
  · split at h
    · simp only [Option.some.injEq, Prod.mk.injEq] at h
      obtain ⟨rfl, rfl⟩ := h
      exact ⟨by assumption, by assumption⟩
    all_goals cases h
  · cases h

/-- On entry rows `exec` is the meaning of the entry. -/
theorem exec_eq_runEntry (i : Instr) (s : State) (h : i.isEntry = true) : exec i s = runEntry i s := by
  cases i <;> first | rfl | cases h

/-- Every instruction the entry decoder gives is an entry row. -/
theorem decodeEntry_isEntry (c : Config) (L : Level) (e : Word64) (i : Instr) (h : decodeEntry c L e = .ok i) :
    i.isEntry = true := by
  unfold decodeEntry at h
  split at h
  · cases h; rfl
  · split at h
    · cases h
    · cases h
      unfold usableEntry
      cases L
      · rfl
      · simp only; split <;> rfl
      · simp only; split <;> rfl
      · rfl

/-- A step of the hardware gives an entry to `exec` or to its meaning alike. -/
theorem walkStep_exec (k : Nat) (ws : Walk) (ctx : Ctx) (s : State) :
    walkStep exec k ws ctx s = walkStep runEntry k ws ctx s := by
  simp only [walkStep]
  cases memRead64 s (entryAddr ws.base ws.req.ia ws.level) with
  | none => rfl
  | some e =>
    cases hd : decodeEntry s.cfg ws.level e with
    | error r => simp only [hd]
    | ok i => simp only [hd]; exact exec_eq_runEntry i _ (decodeEntry_isEntry _ _ _ _ hd)

/-- A step of the hardware is the same whether entries go to `exec` or to their meanings. -/
theorem hwStep_exec (k : Nat) (s : State) : hwStep exec k s = hwStep runEntry k s := by
  unfold hwStep
  split
  · rfl
  · split
    · rfl
    · rfl
    · exact walkStep_exec _ _ _ _
    · rfl

/-! ### One entry read (R96) -/

@[simp] theorem readNoted_walk (k : Nat) (ws : Walk) (ctx : Ctx) (a : Word64) (s : State) (h : s.walks[k]? = some ws) :
    (s.walks.set k (noteRead s ws (.slEntry ws.level a) (memTypeOf ws.req ctx .slEntry)))[k]? =
      some (noteRead s ws (.slEntry ws.level a) (memTypeOf ws.req ctx .slEntry)) := by
  have hk : k < s.walks.length := by
    by_contra hc
    rw [List.getElem?_eq_none (by omega)] at h
    cases h
  simp [hk]

/-- The effect of one entry read, by what `MemRead64` returns and how the value is classified (R96). -/
def entryEffect (k : Nat) (ws : Walk) (ctx : Ctx) (c : Config) (s : State) : Option Word64 → State
  | none => endWalk k ws ctx (.unusable .slAccessError) s
  | some e =>
    let ws' := accumulate ws (fieldR c e) (fieldW c e)
    match classify c ws.level e with
    | .notPresent => endWalk k ws ctx (.unusable .slNotPresent) s
    | .reserved => endWalk k ws ctx (.unusable .slReserved) s
    | .table => setWalk k { ws' with base := frameBase (fieldAddr e), level := nextLevel ws.level } s
    | .leaf1G =>
      endWalk k ws' ctx (.leaf ⟨finalAddr1G (fieldPage1G e) ws.req.ia, .size1G, fieldSnp c e, fieldTm c e⟩) s
    | .leaf2M =>
      endWalk k ws' ctx (.leaf ⟨finalAddr2M (fieldPage2M e) ws.req.ia, .size2M, fieldSnp c e, fieldTm c e⟩) s
    | .leaf4K =>
      endWalk k ws' ctx (.leaf ⟨finalAddr4K (fieldAddr e) ws.req.ia, .size4K, fieldSnp c e, fieldTm c e⟩) s

/-- An entry that is decoded at the level of the current walk has the effect of its class (R85, R96). -/
theorem runEntry_decoded (s : State) (ws : Walk) (ctx : Ctx) (c : Config) (e : Word64) (i : Instr)
    (hcur : currentWalk s = some (ws, ctx)) (hi : decodeEntry c ws.level e = .ok i) :
    runEntry i s = .next (entryEffect s.cur ws ctx c s (some e)) := by
  unfold decodeEntry at hi
  cases hn : (!fieldR c e && !fieldW c e) with
  | true =>
    rw [hn, if_pos rfl] at hi
    cases hi
    have hcls : classify c ws.level e = .notPresent := by simp [classify, hn]
    have hl : ws.level ∈ ([.l4, .l3, .l2, .l1] : List Level) := by cases ws.level <;> decide
    simp only [runEntry, execSlEntryNotPresent, entryEffect, hcls, onEntry_at _ _ _ _ _ hcur hl]
  | false =>
    rw [hn, if_neg (by decide)] at hi
    cases hc : rsvdClause c ws.level e with
    | some cl => rw [hc] at hi; cases hi
    | none =>
      rw [hc] at hi
      cases hi
      cases hl : ws.level <;> rw [hl] at hc <;> unfold usableEntry
      case l4 =>
        simp [runEntry, execSlPml4e, onEntry, hcur, hl, entryEffect, classify, hn, rsvdSet, hc, descend, nextLevel]
      case l3 =>
        cases hps : fieldPs c e
        · simp [runEntry, execSlPdpeTable, onEntry, hcur, hl, entryEffect, classify, hn, rsvdSet, hc, descend, nextLevel,
            hps]
        · simp [runEntry, execSlPdpePage1g, onEntry, hcur, hl, entryEffect, classify, hn, rsvdSet, hc, hps]
      case l2 =>
        cases hps : fieldPs c e
        · simp [runEntry, execSlPdeTable, onEntry, hcur, hl, entryEffect, classify, hn, rsvdSet, hc, descend, nextLevel,
            hps]
        · simp [runEntry, execSlPdePage2m, onEntry, hcur, hl, entryEffect, classify, hn, rsvdSet, hc, hps]
      case l1 => simp [runEntry, execSlPte, onEntry, hcur, hl, entryEffect, classify, hn, rsvdSet, hc]

/-- An entry that the decoder rejects is one that sets a reserved bit (R72, R85). -/
theorem classify_of_reject (c : Config) (L : Level) (e : Word64) (r : Reject) (h : decodeEntry c L e = .error r) :
    classify c L e = .reserved := by
  unfold decodeEntry at h
  unfold classify
  cases hn : (!fieldR c e && !fieldW c e) with
  | true => rw [hn, if_pos rfl] at h; cases h
  | false =>
    rw [hn, if_neg (by decide)] at h
    cases hc : rsvdClause c L e with
    | none => rw [hc] at h; cases h
    | some cl => simp [rsvdSet, hc]

/-- `WalkStep` (R96): one step in phase Walk always answers a next state, the effect of the entry read. -/
theorem walkStep_eq (k : Nat) (ws : Walk) (ctx : Ctx) (s : State) (h : s.walks[k]? = some ws)
    (hp : ws.phase = .walk ctx) :
    walkStep runEntry k ws ctx s =
      .next (entryEffect k
        (noteRead s ws (.slEntry ws.level (entryAddr ws.base ws.req.ia ws.level)) (memTypeOf ws.req ctx .slEntry)) ctx
        s.cfg (readNoted k ws ctx (entryAddr ws.base ws.req.ia ws.level) s)
        (memRead64 s (entryAddr ws.base ws.req.ia ws.level))) := by
  have hw := readNoted_walk k ws ctx (entryAddr ws.base ws.req.ia ws.level) s h
  have hcur := currentWalk_eq (readNoted k ws ctx (entryAddr ws.base ws.req.ia ws.level) s) _ ctx hw hp
  simp only [walkStep]
  cases memRead64 s (entryAddr ws.base ws.req.ia ws.level) with
  | none => simp [unusableStep, hw, entryEffect]
  | some e =>
    cases hd : decodeEntry s.cfg ws.level e with
    | error r => simp [hd, unusableStep, hw, entryEffect, classify_of_reject _ _ _ _ hd]
    | ok i => simp only [hd]; exact runEntry_decoded _ _ ctx s.cfg e i hcur hd

/-- One step of the hardware on a request in its walk (R96). -/
theorem hwStep_walk (k : Nat) (ws : Walk) (ctx : Ctx) (s : State) (h : s.walks[k]? = some ws)
    (hp : ws.phase = .walk ctx) : hwStep runEntry k s = walkStep runEntry k ws ctx s := by
  simp [hwStep, h, hp]

/-- One step of the hardware on a request in phase Lookup (R24). -/
theorem hwStep_lookup (k : Nat) (ws : Walk) (s : State) (h : s.walks[k]? = some ws) (hp : ws.phase = .lookup) :
    hwStep runEntry k s = .next (lookupStep k ws s) := by
  simp [hwStep, h, hp]

/-- One step of the hardware on a request in phase Check (R94, R95). -/
theorem hwStep_check (k : Nat) (ws : Walk) (ctx : Ctx) (s : State) (h : s.walks[k]? = some ws)
    (hp : ws.phase = .check ctx) : hwStep runEntry k s = checkStep k ws ctx s := by
  simp [hwStep, h, hp]

/-- A request that is over asks for no step (R177). -/
theorem hwStep_done (k : Nat) (ws : Walk) (o : ReqOutcome) (s : State) (h : s.walks[k]? = some ws)
    (hp : ws.phase = .done o) : hwStep runEntry k s = .next s := by
  simp [hwStep, h, hp]

/-- The memory type of the reads made before the context record is known is what R135 gives for every record (R130, R132,
R133). -/
theorem memTypeOf_rootOrCtx (q : Request) (ctx : Ctx) : memTypeOf q ctx .rootOrCtxEntry = rootOrCtxMemType q := by
  cases h : q.inCoherencyDomain <;> simp [memTypeOf, rootOrCtxMemType, h]

/-- A read of an entry rests on the configuration, memory, the caches and the count of draws alone (R52, R56). -/
theorem memRead64_same (s t : State) (a : Word64) (n : Nat) (hc : t.cfg = s.cfg) (hm : t.mem = s.mem)
    (hh : t.hist = s.hist) : memRead64 { t with freeCount := n } a = memRead64 { s with freeCount := n } a := by
  simp only [memRead64, histOf, hc, hm, hh]

/-- `Classify` gives no table at level 1 (R85). -/
theorem classify_l1_ne_table (c : Config) (e : Word64) : classify c .l1 e ≠ .table := by
  unfold classify
  split
  · simp
  · split <;> simp

/-! ### Consecutive steps on one request (R99) -/

/-- Steps after one that answers a next state go on from there. -/
theorem hwSteps_next (run : Instr → State → Out) (k n : Nat) (s t : State) (h : hwStep run k s = .next t) :
    hwSteps run k (n + 1) s = hwSteps run k n t := by
  rw [hwSteps, h]

/-- A step that is refused ends the run of steps. -/
theorem hwSteps_refused (run : Instr → State → Out) (k n : Nat) (s : State) (r : Refusal) (h : hwStep run k s = .refused r) :
    hwSteps run k (n + 1) s = .refused r := by
  rw [hwSteps, h]

/-- Steps on a request that is over change nothing (R177). -/
theorem hwSteps_done (k n : Nat) (ws : Walk) (o : ReqOutcome) (s : State) (h : s.walks[k]? = some ws)
    (hp : ws.phase = .done o) : hwSteps runEntry k n s = .next s := by
  induction n with
  | zero => rfl
  | succ n ih => rw [hwSteps_next _ _ _ _ _ (hwStep_done k ws o s h hp), ih]

/-! ### Walks in good standing (R43, R92, R94, R103) -/

/-- What a walk in phase Walk must satisfy. -/
theorem walk_wf_iff (c : Config) (ws : Walk) (ctx : Ctx) (h : ws.phase = .walk ctx) :
    ws.wf c = true ↔
      agawAdmitted c ctx.agaw = true ∧ ws.level.num ≤ levelsOfAgaw ctx.agaw ∧ ws.base.toNat % 4096 = 0 ∧
        ws.base.toNat < 2 ^ 52 ∧ (c.faultChoice = .anyApplicable ∨ beyondWidth c ctx ws.req.ia = false) := by
  simp only [Walk.wf, h, Bool.and_eq_true, decide_eq_true_eq, Bool.or_eq_true, beq_iff_eq, Bool.not_eq_true', and_assoc]

/-- The base that a frame number gives is 4-KByte aligned and below 2^52 (R43, R62). -/
theorem frameBase_aligned (f : Frame) : (frameBase f).toNat % 4096 = 0 ∧ (frameBase f).toNat < 2 ^ 52 := by
  have h : (frameBase f).toNat = f.toNat * 4096 := by
    unfold frameBase
    rw [BitVec.toNat_setWidth, BitVec.toNat_append]
    simp only [BitVec.ofNat_eq_ofNat, BitVec.toNat_ofNat, Nat.zero_mod, Nat.or_zero, Nat.shiftLeft_eq]
    have := f.isLt
    omega
  have := f.isLt
  omega

end Sys2Proof.Machine
end

