-- ==== Sys2Proof/Tests/Slice0.lean ====
section
/-! SUPPORT. Tests whose expected results come from spec/95_test_vectors.md (the vector's name stands in each docstring) or
are written out by hand from spec/opcode_table.json, and one witness for each statement that has hypotheses. -/

namespace Sys2Proof.Tests

open Sys2Proof.Machine

set_option Elab.async false

/-! ### Configurations and images of 95_test_vectors.md -/

/-- Configuration B, with the platform of Program 2: 1 GByte of memory at 0. -/
def cfgB : Config where
  cap := { mgaw := 39, sagaw39 := true, sagaw48 := true, sllps2M := false, sllps1G := false }
  ecap := { c := false, sc := false, dt := false }
  haw := 39
  pos := Config.a.pos
  byteOrder := .little
  backed := .ranges [(0, 0x40000000)]
  largeLeafRsvd := false
  faultChoice := .walkOrder

/-- Configuration A0. -/
def cfgA0 : Config := { Config.a with ecap := { c := true, sc := false, dt := false } }

/-- Configuration AL. -/
def cfgAL : Config := { cfgA0 with largeLeafRsvd := true }

/-- Configuration H52. -/
def cfgH52 : Config := { Config.a with haw := 52 }

/-- Configuration A with FAULT_CHOICE = any_applicable. -/
def cfgAny : Config := { Config.a with faultChoice := .anyApplicable }

/-- The context record of section 6, and of device X of Program 5. -/
def ctxX : Ctx := { extended := false, slptptr := 0x100, agaw := 48, cd := false }

/-- The context record of device Y of Program 5. -/
def ctxY : Ctx := { extended := true, slptptr := 0x101, agaw := 39, cd := true }

/-- Store one entry in memory, caches untouched: a memory image before launch. -/
def poke (a : Nat) (e : Word64) (s : State) : State :=
  { s with mem := memWriteBytes s.mem a (bytesOfEntry s.cfg.byteOrder e) }

/-- The launch state with the devices of Program 5: source 0 is X, 1 is Y, 2 is Z. -/
def launch : State :=
  { State.reset with ctxTable := [(0, [.ok ctxX]), (1, [.ok ctxY]), (2, [.ctxNotPresent])] }

/-- The image of Program 1, which holds that of W1. -/
def image1 : State :=
  poke 0x100120 0x101003 <| poke 0x101688 0x102003 <| poke 0x101690 0x2C0000083 <| poke 0x102598 0x103003 <|
    poke 0x1025A0 0x44200881 <| poke 0x103C48 0x876543803 <| poke 0x103C50 0x876544002 launch

/-- Part of the image of Program 2, with its context record. -/
def image2 : State :=
  poke 0x200000 0x201003 <| poke 0x200008 0x40000083 <| poke 0x200018 0x7FFFFFF003 <| poke 0x201000 0x202003 <|
    poke 0x202000 0x300003
      { State.reset with
        cfg := cfgB
        ctxTable := [(0, [.ok { extended := true, slptptr := 0x200, agaw := 39, cd := true }])] }

/-- The input address of section 6. -/
def iaW : Word64 := 0x0000123456789ABC

/-- A request of device X inside the coherency domain. -/
def reqX (kind : Kind) (ia : Word64) (ns : Bool) : Request :=
  { kind := kind, ia := ia, noSnoop := ns, inCoherencyDomain := true, source := 0 }

/-- The phase of the request at a place after a step. -/
def phaseAfter (k : Nat) (o : Out) : Option Phase :=
  match o with
  | .next t => t.phaseAt k
  | .fault _ => none
  | .refused _ => none

/-- The fault log after a step. -/
def logAfter (o : Out) : Option (List FaultRecord) :=
  match o with
  | .next t => some t.faultLog
  | .fault _ => none
  | .refused _ => none

/-- Hist at an address after a step. -/
def histAfter (a : Nat) (o : Out) : Option (List Word64) :=
  match o with
  | .next t => some (histOf t a)
  | .fault _ => none
  | .refused _ => none

/-- Why a step stopped. -/
def stopOf (o : Out) : Option (Fault ⊕ Refusal) :=
  match o with
  | .next _ => none
  | .fault r => some (.inl r)
  | .refused r => some (.inr r)

/-- The state after a step. -/
def stateAfter (o : Out) : Option State :=
  match o with
  | .next t => some t
  | .fault _ => none
  | .refused _ => none

/-- A step answers a next state. -/
def answers (o : Out) : Bool :=
  match o with
  | .next _ => true
  | .fault _ => false
  | .refused _ => false

theorem answers_next (o : Out) (h : answers o = true) : ∃ t, o = .next t := by
  cases o with
  | next t => exact ⟨t, rfl⟩
  | fault r => cases h
  | refused r => cases h

/-- A request of X that stands in its walk at a level, its table at a base. -/
def walkAt (kind : Kind) (L : Level) (base : Word64) : Walk :=
  { Walk.start (reqX kind iaW false) with phase := .walk ctxX, level := L, base := base }

/-- The image of Program 1 with that walk as the current one. -/
def inWalk (kind : Kind) (L : Level) (base : Word64) : State := { image1 with walks := [walkAt kind L base] }

/-! ### Well-formedness: an ill-formed term for each check -/

theorem test_wf_of_configurations : [Config.a, cfgB, cfgA0, cfgAL, cfgH52].map Config.wf = [true, true, true, true, true] := by
  decide

theorem test_illformed_configurations :
    [{ Config.a with cap := { Config.a.cap with mgaw := 0 } }, { Config.a with cap := { Config.a.cap with mgaw := 65 } },
     { Config.a with haw := 12 }, { Config.a with haw := 53 }, { Config.a with pos := { Config.a.pos with w := 0 } },
     { Config.a with pos := { Config.a.pos with ps := 12 } }, { Config.a with pos := { Config.a.pos with tm := 51 } },
     { Config.a with pos := { Config.a.pos with tm := 64 } }].map Config.wf =
      [false, false, false, false, false, false, false, false] := by
  decide

theorem test_wellformed_entries :
    [Instr.slEntryNotPresent 0xFFFFFFFFFFFFFFFC, .slPml4e true false 0x101 0x8FF000000000077C,
     .slPdpePage1g true true true true 0x2C 0, .slPdePage2m false true true true 0x3FF 0,
     .slPte true true true true 0x3FFFFFFFF 0x80, .read iaW true false 7].map (Instr.wf Config.a) =
      [true, true, true, true, true, true] := by
  decide

/-- R = W = 0; ADDR above HAW; an ignored bit that is ADDR, R, W, PS, SNP or TM. -/
theorem test_illformed_tables :
    [Instr.slPml4e false false 0x101 0, .slPdpeTable true true 0x400000000 0, .slPdeTable true true 0x101 0x1000,
     .slPml4e true true 0x101 1, .slPml4e true true 0x101 2, .slPdpeTable true true 0x101 0x80,
     .slPdeTable true true 0x101 0x800, .slPdeTable true true 0x101 0x4000000000000000].map (Instr.wf Config.a) =
      [false, false, false, false, false, false, false, false] := by
  decide

/-- A not-present entry with R, and one with W; R = W = 0 in each leaf; a page above HAW in each leaf. -/
theorem test_illformed_entries :
    [Instr.slEntryNotPresent 1, .slEntryNotPresent 2, .slPte false false false false 0x1 0,
     .slPdePage2m false false false false 0x1 0, .slPdpePage1g false false false false 0x1 0,
     .slPte true true false false 0x400000000 0, .slPdePage2m true true false false 0x2000000 0,
     .slPdpePage1g true true false false 0x10000 0].map (Instr.wf Config.a) =
      [false, false, false, false, false, false, false, false] := by
  decide

/-- A page size or an attribute that the capabilities do not report. -/
theorem test_illformed_by_capability :
    ([Instr.slPdpePage1g true true false false 0xB 0, .slPdePage2m true true false false 0x221 0,
      .slPte true true true false 0x1 0, .slPte true true false true 0x1 0].map (Instr.wf cfgB) ++
     [Instr.slPdpePage1g true true true false 0xB 0, .slPdpePage1g true true false true 0xB 0,
      .slPdePage2m true true true false 0x221 0, .slPdePage2m true true false true 0x221 0].map (Instr.wf cfgAL)) =
      [false, false, false, false, false, false, false, false] := by
  decide

/-! ### Words written out bit by bit from the encodings of spec/opcode_table.json -/

/-- SL-ENTRY.NOT_PRESENT `x…x00`: every other bit 1, at every level. -/
theorem test_word_not_present :
    ∀ L ∈ [Level.l4, .l3, .l2, .l1], decodeEntry Config.a L
        0b1111111111111111111111111111111111111111111111111111111111111100 =
      .ok (.slEntryNotPresent 0xFFFFFFFFFFFFFFFC) := by
  decide +kernel

/-- SL-PML4E `x0xxxxxxxxxxa…a0xxx0xxxxxwr`, ADDR 0x101, W and R. -/
theorem test_word_pml4e :
    decodeEntry Config.a .l4 0b0000000000000000000000000000000000000000000100000001000000000011 =
      .ok (.slPml4e true true 0x101 0) := by
  decide +kernel

/-- SL-PDPE.TABLE, ADDR 0x102, R alone. -/
theorem test_word_pdpe_table :
    decodeEntry Config.a .l3 0b0000000000000000000000000000000000000000000100000010000000000001 =
      .ok (.slPdpeTable true false 0x102 0) := by
  decide +kernel

/-- SL-PDPE.PAGE1G `xtx…a…a0…0sxxx1xxxxxwr`, bits 51:30 = 11, T and S set, W alone. -/
theorem test_word_pdpe_page1g :
    decodeEntry Config.a .l3 0b0100000000000000000000000000001011000000000000000000100010000010 =
      .ok (.slPdpePage1g false true true true 0xB 0) := by
  decide +kernel

/-- SL-PDE.TABLE, ADDR 0x103, W alone, bits 63 and 52 ignored. -/
theorem test_word_pde_table :
    decodeEntry Config.a .l2 0b1000000000010000000000000000000000000000000100000011000000000010 =
      .ok (.slPdeTable false true 0x103 0x8010000000000000) := by
  decide +kernel

/-- SL-PDE.PAGE2M, bits 51:21 = 0x221, S set, R alone. -/
theorem test_word_pde_page2m :
    decodeEntry Config.a .l2 0b0000000000000000000000000000000001000100001000000000100010000001 =
      .ok (.slPdePage2m true false true false 0x221 0) := by
  decide +kernel

/-- SL-PTE, ADDR 0x876543, T, the bit at PS_BIT ignored, W and R. -/
theorem test_word_pte :
    decodeEntry Config.a .l1 0b0100000000000000000000000000100001110110010101000011000010000011 =
      .ok (.slPte true true false true 0x876543 0x80) := by
  decide +kernel

/-- A request row has no word (R87, R89). -/
theorem test_no_word_for_requests :
    encodeEntry Config.a (.read iaW false true 0) = none ∧ encodeEntry Config.a (.write iaW false true 0) = none ∧
      encodeEntry Config.a (.atomic iaW false true 0) = none ∧ decodeTableWord 0 0 = none := by
  decide

/-- The encoder, against the entry values of Program 1. -/
theorem test_encode_program1 :
    [Instr.slPml4e true true 0x101 0, .slPdpePage1g true true false false 0xB 0, .slPdePage2m true false true false 0x221 0,
     .slPte true true true false 0x876543 0, .slPte false true false false 0x876544 0].map (encodeEntry Config.a) =
      [some 0x101003, some 0x2C0000083, some 0x44200881, some 0x876543803, some 0x876544002] := by
  decide +kernel

/-- Program 1: "addresses 0x100120 to 0x100127 hold 03 10 10 00 00 00 00 00"; BYTE_ORDER = big mirrors them (R42). -/
theorem test_bytes_of_entry :
    bytesOfEntry .little 0x101003 = [0x03, 0x10, 0x10, 0, 0, 0, 0, 0] ∧
      bytesOfEntry .big 0x101003 = [0, 0, 0, 0, 0, 0x10, 0x10, 0x03] ∧
      decodeBytes Config.a .l4 [0x03, 0x10, 0x10, 0, 0, 0, 0, 0, 0xAA] = .ok (.slPml4e true true 0x101 0, [0xAA]) ∧
      decodeBytes Config.a .l4 [0x03, 0x10, 0x10, 0, 0, 0, 0] = .error .truncated := by
  decide +kernel

/-- The rows as the host lays them out: a word says its level only by what it can be used for (log 20). -/
theorem test_table_words :
    decodeTableWord 64 0x101003 = some (.slPml4e true true 0x101 0) ∧
      decodeTableWord 64 0x2C0000083 = some (.slPdpePage1g true true false false 0xB 0) ∧
      decodeTableWord 64 0x44200083 = some (.slPdePage2m true true false false 0x221 0) ∧
      decodeTableWord 64 0x876543803 = some (.slPte true true true false 0x876543 0) ∧
      decodeTableWord 64 0 = some (.slEntryNotPresent 0) := by
  decide +kernel

/-- The very next step runs the word placed. -/
theorem test_fetch_word :
    phaseAfter 0 (step (State.reset.withFetchWord 64 0x101003)) = some (.walk tableWordCtx) ∧
      phaseAfter 0 (step (State.reset.withFetchWord 64 0x876543801)) =
        some (.done (.translated 0x876543000 .size4K true .wb false)) ∧
      phaseAfter 0 (step (State.reset.withFetchWord 64 0)) = some (.done (.fault .slNotPresent (.entry .l4 0))) := by
  decide +kernel

/-! ### Classification (section 7) -/

/-- The columns A, B, A0, AL, H52 of one row. -/
def classes (L : Level) (e : Word64) : List EntryClass := [Config.a, cfgB, cfgA0, cfgAL, cfgH52].map (fun c => classify c L e)

/-- A row whose five columns agree. -/
def same (k : EntryClass) : List EntryClass := [k, k, k, k, k]

/-- E1 to E11. -/
theorem test_classify_level4 :
    [0x0, 0xFFFFFFFFFFFFFFFC, 0x101001, 0x101002, 0x101003, 0x101083, 0x101803, 0x4000000000101003, 0x400000101003,
     0x200000101003, 0x8FF000000010177F].map (classes .l4) =
      [same .notPresent, same .notPresent, same .table, same .table, same .table, same .reserved, same .reserved,
       same .reserved, [.reserved, .reserved, .reserved, .reserved, .table], [.table, .reserved, .table, .table, .table],
       same .table] := by
  decide +kernel

/-- E12 to E21. -/
theorem test_classify_level3 :
    [0x102003, 0x2C0000083, 0x2C0001083, 0x2E0000083, 0x2C0000883, 0x40000002C0000083, 0x102803, 0x4000000000102003, 0x80,
     0x400000102003].map (classes .l3) =
      [same .table, [.leaf1G, .reserved, .leaf1G, .leaf1G, .leaf1G], same .reserved, same .reserved,
       [.leaf1G, .reserved, .leaf1G, .reserved, .leaf1G], [.leaf1G, .reserved, .leaf1G, .reserved, .leaf1G], same .reserved,
       same .reserved, same .notPresent, [.reserved, .reserved, .reserved, .reserved, .table]] := by
  decide +kernel

/-- E22 to E29. -/
theorem test_classify_level2 :
    [0x103003, 0x44200083, 0x44201083, 0x44300083, 0x44200883, 0x4000000044200083, 0x4000000000103003,
     0x103803].map (classes .l2) =
      [same .table, [.leaf2M, .reserved, .leaf2M, .leaf2M, .leaf2M], same .reserved, same .reserved,
       [.leaf2M, .reserved, .leaf2M, .reserved, .leaf2M], [.leaf2M, .reserved, .leaf2M, .reserved, .leaf2M], same .reserved,
       same .reserved] := by
  decide +kernel

/-- E30 to E38. -/
theorem test_classify_level1 :
    [0x876543003, 0x876543083, 0x876543001, 0x876543002, 0x876543803, 0x4000000876543003, 0x8876543003, 0x876543800,
     0x400876543003].map (classes .l1) =
      [same .leaf4K, same .leaf4K, same .leaf4K, same .leaf4K, [.leaf4K, .reserved, .reserved, .reserved, .leaf4K],
       [.leaf4K, .reserved, .reserved, .reserved, .leaf4K], [.leaf4K, .reserved, .leaf4K, .leaf4K, .leaf4K],
       same .notPresent, [.reserved, .reserved, .reserved, .reserved, .leaf4K]] := by
  decide +kernel

/-! ### Widths and addresses (sections 2 to 5) -/

/-- The table of section 2. -/
theorem test_agaw_of_gaw :
    [12, 20, 21, 22, 30, 31, 38, 39, 40, 47, 48, 49, 57, 58, 64].map agawOfGaw =
      [12, 21, 21, 30, 30, 39, 39, 39, 48, 48, 48, 57, 57, 64, 64] ∧
    [12, 21, 30, 39, 48, 57].map levelsOfAgaw = [0, 1, 2, 3, 4, 5] ∧
    [12, 21, 30, 39, 48, 57, 64].map (agawAdmitted Config.a) = [false, false, false, true, true, false, false] := by
  decide

/-- V1 to V7 (configuration A). -/
theorem test_width_check_a :
    [0x0000000000000000, 0x0000FFFFFFFFFFFF, 0x0001000000000000, 0xFFFFFFFFFFFFFFFF, 0xFFFF800000000000].map
        (beyondWidth Config.a ctxX) = [false, false, true, true, true] ∧
      [0x0000007FFFFFFFFF, 0x0000008000000000].map (beyondWidth Config.a ctxY) = [false, true] := by
  decide +kernel

/-- V8 to V10 (configuration B: MGAW below AGAW decides). -/
theorem test_width_check_b :
    [0x0000007FFFFFFFFF, 0x0000008000000000].map (beyondWidth cfgB ctxX) = [false, true] ∧
      beyondWidth cfgB ctxY 0x0000008000000000 = true := by
  decide +kernel

/-- X1, X4, X5, and the last sentence of section 4. -/
theorem test_entry_addresses :
    [Level.l4, .l3, .l2, .l1].map (entryAddr 0x100000 iaW) = [0x100120, 0x100688, 0x100598, 0x100C48] ∧
      [Level.l4, .l3, .l2, .l1].map (entryAddr 0x3FFFFFFFF000 0x0000FFFFFFFFFFFF) =
        [0x3FFFFFFFFFF8, 0x3FFFFFFFFFF8, 0x3FFFFFFFFFF8, 0x3FFFFFFFFFF8] ∧
      [Level.l4, .l3, .l2, .l1].map (entryAddr 0xFFFFFFFFFF000 0x0000FF8000000000) =
        [0xFFFFFFFFFFFF8, 0xFFFFFFFFFF000, 0xFFFFFFFFFF000, 0xFFFFFFFFFF000] ∧
      [Level.l4, .l3, .l2, .l1].map (entryAddr 0x100FFF iaW) = [Level.l4, .l3, .l2, .l1].map (entryAddr 0x100000 iaW) := by
  decide +kernel

/-- Y1 to Y6. -/
theorem test_final_addresses :
    [0x876543803, 0x3FFFFFFFF003].map (fun e => finalAddr4K (fieldAddr e) iaW) = [0x876543ABC, 0x3FFFFFFFFABC] ∧
      [0x44200083, 0x3FFFFFE00083].map (fun e => finalAddr2M (fieldPage2M e) iaW) = [0x44389ABC, 0x3FFFFFF89ABC] ∧
      [0x2C0000083, 0x3FFFC0000083].map (fun e => finalAddr1G (fieldPage1G e) iaW) = [0x2D6789ABC, 0x3FFFD6789ABC] := by
  decide +kernel

/-! ### Requests (section 6, Programs 1, 2 and 5) -/

/-- W1 = Program 1, request 1. -/
theorem test_read_translates :
    phaseAfter 0 (exec (.read iaW false true 0) image1) =
      some (.done (.translated 0x0000000876543ABC .size4K true .wb false)) := by
  decide +kernel

/-- Program 1, request 3, with its record. -/
theorem test_read_denied :
    logAfter (exec (.read 0x000012345678A010 false true 0) image1) =
      some [{ req := reqX .read 0x000012345678A010 false, cause := .readDenied, info := .entry .l1 0x103C50 }] := by
  decide +kernel

/-- Program 1, request 7. -/
theorem test_write_translates :
    phaseAfter 0 (exec (.write 0x0000123496789ABC false true 0) image1) =
      some (.done (.translated 0x00000002D6789ABC .size1G true .wb false)) := by
  decide +kernel

/-- Program 1, request 6. -/
theorem test_write_denied :
    phaseAfter 0 (exec (.write 0x0000123456989ABC false true 0) image1) =
      some (.done (.fault .writeDenied (.entry .l2 0x1025A0))) := by
  decide +kernel

/-- Program 1, request 8: no-snoop, SNP = 0 in the leaf. -/
theorem test_atomic_translates :
    phaseAfter 0 (exec (.atomic 0x0000123496789ABC true true 0) image1) =
      some (.done (.translated 0x00000002D6789ABC .size1G false .wb false)) := by
  decide +kernel

/-- Program 1, request 4. -/
theorem test_atomic_denied :
    phaseAfter 0 (exec (.atomic 0x0000123456989ABC false true 0) image1) =
      some (.done (.fault .atomicDenied (.entry .l2 0x1025A0))) := by
  decide +kernel

/-- Program 5, requests 2 to 6. -/
theorem test_program5 :
    phaseAfter 0 (exec (.read 0x0000003456789ABC false true 1) image1) =
        some (.done (.translated 0x0000000876543ABC .size4K true .uc false)) ∧
      phaseAfter 0 (exec (.read 0x0000123456789ABC false true 1) image1) =
        some (.done (.fault .addrBeyondWidth (.input 0x0000123456789ABC))) ∧
      phaseAfter 0 (exec (.write 0x0000003496789ABC false false 1) image1) =
        some (.done (.translated 0x00000002D6789ABC .size1G true .ignored false)) ∧
      phaseAfter 0 (exec (.read 0x0000123456789ABC false true 2) image1) =
        some (.done (.fault .ctxNotPresent .request)) ∧
      phaseAfter 0 (exec (.read 0x0001000000000000 false true 2) image1) =
        some (.done (.fault .ctxNotPresent .request)) := by
  decide +kernel

/-- Program 2, requests 2, 11 and 13. -/
theorem test_program2 :
    phaseAfter 0 (exec (.write 0x0000000000000ABC true true 0) image2) =
        some (.done (.translated 0x0000000000300ABC .size4K false .uc false)) ∧
      phaseAfter 0 (exec (.read 0x0000000040000000 false true 0) image2) =
        some (.done (.fault .slReserved (.entry .l3 0x200008))) ∧
      phaseAfter 0 (exec (.read 0x00000000C0000000 false true 0) image2) =
        some (.done (.fault .slAccessError (.entry .l2 0x7FFFFFF000))) := by
  decide +kernel

/-- The column "reads" of Program 1, request 5: snooped as ECAP_C is 1, WB as the context-entry is not extended; the root and
context entries are read as UC (section 9). -/
theorem test_reads_of_request5 :
    (match exec (.read 0x0000123456989ABC true true 0) image1 with
      | .next t => (t.walks[0]?).map Walk.reads
      | .fault _ => none
      | .refused _ => none) =
      some [⟨.rootOrCtx, true, .uc⟩, ⟨.slEntry .l4 0x100120, true, .wb⟩, ⟨.slEntry .l3 0x101688, true, .wb⟩,
        ⟨.slEntry .l2 0x1025A0, true, .wb⟩] := by
  decide +kernel

/-! ### Entries, each on a walk at its level -/

/-- Where the walk stands after a step: its level, base and rights. -/
def standsAfter (o : Out) : Option (Level × Word64 × Bool × Bool) :=
  match o with
  | .next t => (t.walks[0]?).map (fun ws => (ws.level, ws.base, ws.allR, ws.allW))
  | .fault _ => none
  | .refused _ => none

theorem test_pml4e : standsAfter (exec (.slPml4e true false 0x101 0) (inWalk .read .l4 0x100000)) =
    some (.l3, 0x101000, true, false) := by
  decide +kernel

theorem test_pdpe_table : standsAfter (exec (.slPdpeTable false true 0x102 0) (inWalk .read .l3 0x101000)) =
    some (.l2, 0x102000, false, true) := by
  decide +kernel

theorem test_pde_table : standsAfter (exec (.slPdeTable true true 0x103 0) (inWalk .read .l2 0x102000)) =
    some (.l1, 0x103000, true, true) := by
  decide +kernel

/-- Y3. -/
theorem test_pdpe_page1g : phaseAfter 0 (exec (.slPdpePage1g true true false true 0xB 0) (inWalk .read .l3 0x101000)) =
    some (.done (.translated 0x2D6789ABC .size1G true .wb true)) := by
  decide +kernel

/-- Y2. -/
theorem test_pde_page2m : phaseAfter 0 (exec (.slPdePage2m false true false false 0x221 0) (inWalk .write .l2 0x102000)) =
    some (.done (.translated 0x44389ABC .size2M true .wb false)) := by
  decide +kernel

/-- Y1, and the bits that reach no address (section 5). -/
theorem test_pte : phaseAfter 0 (exec (.slPte true true true false 0x876543 0x8FF0000000000000) (inWalk .read .l1 0x103000)) =
    some (.done (.translated 0x876543ABC .size4K true .wb false)) := by
  decide +kernel

/-- P6: every entry allows something, the chain allows nothing. -/
theorem test_pte_denied : phaseAfter 0 (exec (.slPte false true false false 0x876543 0) (inWalk .atomic .l1 0x103000)) =
    some (.done (.fault .atomicDenied (.entry .l1 0x103C48))) := by
  decide +kernel

/-- P7: R = W = 0 is a not-present fault, not a rights fault. -/
theorem test_not_present : phaseAfter 0 (exec (.slEntryNotPresent 0x103800) (inWalk .write .l2 0x102000)) =
    some (.done (.fault .slNotPresent (.entry .l2 0x102598))) := by
  decide +kernel

/-- What an entry is depends on the level (Program 4): SL-PTE has no meaning on a walk at level 4. -/
theorem test_entry_out_of_place :
    stopOf (exec (.slPte true true false false 0x101 0) (inWalk .read .l4 0x100000)) = some (.inr .entryOutOfPlace) ∧
      stopOf (exec (.slPml4e true true 0x101 0) State.reset) = some (.inr .entryOutOfPlace) := by
  decide +kernel

/-! ### Software, devices and the caches (Program 3) -/

/-- The state after step 2 of Program 3: software has cleared W in the SL-PTE. -/
def revoked : State := storeBytes 0x103C48 (bytesOfEntry .little 0x876543801) image1

/-- Step 2. -/
theorem test_revoke_extends_hist :
    histAfter 0x103C48 (runTurn (.write 0x103C48 (bytesOfEntry .little 0x876543801)) image1) =
      some [0x876543801, 0x876543803] := by
  decide +kernel

/-- Step 5. -/
theorem test_invalidate : histAfter 0x103C48 (runTurn .invalidate revoked) = some [0x876543801] := by
  decide +kernel

/-- Step 6. -/
theorem test_write_after_invalidate :
    phaseAfter 0 (exec (.write iaW false true 0) (invalidateCaches revoked)) =
      some (.done (.fault .writeDenied (.entry .l1 0x103C48))) := by
  decide +kernel

/-- Step 3: under either draw one of the two outcomes. -/
theorem test_write_on_stale_entry (n : Nat) :
    pick n (0x876543801 : Word64) (histOf revoked 0x103C48) = 0x876543803 ∨
      pick n (0x876543801 : Word64) (histOf revoked 0x103C48) = 0x876543801 := by
  have h : histOf revoked 0x103C48 = [0x876543801, 0x876543803] := by decide +kernel
  rw [h]
  have hn : n % 2 = 0 ∨ n % 2 = 1 := by omega
  rcases hn with hn | hn <;> simp [pick, hn]

/-- A finished request of device X with its page at the end of memory's first page. -/
def finished (kind : Kind) (pa : Word64) : State :=
  { image1 with
    walks := [{ Walk.start (reqX kind iaW false) with phase := .done (.translated pa .size4K true .wb false) }] }

/-- What a device's access leaves in four bytes of memory. -/
def bytesAfter (a : Nat) (o : Out) : Option (List Byte) :=
  match o with
  | .next t => some (memReadBytes t.mem a 4)
  | .fault _ => none
  | .refused _ => none

/-- R57, D11: a translated WRITE stores at its final address, and no byte beyond its page. -/
theorem test_device_write_stays_in_page :
    bytesAfter 0x876543FFE (runTurn (.conclude 0 [1, 2, 3, 4]) (finished .write 0x876543FFE)) = some [1, 2, 0, 0] := by
  decide +kernel

/-- R57: a translated READ gets memory's bytes. -/
theorem test_device_read :
    (match runTurn (.conclude 0 [0, 0, 0]) (finished .read 0x100120) with
      | .next t => t.accesses.map Access.data
      | .fault _ => []
      | .refused _ => []) = [[0x03, 0x10, 0x10]] := by
  decide +kernel

/-! ### Witnesses: each statement's hypotheses are met together -/

theorem image1_inv : image1.Inv where
  memory := by decide +kernel
  caches := by decide +kernel
  walks := by decide +kernel
  logged := by intro ws h; cases h

/-- Hypotheses of EveryStepKeepsTheInvariant, ConfigurationNeverChanges, FaultLogOnlyGrows and HardwareWritesNoMemory. -/
theorem witness_steps :
    ∃ s t : State, s.Inv ∧ step s = .next t ∧ s.agenda.head? = some (.process (reqX .read iaW false)) := by
  have hi : State.Inv { image1 with agenda := [.process (reqX .read iaW false)] } :=
    ⟨image1_inv.memory, image1_inv.caches, image1_inv.walks, image1_inv.logged⟩
  have hs : answers (step { image1 with agenda := [.process (reqX .read iaW false)] }) = true := by decide +kernel
  exact ⟨_, _, hi, (answers_next _ hs).choose_spec, rfl⟩

/-- Hypotheses of DecodeOfEncodeIsIdentity, one instruction of each row, at the highest addresses. -/
theorem witness_encode :
    Config.a.wf = true ∧ ∀ x ∈ [(Instr.slEntryNotPresent 0xFFFFFFFFFFFFFFFC, Level.l1), (.slPml4e true false 0x3FFFFFFFF 0, .l4),
      (.slPdpeTable false true 0x3FFFFFFFF 0, .l3), (.slPdpePage1g true true true true 0xFFFF 0, .l3),
      (.slPdeTable true true 0 0x8FF000000000077C, .l2), (.slPdePage2m true true true true 0x1FFFFFF 0, .l2),
      (.slPte true true true true 0x3FFFFFFFF 0x80, .l1)],
      x.1.wf Config.a = true ∧ x.2 ∈ x.1.levels ∧ (encodeEntry Config.a x.1).isSome = true := by
  decide +kernel

/-- Hypotheses of EncodeOfDecodeIsIdentity. -/
theorem witness_decode : Config.a.wf = true ∧ decodeEntry Config.a .l1 0x8FF0000876543083 =
    .ok (.slPte true true false false 0x876543 0x8FF0000000000080) := by
  decide +kernel

/-- Hypotheses of EntryBytesInMemory. -/
theorem witness_memory : Memory.wf image1.mem := by decide +kernel

/-- Hypotheses of UnnamedBitsAreIgnored: at level 1 the bit at PS_BIT differs too. -/
theorem witness_unnamed_bits (i : Nat)
    (h : (12 ≤ i ∧ i ≤ 51) ∨ i = Config.a.pos.r ∨ i = Config.a.pos.w ∨ i = Config.a.pos.snp ∨ i = Config.a.pos.tm ∨
      (i = Config.a.pos.ps ∧ Level.l1 ≠ .l1)) :
    (0x8FF0000876543083 : Word64).getLsbD i = (0x0000000876543003 : Word64).getLsbD i := by
  have hi : i < 64 := by
    simp only [Config.a] at h
    omega
  have key : ∀ j : Fin 64, ((12 ≤ j.val ∧ j.val ≤ 51) ∨ j.val = 0 ∨ j.val = 1 ∨ j.val = 11 ∨ j.val = 62) →
      (0x8FF0000876543083 : Word64).getLsbD j.val = (0x0000000876543003 : Word64).getLsbD j.val := by decide +kernel
  refine key ⟨i, hi⟩ ?_
  simp only [Config.a, ne_eq, not_true_eq_false, and_false, or_false] at h
  exact h

/-- Hypotheses of EntryAddressAssembly's last clause, at the largest base. -/
theorem witness_aligned_base : (0xFFFFFFFFFF000 : Word64).toNat % 4096 = 0 ∧ (0xFFFFFFFFFF000 : Word64).toNat < 2 ^ 52 := by
  decide

/-- Hypotheses of PageIsMappedAsAWhole: two addresses of the 2-MByte page of Program 1, its ends. -/
theorem witness_page :
    (mappedBy Config.a ctxX (cleanReader image1) 0x0000123456800000).map Mapped.size = some .size2M ∧
      (0x0000123456800000 : Word64).toNat / 2 ^ 21 = (0x00001234569FFFFF : Word64).toNat / 2 ^ 21 := by
  decide +kernel

/-- Hypotheses of AgawIsAdjustedUpward, at the ends of its range. -/
theorem witness_gaw : [12, 57, 58, 64].map agawOfGaw = [12, 57, 64, 64] := by decide

/-- A request of X in phase Check. -/
def inCheck (c : Config) (ia : Word64) (ctx : Ctx) : State :=
  { image1 with cfg := c, walks := [{ Walk.start (reqX .read ia false) with phase := .check ctx }] }

/-- Hypotheses of LookupFaultsEndTheRequest. -/
theorem witness_lookup :
    (issueRequest (reqX .read iaW false) image1).walks[0]? = some (Walk.start (reqX .read iaW false)) ∧
      (Walk.start (reqX .read iaW false)).phase = .lookup ∧
      contextLookup image1 (reqX .read iaW false) = .ok ctxX ∧
      contextLookup image1 { reqX .read iaW false with source := 2 } = .ctxNotPresent := by
  decide +kernel

/-- The noted read of LookupFaultsEndTheRequest: ignored outside the coherency domain (R130), UC inside it also under CD = 1
of an extended-context-entry (R132, R133). -/
theorem witness_lookup_read :
    [reqX .read iaW false, { reqX .read iaW false with source := 1 }, { reqX .read iaW false with inCoherencyDomain := false },
      { reqX .read iaW false with source := 2 }].map (fun q =>
        match hwStep exec 0 (issueRequest q image1) with
        | .next t => (t.walks[0]?).map Walk.reads
        | .fault _ => none
        | .refused _ => none) =
      [some [⟨.rootOrCtx, true, .uc⟩], some [⟨.rootOrCtx, true, .uc⟩], some [⟨.rootOrCtx, true, .ignored⟩],
        some [⟨.rootOrCtx, true, .uc⟩]] := by
  decide +kernel

/-- Hypotheses of AddressWidthCheck, each clause at the boundary, and of AnyApplicableStartsEveryWalk. -/
theorem witness_width :
    phaseAfter 0 (hwStep exec 0 (inCheck Config.a 0x0000FFFFFFFFFFFF ctxX)) = some (.walk ctxX) ∧
      phaseAfter 0 (hwStep exec 0 (inCheck Config.a 0x0001000000000000 ctxX)) =
        some (.done (.fault .addrBeyondWidth (.input 0x0001000000000000))) ∧
      phaseAfter 0 (hwStep exec 0 (inCheck Config.a 0x0000007FFFFFFFFF ctxY)) = some (.walk ctxY) ∧
      phaseAfter 0 (hwStep exec 0 (inCheck cfgAny 0x0001000000000000 ctxX)) = some (.walk ctxX) := by
  decide +kernel

/-- Hypotheses of UnsupportedAgawIsRefused: an AGAW of neither width, and one that is not in SAGAW. -/
theorem witness_unsupported_agaw :
    stopOf (hwStep exec 0 (inCheck Config.a iaW { ctxX with agaw := 57 })) = some (.inr (.unsupportedAgaw 57)) ∧
      stopOf (hwStep exec 0 (inCheck { Config.a with cap := { Config.a.cap with sagaw39 := false } } iaW ctxY)) =
        some (.inr (.unsupportedAgaw 39)) := by
  decide +kernel

/-- Hypotheses of TableEntriesDescend, EntryReadAttributes and WalkStepMakesProgress, at each level of a table. -/
theorem witness_walks :
    ∀ L ∈ [Level.l4, .l3, .l2, .l1], (inWalk .read L 0x100000).walks[(inWalk .read L 0x100000).cur]? =
      some (walkAt .read L 0x100000) ∧ (walkAt .read L 0x100000).phase = .walk ctxX ∧ (walkAt .read L 0x100000).level = L := by
  decide +kernel

/-- Hypotheses of LeafEntriesTranslatePermittedRequests and LeafEntriesDenyOtherRequests, for each leaf row. -/
theorem witness_leaves :
    (inWalk .read .l1 0x103000).cfg.faultChoice = .walkOrder ∧
    ∀ i ∈ [Instr.slPdpePage1g true false false false 0xB 0, .slPdePage2m true false false false 0x221 0,
      .slPte true false false false 0x876543 0], ∃ f, leafForm iaW i = some f ∧
        (walkAt .read f.level 0x103000).level = f.level ∧ permitted .read (true && f.r) (true && f.w) = true ∧
        permitted .write (true && f.r) (true && f.w) = false := by
  refine ⟨rfl, ?_⟩
  intro i hi
  simp only [List.mem_cons, List.not_mem_nil, or_false] at hi
  rcases hi with rfl | rfl | rfl <;> exact ⟨_, rfl, rfl, rfl, rfl⟩

/-- Hypotheses of LeafEntriesUnderAnyApplicable, of both its clauses. -/
theorem witness_leaves_any :
    phaseAfter 0 (exec (.slPte true true true false 0x876543 0) { inWalk .read .l1 0x103000 with cfg := cfgAny }) =
        some (.done (.translated 0x876543ABC .size4K true .wb false)) ∧
      phaseAfter 0 (exec (.slPte true false true false 0x876543 0) { inWalk .write .l1 0x103000 with cfg := cfgAny }) =
        some (.done (.fault .writeDenied (.entry .l1 0x103C48))) := by
  decide +kernel

/-- A walk of device X for an input address one beyond the 48 bits of configuration A, under any_applicable. -/
def beyondWalk (kind : Kind) (L : Level) (base : Word64) : State :=
  { image1 with cfg := cfgAny, walks := [{ walkAt kind L base with req := reqX kind 0x0001000000000000 false }] }

/-- The AddrBeyondWidth case of LeafEntriesUnderAnyApplicable: a permitted request beyond the width has one fault that
applies (R149). -/
theorem witness_leaf_beyond_width :
    beyondWidth cfgAny ctxX 0x0001000000000000 = true ∧
      phaseAfter 0 (exec (.slPte true true true false 0x876543 0) (beyondWalk .read .l1 0x103000)) =
        some (.done (.fault .addrBeyondWidth (.input 0x0001000000000000))) ∧
      logAfter (exec (.slPte true true true false 0x876543 0) (beyondWalk .read .l1 0x103000)) =
        some [{ req := reqX .read 0x0001000000000000 false, cause := .addrBeyondWidth, info := .input 0x0001000000000000 }] := by
  decide +kernel

/-- The AddrBeyondWidth case of UnusableEntriesUnderAnyApplicable: beyond the width, at an entry that is not present, the
draw is between the two faults of A(req) (R149), and each of them is some draw's. -/
theorem witness_unusable_beyond_width :
    memRead64 (beyondWalk .read .l4 0x100000) (entryAddr 0x100000 0x0001000000000000 .l4) = some 0 ∧
      classify cfgAny .l4 0 = .notPresent ∧
      answers (hwStep exec 0 (beyondWalk .read .l4 0x100000)) = true ∧
      ([0, 1].map fun n => pick n (.slReserved, .request)
        (faultsMet cfgAny ctxX { walkAt .read .l4 0x100000 with req := reqX .read 0x0001000000000000 false }
          (.unusable .slNotPresent) 0)) =
        [(.addrBeyondWidth, .input 0x0001000000000000), (.slNotPresent, .entry .l4 0x100000)] := by
  decide +kernel

/-- Hypotheses of NotPresentEntryFaults, at the first and at the last level. -/
theorem witness_not_present :
    phaseAfter 0 (exec (.slEntryNotPresent 0) (inWalk .read .l4 0x100000)) =
        some (.done (.fault .slNotPresent (.entry .l4 0x100120))) ∧
      phaseAfter 0 (exec (.slEntryNotPresent 0xFFFFFFFFFFFFFFFC) (inWalk .read .l1 0x103000)) =
        some (.done (.fault .slNotPresent (.entry .l1 0x103C48))) := by
  decide +kernel

/-- A walk at level 2 whose table lies where nothing is Backed, and one whose entry sets a reserved bit. -/
def unusable (c : Config) (haw : Nat) : State := { inWalk .read .l2 0x102000 with cfg := { c with haw := haw } }

/-- Hypotheses of FailedReadAndReservedEntryFault and of UnusableEntriesUnderAnyApplicable, for each cause. -/
theorem witness_unusable :
    ∀ c ∈ [Config.a, cfgAny], backed (unusable c 20).cfg (entryAddr 0x102000 iaW .l2).toNat = false ∧
      memRead64 (poke 0x102598 0x103803 (unusable c 46)) (entryAddr 0x102000 iaW .l2) = some 0x103803 ∧
      classify c .l2 0x103803 = .reserved ∧
      memRead64 (poke 0x102598 0x103000 (unusable c 46)) (entryAddr 0x102000 iaW .l2) = some 0x103000 ∧
      classify c .l2 0x103000 = .notPresent := by
  decide +kernel

/-- Hypotheses of EntryNeedsAWalkAtItsLevel. -/
theorem witness_out_of_place :
    (Instr.slPml4e true true 0x101 0).isEntry = true ∧
      ∀ ws ctx, (inWalk .read .l3 0x101000).walks[(inWalk .read .l3 0x101000).cur]? = some ws → ws.phase = .walk ctx →
        ws.level ∉ (Instr.slPml4e true true 0x101 0).levels := by
  refine ⟨rfl, ?_⟩
  intro ws ctx h _
  have h' : some (walkAt .read .l3 0x101000) = some ws := h
  cases h'
  decide

/-- Hypotheses of AdvanceTouchesOneRequest. -/
theorem witness_advance : ∃ t, hwStep exec 0 (inWalk .read .l4 0x100000) = .next t :=
  answers_next _ (by decide +kernel)

/-- Hypotheses of ReadNeedsReadInEveryEntry, WriteNeedsWriteInEveryEntry and AtomicNeedsBothInEveryEntry. -/
theorem witness_rights :
    image1.cachesClean ∧ image1.cfg.faultChoice = .walkOrder ∧ assocGet image1.ctxTable 0 = some [.ok ctxX] ∧
      agawAdmitted image1.cfg ctxX.agaw = true ∧ iaW.toNat ≤ 2 ^ min image1.cfg.cap.mgaw ctxX.agaw - 1 ∧
      (mappedBy image1.cfg ctxX (cleanReader image1) iaW).map Mapped.entries =
        some [0x101003, 0x102003, 0x103003, 0x876543803] ∧
      (mappedBy image1.cfg ctxX (cleanReader image1) 0x000012345678A010).map Mapped.entries =
        some [0x101003, 0x102003, 0x103003, 0x876544002] ∧
      (mappedBy image1.cfg ctxX (cleanReader image1) 0x0000123456989ABC).map Mapped.entries =
        some [0x101003, 0x102003, 0x44200881] := by
  decide +kernel

/-- Hypotheses of ProcessingMeetsThePseudocode, of both its clauses. -/
theorem witness_pseudocode :
    processSpec image1.cfg (.ok ctxX) (cleanReader image1) (reqX .write iaW true) =
        .outcome (.translated 0x876543ABC .size4K true .wb false) ∧
      processSpec image1.cfg (.ok { ctxX with agaw := 57 }) (cleanReader image1) (reqX .write iaW true) = .refused 57 := by
  decide +kernel

/-- Hypotheses of RequestsAlwaysEnd. -/
theorem witness_admitted (ctx : Ctx) (h : contextLookup image1 (reqX .read iaW false) = .ok ctx) :
    agawAdmitted image1.cfg ctx.agaw = true := by
  have h' : CtxOutcome.ok ctxX = .ok ctx := h
  cases h'
  decide

/-- Hypotheses of RequestFrame, FaultsFollowTheTableOfCauses and TranslationKeepsTheOffset. -/
theorem witness_requests :
    (∃ t, exec (.read iaW false true 0) image1 = .next t ∧
      t.hasOutcome image1.walks.length (.translated 0x876543ABC .size4K true .wb false)) ∧
    ∃ t, exec (.read 0x000012345678A010 false true 0) image1 = .next t ∧
      t.hasOutcome image1.walks.length (.fault .readDenied (.entry .l1 0x103C50)) := by
  have h1 : phaseAfter 0 (exec (.read iaW false true 0) image1) =
      some (.done (.translated 0x876543ABC .size4K true .wb false)) := test_read_translates
  have h2 : phaseAfter 0 (exec (.read 0x000012345678A010 false true 0) image1) =
      some (.done (.fault .readDenied (.entry .l1 0x103C50))) := by decide +kernel
  have hl : image1.walks.length = 0 := rfl
  rw [hl]
  refine ⟨?_, ?_⟩
  · revert h1
    cases exec (.read iaW false true 0) image1 with
    | next t => exact fun h => ⟨t, rfl, h⟩
    | fault r => exact fun h => by cases h
    | refused r => exact fun h => by cases h
  · revert h2
    cases exec (.read 0x000012345678A010 false true 0) image1 with
    | next t => exact fun h => ⟨t, rfl, h⟩
    | fault r => exact fun h => by cases h
    | refused r => exact fun h => by cases h

/-- The last clause of FaultsFollowTheTableOfCauses: where the denied walk of Program 1, request 3, stands at its end, and
the last entry it read. -/
theorem witness_place_of_denial :
    (match exec (.read 0x000012345678A010 false true 0) image1 with
      | .next t => (t.walks[0]?).map (fun ws => (ws.level, ws.base, ws.reads.getLast?.map OwnRead.what))
      | .fault _ => none
      | .refused _ => none) = some (.l1, 0x103000, some (.slEntry .l1 0x103C50)) ∧
      (memRead64 image1 0x103C50).map (classify image1.cfg .l1) = some .leaf4K := by
  decide +kernel

/-- Hypotheses of FaultChoiceNeverDecidesWhetherARequestFaults, of both its clauses. -/
theorem witness_fault_choice :
    answers (exec (reqX .read iaW false).instr { image1 with cfg := { image1.cfg with faultChoice := .walkOrder } }) = true ∧
      stopOf (exec (reqX .read iaW false).instr
        { image1 with ctxTable := [(0, [.ok { ctxX with agaw := 57 }])], cfg := { image1.cfg with faultChoice := .walkOrder } }) =
        some (.inr (.unsupportedAgaw 57)) := by
  decide +kernel

/-- Hypotheses of StepRunsTheDecodedEntry, by the agenda and by default. -/
theorem witness_step_entry :
    (inWalk .read .l4 0x100000).walks.findIdx? Walk.unfinished = some 0 ∧
      memRead64 (inWalk .read .l4 0x100000) (entryAddr 0x100000 iaW .l4) = some 0x101003 ∧
      decodeEntry Config.a .l4 0x101003 = .ok (.slPml4e true true 0x101 0) := by
  decide +kernel

/-- Hypotheses of StepRunsTheRequest, StepTakesTheFirstTurn and IssueAddsAWalkState. -/
theorem witness_turns :
    answers (step { image1 with agenda := [.process (reqX .atomic iaW false)] }) = true ∧
      answers (step { image1 with agenda := [.issue (reqX .atomic iaW false)] }) = true := by
  decide +kernel

/-- Hypotheses of RunIsOverWhenNothingMoves. -/
theorem witness_run_over :
    (finished .read 0x1000).agenda = [] ∧ ∀ ws ∈ (finished .read 0x1000).walks, ∃ o, ws.phase = .done o := by
  refine ⟨rfl, ?_⟩
  intro ws h
  have h' : ws ∈ [{ Walk.start (reqX .read iaW false) with phase := .done (.translated 0x1000 .size4K true .wb false) }] := h
  simp only [List.mem_singleton] at h'
  exact ⟨_, by rw [h']⟩

/-- Hypotheses of TranslatedWriteStoresInItsPage, TranslatedReadGetsMemory and TranslatedAtomicChangesOnlyItsBytes: an
access cut at the end of its page. -/
theorem witness_accesses :
    ∀ kind ∈ [Kind.read, .write, .atomic],
      ((finished kind 0x876543FFE).walks[0]?).map Walk.phase =
        some (.done (.translated 0x876543FFE .size4K true .wb false)) ∧
      ((finished kind 0x876543FFE).walks[0]?).map (fun ws => ws.req.kind) = some kind ∧
      Memory.wf (finished kind 0x876543FFE).mem ∧
      ([1, 2, 3] : List Byte).take (2 ^ 12 - (0x876543FFE : Word64).toNat % 2 ^ 12) = [1, 2] ∧
      ∀ i, i < 2 → backed (finished kind 0x876543FFE).cfg ((0x876543FFE : Word64).toNat + i) = true := by
  decide +kernel

/-- Hypotheses of FaultedRequestAccessesNothing. -/
theorem witness_faulted :
    answers (runTurn (.conclude 0 [1])
      { image1 with walks := [{ walkAt .write .l4 0 with phase := .done (.fault .slNotPresent (.entry .l4 0)) }] }) = true := by
  decide +kernel

/-- Hypotheses of SoftwareWriteReadsBack at the last Backed address, and of both clauses of AccessIntoAHoleStops one byte
further on. -/
theorem witness_holes :
    answers (runTurn (.write (2 ^ 46 - 1) [7]) image1) = true ∧
      stopOf (runTurn (.write (2 ^ 46 - 1) [7, 8]) image1) = some (.inl (.physicalHole (2 ^ 46))) ∧
      stopOf (runTurn (.conclude 0 [7, 8]) (finished .write 0x400000000000)) = some (.inl (.physicalHole (2 ^ 46))) := by
  decide +kernel

/-- Hypotheses of ProgrammingBindsTheAnswers. -/
theorem witness_programming :
    answers (runTurn (.program 3 [.ctxBlocked, .ok ctxX]) image1) = true ∧ [CtxOutcome.ctxBlocked, .ok ctxX] ≠ [] := by
  decide +kernel

/-- Hypotheses of WritesExtendHist, by software and by a device. -/
theorem witness_writes :
    image1.Inv ∧ (∃ t, runTurn (.write 0x103C48 [1]) image1 = .next t) ∧
      (finished .write 0x103C48).Inv ∧ ∃ t, runTurn (.conclude 0 [1]) (finished .write 0x103C48) = .next t := by
  refine ⟨image1_inv, answers_next _ (by decide +kernel), ⟨image1_inv.memory, image1_inv.caches, by decide +kernel, ?_⟩,
    answers_next _ (by decide +kernel)⟩
  intro ws h cause info hp
  have h' : ws ∈ [{ Walk.start (reqX .write iaW false) with phase := .done (.translated 0x103C48 .size4K true .wb false) }] := h
  simp only [List.mem_singleton] at h'
  rw [h'] at hp
  cases hp

/-- Hypotheses of EntryReadsDrawFromHist and InvalidateMakesReadsCurrent: a Backed address, and one that is not. -/
theorem witness_entry_reads :
    memRead64 image1 0x103C48 = some 0x876543803 ∧ memRead64 image1 0x400000000000 = none := by
  decide +kernel

/-- Hypotheses of StaleEntryReadsOldOrNew. -/
theorem witness_stale :
    ∃ t v, image1.Inv ∧ image1.cachesClean ∧
      runTurn (.write (0x103C48 : Word64).toNat (bytesOfEntry image1.cfg.byteOrder 0x876543801)) image1 = .next t ∧
      memRead64 t 0x103C48 = some v := by
  obtain ⟨t, ht⟩ := answers_next (runTurn (.write (0x103C48 : Word64).toNat (bytesOfEntry image1.cfg.byteOrder 0x876543801)) image1)
    (by decide +kernel)
  have hb : (stateAfter (runTurn (.write (0x103C48 : Word64).toNat (bytesOfEntry image1.cfg.byteOrder 0x876543801)) image1)).map
    (fun t => backed t.cfg (0x103C48 : Word64).toNat) = some true := by decide +kernel
  rw [ht] at hb
  have hb' : backed t.cfg (0x103C48 : Word64).toNat = true := Option.some.inj hb
  exact ⟨t, _, image1_inv, rfl, ht, by rw [memRead64, if_pos hb']⟩

/-- Hypotheses of SnoopFunction, SnoopWithSnpClear and MemoryTypes: the rows of section 9. -/
theorem witness_attributes :
    [(cfgA0, false, false), (cfgA0, true, false), (Config.a, false, false), (Config.a, true, false), (Config.a, false, true),
     (Config.a, true, true)].map (fun x => snoop x.1 (reqX .read iaW x.2.1) x.2.2) =
      [true, false, true, false, true, true] ∧
    memTypeOf { reqX .read iaW false with inCoherencyDomain := false } ctxY .finalPage = .ignored ∧
    memTypeOf (reqX .read iaW false) ctxY .finalPage = .uc ∧
    [AccessClass.rootOrCtxEntry, .slEntry, .finalPage].map (memTypeOf (reqX .read iaW false) ctxX) = [.uc, .wb, .wb] := by
  decide

end Sys2Proof.Tests
end

section
/-! PROOFS, family 10_state.md. What one step of the remapping hardware, a run of such steps, and a turn of an agent leave
unchanged and what they log, said once each; then the obligations of the family. -/

namespace Sys2Proof.Machine

/-! ### The request at one place advances (R48, R150) -/

/-- The records that a walk state stands for in the fault log (R29, R150): one when it is Done with a fault, else none. -/
def Walk.records (ws : Walk) : List FaultRecord :=
  match ws.phase with
  | .lookup => []
  | .check _ => []
  | .walk _ => []
  | .done o => recordsOf ws.req o

/-- The request at a place goes on to a new walk state: no other request, and of the rest of the state only the fault log
and the model's counters, changes, and the log gets what the new walk state stands for. -/
structure Advances (k : Nat) (ws : Walk) (s t : State) : Prop where
  frame : SameButWalksAndLog s t
  walks : t.walks = s.walks.set k ws
  faultLog : t.faultLog = s.faultLog ++ ws.records

theorem recordsOf_length_le (q : Request) (o : ReqOutcome) : (recordsOf q o).length ≤ 1 := by
  cases o <;> simp [recordsOf]

theorem records_length_le (ws : Walk) : ws.records.length ≤ 1 := by
  unfold Walk.records
  split
  case h_4 => exact recordsOf_length_le _ _
  all_goals simp

/-- A request that is not over has logged nothing (R29, R177). -/
theorem records_of_unfinished (ws : Walk) (h : ws.unfinished = true) : ws.records = [] := by
  unfold Walk.unfinished at h
  unfold Walk.records
  split at h
  case h_4 => cases h
  all_goals simp only [*]

/-- A walk state that is over is Done with an outcome (R177). -/
theorem phase_of_finished (ws : Walk) (h : ws.unfinished = false) : ∃ o, ws.phase = .done o := by
  unfold Walk.unfinished at h
  split at h
  case h_4 o ho => exact ⟨o, ho⟩
  all_goals cases h

theorem SameButWalksAndLog.refl (s : State) : SameButWalksAndLog s s := ⟨rfl, rfl, rfl, rfl, rfl, rfl⟩

theorem SameButWalksAndLog.trans {s t u : State} (h : SameButWalksAndLog s t) (h' : SameButWalksAndLog t u) :
    SameButWalksAndLog s u :=
  ⟨h'.cfg.trans h.cfg, h'.mem.trans h.mem, h'.hist.trans h.hist, h'.ctxTable.trans h.ctxTable,
    h'.accesses.trans h.accesses, h'.agenda.trans h.agenda⟩

/-- Two advances of one request make one, when the request is not over in between. -/
theorem Advances.trans {k : Nat} {ws ws' : Walk} {s t u : State} (h : Advances k ws s t) (hu : ws.unfinished = true)
    (h' : Advances k ws' t u) : Advances k ws' s u where
  frame := h.frame.trans h'.frame
  walks := by rw [h'.walks, h.walks, List.set_set]
  faultLog := by rw [h'.faultLog, h.faultLog, records_of_unfinished ws hu, List.append_nil]

/-- A request that is not over and stays as it is advances to its own walk state. -/
theorem Advances.refl {k : Nat} {ws : Walk} {s : State} (h : s.walks[k]? = some ws) (hu : ws.unfinished = true) :
    Advances k ws s s where
  frame := .refl s
  walks := by
    obtain ⟨hk, rfl⟩ := List.getElem?_eq_some_iff.mp h
    rw [List.set_getElem_self]
  faultLog := by rw [records_of_unfinished ws hu, List.append_nil]

/-- The new walk state stands at the place of the request. -/
theorem Advances.walk_at {k : Nat} {ws ws' : Walk} {s t : State} (h : Advances k ws' s t) (hk : s.walks[k]? = some ws) :
    t.walks[k]? = some ws' := by
  obtain ⟨hlt, -⟩ := List.getElem?_eq_some_iff.mp hk
  rw [h.walks, List.getElem?_set_self hlt]

/-- Every other request stays as it was. -/
theorem Advances.walk_at_other {k j : Nat} {ws : Walk} {s t : State} (h : Advances k ws s t) (hj : j ≠ k) :
    t.walks[j]? = s.walks[j]? := by
  rw [h.walks, List.getElem?_set_ne hj.symm]

theorem setWalk_advances (k : Nat) (ws : Walk) (s : State) (h : ws.unfinished = true) :
    Advances k ws s (setWalk k ws s) where
  frame := ⟨rfl, rfl, rfl, rfl, rfl, rfl⟩
  walks := rfl
  faultLog := by rw [setWalk_faultLog, records_of_unfinished ws h, List.append_nil]

theorem raiseFault_advances (k : Nat) (ws : Walk) (cause : Cause) (info : FaultInfo) (s : State) :
    Advances k { ws with phase := .done (.fault cause info) } s (raiseFault k ws cause info s) :=
  ⟨⟨rfl, rfl, rfl, rfl, rfl, rfl⟩, rfl, rfl⟩

theorem endWalk_advances (k : Nat) (ws : Walk) (ctx : Ctx) (e : LoopEnd) (s : State) :
    Advances k { ws with phase := .done (endOutcome ws ctx e s) } s (endWalk k ws ctx e s) := by
  rw [endWalk_eq]
  exact ⟨⟨rfl, rfl, rfl, rfl, rfl, rfl⟩, rfl, rfl⟩

/-- Counting a draw is no more than the model's own counter. -/
theorem Advances.countDraw {k : Nat} {ws : Walk} {s t : State} (h : Advances k ws s t) :
    Advances k ws s (Machine.countDraw t) :=
  ⟨⟨h.frame.cfg, h.frame.mem, h.frame.hist, h.frame.ctxTable, h.frame.accesses, h.frame.agenda⟩, h.walks, h.faultLog⟩

/-! ### Phase Lookup (R24, R99) -/

/-- The phase a request is in once `ContextLookup` has answered (R24, R99). -/
def lookupPhase (answer : CtxOutcome) : Phase :=
  match lookupFault answer with
  | .error cause => .done (.fault cause .request)
  | .ok ctx => .check ctx

/-- The walk state once `ContextLookup` has answered: its read is noted and the phase is that of the answer. -/
def lookedUp (ws : Walk) (s : State) : Walk :=
  { noteRead s ws .rootOrCtx (rootOrCtxMemType ws.req) with phase := lookupPhase (contextLookup s ws.req) }

theorem lookupPhase_of_fault {answer : CtxOutcome} {cause : Cause} (h : lookupFault answer = .error cause) :
    lookupPhase answer = .done (.fault cause .request) := by
  rw [lookupPhase, h]

@[simp] theorem lookupPhase_ok (ctx : Ctx) : lookupPhase (.ok ctx) = .check ctx := rfl

/-- A step in phase Lookup takes the request to its looked-up walk state. -/
theorem lookupStep_advances (k : Nat) (ws : Walk) (s : State) : Advances k (lookedUp ws s) s (lookupStep k ws s) := by
  unfold lookedUp lookupPhase lookupStep
  cases lookupFault (contextLookup s ws.req) with
  | error cause => exact (raiseFault_advances k _ cause .request s).countDraw
  | ok ctx => exact (setWalk_advances k _ s rfl).countDraw

/-! ### One step of the hardware (R100, R160) -/

/-- A step in phase Check that is not refused starts the walk or takes the fault of the width (R94, R95). -/
theorem checkStep_advances {k : Nat} {ws : Walk} {ctx : Ctx} {s t : State} (h : checkStep k ws ctx s = .next t) :
    ∃ ws', Advances k ws' s t ∧ ws'.req = ws.req := by
  unfold checkStep at h
  split at h
  · cases h
  · split at h
    · cases h
      exact ⟨_, raiseFault_advances k ws _ _ s, rfl⟩
    · cases h
      exact ⟨_, setWalk_advances k (startWalk ws ctx) s rfl, rfl⟩

/-- Every class of entry ends the walk but a table, with which the walk goes on (R85, R96). -/
theorem entryEffect_advances (k : Nat) (ws : Walk) (ctx : Ctx) (c : Config) (s : State) (r : Option Word64)
    (hu : ws.unfinished = true) : ∃ ws', Advances k ws' s (entryEffect k ws ctx c s r) ∧ ws'.req = ws.req := by
  cases r with
  | none => exact ⟨_, endWalk_advances k ws ctx _ s, rfl⟩
  | some e =>
    simp only [entryEffect]
    cases classify c ws.level e with
    | table => exact ⟨_, setWalk_advances k _ s hu, rfl⟩
    | notPresent => exact ⟨_, endWalk_advances k _ ctx _ s, rfl⟩
    | reserved => exact ⟨_, endWalk_advances k _ ctx _ s, rfl⟩
    | leaf4K => exact ⟨_, endWalk_advances k _ ctx _ s, rfl⟩
    | leaf2M => exact ⟨_, endWalk_advances k _ ctx _ s, rfl⟩
    | leaf1G => exact ⟨_, endWalk_advances k _ ctx _ s, rfl⟩

theorem readNoted_advances (k : Nat) (ws : Walk) (ctx : Ctx) (a : Word64) (s : State) (hu : ws.unfinished = true) :
    Advances k (noteRead s ws (.slEntry ws.level a) (memTypeOf ws.req ctx .slEntry)) s (readNoted k ws ctx a s) where
  frame := ⟨rfl, rfl, rfl, rfl, rfl, rfl⟩
  walks := rfl
  faultLog := by
    rw [readNoted_faultLog, records_of_unfinished (noteRead s ws _ _) hu, List.append_nil]

/-- One entry read advances the request that stands in its walk (R96). -/
theorem walkStep_advances {k : Nat} {ws : Walk} {ctx : Ctx} {s t : State} (hk : s.walks[k]? = some ws)
    (hp : ws.phase = .walk ctx) (h : walkStep runEntry k ws ctx s = .next t) :
    ∃ ws', Advances k ws' s t ∧ ws'.req = ws.req := by
  have hu : ws.unfinished = true := by simp only [Walk.unfinished, hp]
  rw [walkStep_eq k ws ctx s hk hp] at h
  cases h
  obtain ⟨ws', hadv, hreq⟩ := entryEffect_advances k
    (noteRead s ws (.slEntry ws.level (entryAddr ws.base ws.req.ia ws.level)) (memTypeOf ws.req ctx .slEntry)) ctx s.cfg
    (readNoted k ws ctx (entryAddr ws.base ws.req.ia ws.level) s)
    (memRead64 s (entryAddr ws.base ws.req.ia ws.level)) hu
  exact ⟨ws', (readNoted_advances k ws ctx _ s hu).trans hu hadv, hreq⟩

/-- One step of the hardware on a request that is not over advances that request (R100). -/
theorem hwStep_advances {k : Nat} {ws : Walk} {s t : State} (hk : s.walks[k]? = some ws) (hu : ws.unfinished = true)
    (h : hwStep runEntry k s = .next t) : ∃ ws', Advances k ws' s t ∧ ws'.req = ws.req := by
  cases hp : ws.phase with
  | lookup =>
    rw [hwStep_lookup k ws s hk hp] at h
    cases h
    exact ⟨lookedUp ws s, lookupStep_advances k ws s, rfl⟩
  | check ctx =>
    rw [hwStep_check k ws ctx s hk hp] at h
    exact checkStep_advances h
  | walk ctx =>
    rw [hwStep_walk k ws ctx s hk hp] at h
    exact walkStep_advances hk hp h
  | done o => simp [Walk.unfinished, hp] at hu

/-- A step of the hardware at any place idles there or advances the request (R100, R177). -/
theorem hwStep_next {k : Nat} {s t : State} (h : hwStep runEntry k s = .next t) : t = s ∨ ∃ ws, Advances k ws s t := by
  cases hk : s.walks[k]? with
  | none => simp only [hwStep, hk] at h; cases h; exact .inl rfl
  | some ws =>
    cases hu : ws.unfinished with
    | true =>
      obtain ⟨ws', hadv, -⟩ := hwStep_advances hk hu h
      exact .inr ⟨ws', hadv⟩
    | false =>
      obtain ⟨o, hp⟩ := phase_of_finished ws hu
      rw [hwStep_done k ws o s hk hp] at h
      cases h
      exact .inl rfl

/-- A run of steps on a request that is not over is one advance of it: once it is over, the other steps idle (R99, R177). -/
theorem hwSteps_advances {k n : Nat} {ws : Walk} {s t : State} (hk : s.walks[k]? = some ws) (hu : ws.unfinished = true)
    (h : hwSteps runEntry k n s = .next t) : ∃ ws', Advances k ws' s t ∧ ws'.req = ws.req := by
  induction n generalizing s ws with
  | zero => cases h; exact ⟨ws, .refl hk hu, rfl⟩
  | succ n ih =>
    cases hs : hwStep runEntry k s with
    | fault f => rw [hwSteps, hs] at h; cases h
    | refused r => rw [hwSteps, hs] at h; cases h
    | next s₁ =>
      rw [hwSteps_next _ _ _ _ _ hs] at h
      obtain ⟨ws₁, hadv₁, hreq₁⟩ := hwStep_advances hk hu hs
      have hk₁ := hadv₁.walk_at hk
      cases hu₁ : ws₁.unfinished with
      | true =>
        obtain ⟨ws', hadv, hreq⟩ := ih hk₁ hu₁ h
        exact ⟨ws', hadv₁.trans hu₁ hadv, hreq.trans hreq₁⟩
      | false =>
        obtain ⟨o, hp⟩ := phase_of_finished ws₁ hu₁
        rw [hwSteps_done k n ws₁ o s₁ hk₁ hp] at h
        cases h
        exact ⟨ws₁, hadv₁, hreq₁⟩

/-- The processing of a request is one advance of it, from the state in which it has been issued (R99). -/
theorem process_advances {q : Request} {s t : State} (h : process q s = .next t) :
    ∃ ws, Advances s.walks.length ws (issueRequest q s) t ∧ ws.req = q :=
  hwSteps_advances (ws := Walk.start q) (by simp) rfl h

/-! ### What a turn of an agent logs (R29, R36, R150) -/

/-- The configuration stays, and the fault log gets these records, at most one. -/
structure Logs (new : List FaultRecord) (s t : State) : Prop where
  cfg : t.cfg = s.cfg
  faultLog : t.faultLog = s.faultLog ++ new
  atMostOne : new.length ≤ 1

theorem Logs.nil {s t : State} (hc : t.cfg = s.cfg) (hl : t.faultLog = s.faultLog) : Logs [] s t :=
  ⟨hc, by rw [hl, List.append_nil], by simp⟩

theorem Advances.logs {k : Nat} {ws : Walk} {s t : State} (h : Advances k ws s t) : Logs ws.records s t :=
  ⟨h.frame.cfg, h.faultLog, records_length_le ws⟩

theorem hwStep_logs {k : Nat} {s t : State} (h : hwStep exec k s = .next t) : ∃ new, Logs new s t := by
  rw [hwStep_exec] at h
  obtain rfl | ⟨ws, hadv⟩ := hwStep_next h
  · exact ⟨[], .nil rfl rfl⟩
  · exact ⟨_, hadv.logs⟩

/-- What the last step of a device leaves alone, whatever it accesses (R57, R150(b)). -/
structure SameButAccess (s t : State) : Prop where
  cfg : t.cfg = s.cfg
  ctxTable : t.ctxTable = s.ctxTable
  faultLog : t.faultLog = s.faultLog
  agenda : t.agenda = s.agenda

theorem translatedAccess_frame {k : Nat} {ws : Walk} {pa : Word64} {size : PageSize} {snooped : Bool}
    {memType : MemType} {data : List Byte} {s t : State}
    (h : translatedAccess k ws pa size snooped memType data s = .next t) : SameButAccess s t := by
  simp only [translatedAccess] at h
  split at h
  · cases h
  · cases hq : ws.req.kind <;> rw [hq] at h <;> cases h <;> exact ⟨rfl, rfl, rfl, rfl⟩

theorem conclude_frame {k : Nat} {data : List Byte} {s t : State} (h : conclude k data s = .next t) :
    SameButAccess s t := by
  unfold conclude at h
  split at h
  · cases h; exact ⟨rfl, rfl, rfl, rfl⟩
  · split at h
    case h_5 => exact translatedAccess_frame h
    all_goals cases h; exact ⟨rfl, rfl, rfl, rfl⟩

/-- A software write that answers a next state has stored its bytes. -/
theorem softwareWrite_next {a : Nat} {data : List Byte} {s t : State} (h : softwareWrite a data s = .next t) :
    t = storeBytes a data s := by
  unfold softwareWrite at h
  split at h <;> cases h
  rfl

/-- A turn of any agent keeps the configuration and logs at most one record. -/
theorem runTurn_logs {turn : Turn} {s t : State} (h : runTurn turn s = .next t) : ∃ new, Logs new s t := by
  cases turn with
  | process q =>
    rw [runTurn, exec_instr] at h
    obtain ⟨ws, hadv, -⟩ := process_advances h
    obtain ⟨hcfg, hlog, hle⟩ := hadv.logs
    exact ⟨ws.records, hcfg, hlog, hle⟩
  | advance k => exact hwStep_logs h
  | issue q => cases h; exact ⟨[], .nil rfl rfl⟩
  | conclude k data =>
    have hf := conclude_frame h
    exact ⟨[], .nil hf.cfg hf.faultLog⟩
  | write a data =>
    rw [softwareWrite_next h]
    exact ⟨[], .nil rfl rfl⟩
  | invalidate => cases h; exact ⟨[], .nil rfl rfl⟩
  | program source answers => cases h; exact ⟨[], .nil rfl rfl⟩

/-- A step takes the first turn listed (R20, R100). -/
theorem step_of_agenda {s : State} {turn : Turn} {rest : List Turn} (h : s.agenda = turn :: rest) :
    step s = runTurn turn { s with agenda := rest } := by
  rw [step, move, h]

/-- A step with no turn listed is the default move (R177). -/
theorem step_of_no_agenda {s : State} (h : s.agenda = []) : step s = defaultMove s := by
  rw [step, move, h]

/-- A step keeps the configuration and logs at most one record. -/
theorem step_logs {s t : State} (h : step s = .next t) : ∃ new, Logs new s t := by
  cases ha : s.agenda with
  | nil =>
    rw [step_of_no_agenda ha, defaultMove] at h
    split at h
    · exact hwStep_logs h
    · cases h; exact ⟨[], .nil rfl rfl⟩
  | cons turn rest =>
    rw [step_of_agenda ha] at h
    obtain ⟨new, hcfg, hlog, hle⟩ := runTurn_logs h
    exact ⟨new, hcfg, hlog, hle⟩

/-! ### Software's turns (R21, R24, R56) -/

/-- There is no hole exactly where every address is Backed (R56). -/
theorem firstHole_eq_none_iff (c : Config) (a n : Nat) :
    firstHole c a n = none ↔ ∀ i, i < n → backed c (a + i) = true := by
  simp [firstHole, List.find?_eq_none]

/-- `ContextLookup` answers one of the answers bound to the source (R24). -/
theorem contextLookup_mem {s : State} {q : Request} {answers : List CtxOutcome}
    (h : assocGet s.ctxTable q.source = some answers) (hne : answers ≠ []) : contextLookup s q ∈ answers := by
  rw [contextLookup, h]
  exact pick_mem _ _ _ hne

/-- `ContextLookup` rests on what is bound to the source and on the count of draws alone (R24, R36). -/
theorem contextLookup_congr {s t : State} {q : Request}
    (h : assocGet t.ctxTable q.source = assocGet s.ctxTable q.source) (hn : t.freeCount = s.freeCount) :
    contextLookup t q = contextLookup s q := by
  rw [contextLookup, contextLookup, h, hn]

/-! ### The obligations of the family -/

/-- Settles O3: a step logs and keeps the configuration. -/
theorem configurationNeverChanges : Obligations.ConfigurationNeverChanges := by
  unfold Obligations.ConfigurationNeverChanges
  intro s t h
  obtain ⟨new, hlogs⟩ := step_logs h
  exact hlogs.cfg

/-- Settles O4: a whole request logs at most one record, since its steps idle once it is over. -/
theorem faultLogOnlyGrows : Obligations.FaultLogOnlyGrows := by
  unfold Obligations.FaultLogOnlyGrows
  intro s t h
  obtain ⟨new, hlogs⟩ := step_logs h
  exact ⟨new, hlogs.faultLog, hlogs.atMostOne⟩

/-- Settles O17: the step is `lookupStep`, which advances the request to its looked-up walk state. -/
theorem lookupFaultsEndTheRequest : Obligations.LookupFaultsEndTheRequest := by
  unfold Obligations.LookupFaultsEndTheRequest
  intro s k ws hk hp
  have hadv := lookupStep_advances k ws s
  have hphase : (lookupStep k ws s).phaseAt k = some (lookupPhase (contextLookup s ws.req)) := by
    rw [State.phaseAt, hadv.walk_at hk]; rfl
  refine ⟨lookupStep k ws s, lookedUp ws s, ownReadSnooped s.cfg s.freeCount, ?_, hadv.frame,
    fun j hj => hadv.walk_at_other hj, hadv.walk_at hk, ?_, ?_, ?_, ?_⟩
  · rw [hwStep_exec, hwStep_lookup k ws s hk hp]
  · intro hc
    simp [ownReadSnooped, hc]
  · cases hq : ws.req.inCoherencyDomain <;> simp [lookedUp, rootOrCtxMemType, hq]
  · intro answer cause hmem hans
    have hfault : lookupFault answer = .error cause := by
      simp only [List.mem_cons, Prod.mk.injEq, List.not_mem_nil, or_false] at hmem
      obtain ⟨rfl, rfl⟩ | ⟨rfl, rfl⟩ | ⟨rfl, rfl⟩ | ⟨rfl, rfl⟩ | ⟨rfl, rfl⟩ | ⟨rfl, rfl⟩ | ⟨rfl, rfl⟩ | ⟨rfl, rfl⟩ |
        ⟨rfl, rfl⟩ := hmem <;> rfl
    rw [hans, lookupPhase_of_fault hfault] at hphase
    refine ⟨hphase, ?_⟩
    rw [hadv.faultLog]
    simp [Walk.records, lookedUp, hans, lookupPhase_of_fault hfault, recordsOf]
  · intro ctx hans
    rw [hans] at hphase
    refine ⟨hphase, ?_⟩
    rw [hadv.faultLog, records_of_unfinished, List.append_nil]
    simp [Walk.unfinished, lookedUp, hans]

/-- Settles O51: no address is a hole, so the bytes are stored. -/
theorem softwareWriteReadsBack : Obligations.SoftwareWriteReadsBack := by
  unfold Obligations.SoftwareWriteReadsBack
  intro s a data hm hb
  have hstep : runTurn (.write a data) s = .next (storeBytes a data s) := by
    rw [runTurn, softwareWrite, (firstHole_eq_none_iff _ _ _).mpr hb]
  exact ⟨storeBytes a data s, hstep, fun i h => memRead_memWriteBytes_inside s.mem a i data hm h,
    fun x hx => memRead_memWriteBytes_outside s.mem a x data hx, rfl⟩

/-- Settles O53: the source is bound to the answers, every other source to what it was. -/
theorem programmingBindsTheAnswers : Obligations.ProgrammingBindsTheAnswers := by
  unfold Obligations.ProgrammingBindsTheAnswers
  intro s source answers hne
  refine ⟨softwareProgram source answers s, rfl, rfl, fun q hq => ?_, fun q hq => ?_⟩
  · exact contextLookup_mem (by rw [softwareProgram_ctxTable, hq, assocGet_assocPut_same]) hne
  · exact contextLookup_congr (assocGet_assocPut_other _ _ _ _ (Ne.symm hq)) rfl

/-- Settles O44, by what a step does where a turn is listed. -/
theorem stepTakesTheFirstTurn : Obligations.StepTakesTheFirstTurn := by
  unfold Obligations.StepTakesTheFirstTurn
  intro s turn rest h
  exact step_of_agenda h

/-- Settles O43: the turn runs the request's row. -/
theorem stepRunsTheRequest : Obligations.StepRunsTheRequest := by
  unfold Obligations.StepRunsTheRequest
  intro s q rest h
  rw [step_of_agenda h]
  rfl

/-- Settles O46: the walk state added is the one a request starts in. -/
theorem issueAddsAWalkState : Obligations.IssueAddsAWalkState := by
  unfold Obligations.IssueAddsAWalkState
  intro s q rest h
  refine ⟨Walk.start q, ?_, walk_start_req q, walk_start_phase q, walk_start_reads q⟩
  rw [step_of_agenda h]
  rfl

end Sys2Proof.Machine
end

section
/-! PROOFS, family 20_memory.md. What one step makes of a walk state, what a turn does to memory and to Hist, the entry's
bytes, the mapping of a page, the accesses of devices; then the obligations of the family. -/

namespace Sys2Proof.Machine

/-! ### What one step makes of a walk state (R24, R94 to R96) -/

/-- What one step of the hardware can make of a request that is not over, by the phase and the level at which it stands:
the answer of `ContextLookup`, the fault of the width or the start of the walk, the descent to the next table or the end
of the walk. -/
inductive Moves (c : Config) (L : Level) : Phase → Walk → Prop
  | answered (ws : Walk) (answer : CtxOutcome) (h : ws.phase = lookupPhase answer) : Moves c L .lookup ws
  | tooWide (ws : Walk) (ctx : Ctx) (h : ws.phase = .done (.fault .addrBeyondWidth (.input ws.req.ia))) :
      Moves c L (.check ctx) ws
  | started (ws : Walk) (ctx : Ctx) (ha : agawAdmitted c ctx.agaw = true)
      (hw : c.faultChoice = .anyApplicable ∨ beyondWidth c ctx ws.req.ia = false) :
      Moves c L (.check ctx) (startWalk ws ctx)
  | descended (ws : Walk) (ctx : Ctx) (f : Frame) (hp : ws.phase = .walk ctx) (hL : L ≠ .l1) :
      Moves c L (.walk ctx) { ws with base := frameBase f, level := nextLevel L }
  | ended (ws : Walk) (ctx : Ctx) (o : ReqOutcome) (h : ws.phase = .done o) (hw : ws.wf c = true) :
      Moves c L (.walk ctx) ws

/-- A request that has taken a fault is in good standing. -/
theorem wf_of_faulted (c : Config) (ws : Walk) {cause : Cause} {info : FaultInfo} (h : ws.phase = .done (.fault cause info)) :
    ws.wf c = true := by
  rw [Walk.wf, h]

/-- A translation at a walk's end is the one of the leaf that ended it (R98). -/
theorem endOutcome_translated {ws : Walk} {ctx : Ctx} {e : LoopEnd} {s : State} {pa : Word64} {size : PageSize}
    {snooped tm : Bool} {mt : MemType} (h : endOutcome ws ctx e s = .translated pa size snooped mt tm) :
    ∃ l, e = .leaf l ∧ l.pa = pa := by
  unfold endOutcome at h
  split at h
  case h_1 l _ => cases h; exact ⟨l, rfl, rfl⟩
  all_goals cases h

/-- A walk that ends at no leaf above 2^52 ends in good standing (R101). -/
theorem endOutcome_wf (c : Config) (ws : Walk) (ctx : Ctx) (e : LoopEnd) (s : State)
    (hpa : ∀ l, e = .leaf l → l.pa.toNat < 2 ^ 52) :
    ({ ws with phase := .done (endOutcome ws ctx e s) } : Walk).wf c = true := by
  cases ho : endOutcome ws ctx e s with
  | fault cause info => rfl
  | translated pa size snooped mt tm =>
    obtain ⟨l, he, rfl⟩ := endOutcome_translated ho
    exact decide_eq_true (hpa l he)

/-- A final address has at most 52 significant bits: a page number of n bits above an offset of k (R68 to R70, R101). -/
theorem page_offset_lt {n k : Nat} (page : BitVec n) (ia : Word64) (h : n + k = 52) :
    ((page ++ ia.extractLsb' 0 k).setWidth 64).toNat < 2 ^ 52 := by
  rw [BitVec.toNat_setWidth, ← h]
  exact (Nat.mod_le _ _).trans_lt (BitVec.isLt _)

theorem endWalk_moves (k : Nat) (ws : Walk) (ctx : Ctx) (e : LoopEnd) (c : Config) (L : Level) (s : State)
    (hpa : ∀ l, e = .leaf l → l.pa.toNat < 2 ^ 52) :
    ∃ ws', Advances k ws' s (endWalk k ws ctx e s) ∧ ws'.req = ws.req ∧ Moves c L (.walk ctx) ws' :=
  ⟨_, endWalk_advances k ws ctx e s, rfl, .ended _ ctx _ rfl (endOutcome_wf c ws ctx e s hpa)⟩

theorem endWalk_unusable_moves (k : Nat) (ws : Walk) (ctx : Ctx) (cause : Cause) (c : Config) (L : Level) (s : State) :
    ∃ ws', Advances k ws' s (endWalk k ws ctx (.unusable cause) s) ∧ ws'.req = ws.req ∧ Moves c L (.walk ctx) ws' :=
  endWalk_moves k ws ctx _ c L s (fun _ h => by cases h)

theorem endWalk_leaf_moves (k : Nat) (ws : Walk) (ctx : Ctx) (l : Leaf) (c : Config) (L : Level) (s : State)
    (hpa : l.pa.toNat < 2 ^ 52) :
    ∃ ws', Advances k ws' s (endWalk k ws ctx (.leaf l) s) ∧ ws'.req = ws.req ∧ Moves c L (.walk ctx) ws' :=
  endWalk_moves k ws ctx _ c L s (fun _ h => by cases h; exact hpa)

/-- A table makes the walk descend, every other class of entry ends it (R85, R96). -/
theorem entryEffect_moves (k : Nat) (ws : Walk) (ctx : Ctx) (c : Config) (s : State) (r : Option Word64)
    (hp : ws.phase = .walk ctx) :
    ∃ ws', Advances k ws' s (entryEffect k ws ctx c s r) ∧ ws'.req = ws.req ∧ Moves c ws.level (.walk ctx) ws' := by
  cases r with
  | none => exact endWalk_unusable_moves k ws ctx .slAccessError c ws.level s
  | some e =>
    simp only [entryEffect]
    cases hc : classify c ws.level e with
    | notPresent => exact endWalk_unusable_moves k ws ctx .slNotPresent c ws.level s
    | reserved => exact endWalk_unusable_moves k ws ctx .slReserved c ws.level s
    | leaf4K => exact endWalk_leaf_moves k _ ctx _ c ws.level s (page_offset_lt (fieldAddr e) ws.req.ia rfl)
    | leaf2M => exact endWalk_leaf_moves k _ ctx _ c ws.level s (page_offset_lt (fieldPage2M e) ws.req.ia rfl)
    | leaf1G => exact endWalk_leaf_moves k _ ctx _ c ws.level s (page_offset_lt (fieldPage1G e) ws.req.ia rfl)
    | table =>
      have hu : ws.unfinished = true := by rw [Walk.unfinished, hp]
      have hl1 : ws.level ≠ .l1 := fun h => classify_l1_ne_table c e (h ▸ hc)
      exact ⟨_, setWalk_advances k _ s hu, rfl, .descended (accumulate ws (fieldR c e) (fieldW c e)) ctx _ hp hl1⟩

/-- A step in phase Check that is not refused takes the fault of the width or starts an admitted walk (R92, R94, R95). -/
theorem checkStep_moves {k : Nat} {ws : Walk} {ctx : Ctx} {s t : State} (L : Level)
    (h : checkStep k ws ctx s = .next t) :
    ∃ ws', Advances k ws' s t ∧ ws'.req = ws.req ∧ Moves s.cfg L (.check ctx) ws' := by
  unfold checkStep at h
  split at h
  · cases h
  · next hadm =>
    have ha : agawAdmitted s.cfg ctx.agaw = true := by simpa using hadm
    split at h
    · cases h
      exact ⟨_, raiseFault_advances k ws _ _ s, rfl, .tooWide _ ctx rfl⟩
    · next hwide =>
      have hw : s.cfg.faultChoice = .anyApplicable ∨ beyondWidth s.cfg ctx ws.req.ia = false := by
        cases hf : s.cfg.faultChoice with
        | anyApplicable => exact .inl rfl
        | walkOrder => exact .inr (by simpa [hf] using hwide)
      cases h
      exact ⟨_, setWalk_advances k (startWalk ws ctx) s rfl, rfl, .started ws ctx ha hw⟩

/-- The walk state once the read of the entry at which it stands has been noted (R121, R135). -/
def entryNoted (s : State) (ws : Walk) (ctx : Ctx) : Walk :=
  noteRead s ws (.slEntry ws.level (entryAddr ws.base ws.req.ia ws.level)) (memTypeOf ws.req ctx .slEntry)

/-- One step of the hardware on a request that is not over makes one of these moves (R100). -/
theorem hwStep_moves {k : Nat} {ws : Walk} {s t : State} (hk : s.walks[k]? = some ws) (hu : ws.unfinished = true)
    (h : hwStep runEntry k s = .next t) :
    ∃ ws', Advances k ws' s t ∧ ws'.req = ws.req ∧ Moves s.cfg ws.level ws.phase ws' := by
  cases hp : ws.phase with
  | lookup =>
    rw [hwStep_lookup k ws s hk hp] at h
    cases h
    exact ⟨_, lookupStep_advances k ws s, rfl, .answered _ (contextLookup s ws.req) rfl⟩
  | check ctx =>
    rw [hwStep_check k ws ctx s hk hp] at h
    exact checkStep_moves ws.level h
  | walk ctx =>
    rw [hwStep_walk k ws ctx s hk hp, walkStep_eq k ws ctx s hk hp] at h
    cases h
    obtain ⟨ws', hadv, hreq, hmoves⟩ := entryEffect_moves k (entryNoted s ws ctx) ctx s.cfg
      (readNoted k ws ctx (entryAddr ws.base ws.req.ia ws.level) s)
      (memRead64 s (entryAddr ws.base ws.req.ia ws.level)) hp
    exact ⟨ws', (readNoted_advances k ws ctx _ s hu).trans hu hadv, hreq, hmoves⟩
  | done o => simp [Walk.unfinished, hp] at hu

/-! ### Moves keep a walk in good standing, and are bounded in number (R94, R103) -/

/-- The level of the top table is the number of levels of an admitted width (R91, R92). -/
theorem startLevel_num {c : Config} {agaw : Nat} (h : agawAdmitted c agaw = true) :
    (startLevel agaw).num = levelsOfAgaw agaw := by
  simp only [agawAdmitted, Bool.and_eq_true, Bool.or_eq_true, beq_iff_eq] at h
  obtain ⟨rfl | rfl, -⟩ := h <;> rfl

theorem nextLevel_num_lt {L : Level} (h : L ≠ .l1) : (nextLevel L).num < L.num := by
  cases L with
  | l1 => exact absurd rfl h
  | l2 | l3 | l4 => decide

/-- A move keeps the walk state of a request in good standing (R43, R94, R103). -/
theorem Moves.wf {c : Config} {ws ws' : Walk} (h : Moves c ws.level ws.phase ws') (hreq : ws'.req = ws.req)
    (hw : ws.wf c = true) : ws'.wf c = true := by
  generalize hp : ws.phase = p at h
  cases h with
  | answered _ answer h =>
    rw [Walk.wf, h, lookupPhase]
    cases lookupFault answer <;> rfl
  | tooWide _ ctx h => exact wf_of_faulted c ws' h
  | started ws₀ ctx ha hwide =>
    obtain ⟨halign, hlt⟩ := frameBase_aligned ctx.slptptr
    exact (walk_wf_iff c _ ctx rfl).mpr ⟨ha, (startLevel_num ha).le, halign, hlt, hwide⟩
  | descended ws₀ ctx f hp₀ hl1 =>
    obtain ⟨ha, hlevel, -, -, hwide⟩ := (walk_wf_iff c ws ctx hp).mp hw
    obtain ⟨halign, hlt⟩ := frameBase_aligned f
    have hwide' : c.faultChoice = .anyApplicable ∨ beyondWidth c ctx ws₀.req.ia = false :=
      (congrArg Request.ia hreq : ws₀.req.ia = ws.req.ia) ▸ hwide
    exact (walk_wf_iff c { ws₀ with base := frameBase f, level := nextLevel ws.level } ctx hp₀).mpr
      ⟨ha, (nextLevel_num_lt hl1).le.trans hlevel, halign, hlt, hwide'⟩
  | ended _ ctx o h hw' => exact hw'

/-- The most steps of the hardware that a request still asks for (R99, R103). -/
def Walk.stepsLeft (ws : Walk) : Nat :=
  match ws.phase with
  | .lookup => 6
  | .check _ => 5
  | .walk _ => ws.level.num
  | .done _ => 0

/-- Every move leaves fewer steps to take (R103). -/
theorem Moves.stepsLeft_lt {c : Config} {ws ws' : Walk} (h : Moves c ws.level ws.phase ws') :
    ws'.stepsLeft < ws.stepsLeft := by
  generalize hp : ws.phase = p at h
  cases h with
  | answered _ answer h =>
    rw [Walk.stepsLeft, Walk.stepsLeft, hp, h, lookupPhase]
    cases lookupFault answer <;> simp
  | tooWide _ ctx h => simp [Walk.stepsLeft, hp, h]
  | started ws₀ ctx ha hwide =>
    have hle : (startLevel ctx.agaw).num ≤ 4 := by cases startLevel ctx.agaw <;> decide
    simp only [Walk.stepsLeft, hp, startWalk_phase, startWalk_level]
    omega
  | descended ws₀ ctx f hp₀ hl1 =>
    simp only [Walk.stepsLeft, hp, hp₀]
    exact nextLevel_num_lt hl1
  | ended _ ctx o h hw' =>
    simp only [Walk.stepsLeft, hp, h]
    cases ws.level <;> decide


/-! ### The invariant along the steps of the hardware (R43, R94, R29) -/

/-- The invariant is kept where a request in good standing advances: the hardware writes no memory and no Hist (R48). -/
theorem Advances.inv {k : Nat} {ws : Walk} {s t : State} (h : Advances k ws s t) (hi : s.Inv)
    (hw : ws.wf s.cfg = true) : t.Inv where
  memory := h.frame.mem ▸ hi.memory
  caches := by rw [h.frame.cfg, h.frame.mem, h.frame.hist]; exact hi.caches
  walks := by
    intro w hmem
    rw [h.walks] at hmem
    rw [h.frame.cfg]
    obtain hold | rfl := List.mem_or_eq_of_mem_set hmem
    · exact hi.walks w hold
    · exact hw
  logged := by
    intro w hmem cause info hp
    rw [h.walks] at hmem
    rw [h.faultLog]
    obtain hold | rfl := List.mem_or_eq_of_mem_set hmem
    · exact List.mem_append_left _ (hi.logged w hold cause info hp)
    · exact List.mem_append_right _ (by simp [Walk.records, hp, recordsOf])

/-- A step of the hardware keeps the invariant. -/
theorem hwStep_inv {k : Nat} {s t : State} (hi : s.Inv) (h : hwStep runEntry k s = .next t) : t.Inv := by
  cases hk : s.walks[k]? with
  | none => simp only [hwStep, hk] at h; cases h; exact hi
  | some ws =>
    cases hu : ws.unfinished with
    | true =>
      obtain ⟨ws', hadv, hreq, hmoves⟩ := hwStep_moves hk hu h
      exact hadv.inv hi (hmoves.wf hreq (hi.walks ws (List.mem_of_getElem? hk)))
    | false =>
      obtain ⟨o, hp⟩ := phase_of_finished ws hu
      rw [hwStep_done k ws o s hk hp] at h
      cases h
      exact hi

/-- A run of steps of the hardware that answers a next state is a first step and the rest. -/
theorem hwSteps_succ_next {run : Instr → State → Out} {k n : Nat} {s t : State}
    (h : hwSteps run k (n + 1) s = .next t) : ∃ s₁, hwStep run k s = .next s₁ ∧ hwSteps run k n s₁ = .next t := by
  rw [hwSteps] at h
  split at h
  · next s₁ hs => exact ⟨s₁, hs, h⟩
  · cases h
  · cases h

theorem hwSteps_inv {k n : Nat} {s t : State} (hi : s.Inv) (h : hwSteps runEntry k n s = .next t) : t.Inv := by
  induction n generalizing s with
  | zero => cases h; exact hi
  | succ n ih =>
    obtain ⟨s₁, hs, hrest⟩ := hwSteps_succ_next h
    exact ih (hwStep_inv hi hs) hrest

/-- A request that has just been issued is in good standing and has no fault to log. -/
theorem issueRequest_inv {s : State} (q : Request) (hi : s.Inv) : (issueRequest q s).Inv where
  memory := hi.memory
  caches := hi.caches
  walks := by
    intro w hmem
    obtain hold | hnew := List.mem_append.mp hmem
    · exact hi.walks w hold
    · rw [List.mem_singleton.mp hnew]; rfl
  logged := by
    intro w hmem cause info hp
    obtain hold | hnew := List.mem_append.mp hmem
    · exact hi.logged w hold cause info hp
    · rw [List.mem_singleton.mp hnew] at hp; cases hp

/-! ### Hist after a store (R52) -/

/-- A set of Hist holds the current content: a listed one by its canonical form, an unlisted one as its only member. -/
theorem content64_mem_histSet {o : ByteOrder} {m : List Host.Cell} {h : List (Nat × List Word64)} (hh : histWf o m h)
    (a : Nat) : content64 o m a ∈ histSet o m h a := by
  unfold histSet
  cases hg : assocGet h a with
  | none => simp
  | some l =>
    obtain ⟨-, -, -, hc⟩ := hh.2 (a, l) (mem_of_assocGet h a l hg)
    exact hc

theorem histSet_rising {o : ByteOrder} {m : List Host.Cell} {h : List (Nat × List Word64)} (hh : histWf o m h)
    (a : Nat) : wordsRising (histSet o m h a) := by
  unfold histSet
  cases hg : assocGet h a with
  | none => simp
  | some l =>
    obtain ⟨-, hr, -⟩ := hh.2 (a, l) (mem_of_assocGet h a l hg)
    exact hr

/-- A set with a new value added to a member has two values. -/
theorem two_le_length_wordInsert {l : List Word64} {u v : Word64} (hu : u ∈ l) (huv : u ≠ v) :
    2 ≤ (wordInsert l v).length := by
  have hu' : u ∈ wordInsert l v := (mem_wordInsert l v u).mpr (.inr hu)
  have hv' : v ∈ wordInsert l v := (mem_wordInsert l v v).mpr (.inl rfl)
  generalize wordInsert l v = l' at hu' hv'
  match l', hu', hv' with
  | [x], hu', hv' => exact absurd ((List.mem_singleton.mp hu').trans (List.mem_singleton.mp hv').symm) huv
  | _ :: _ :: _, _, _ => simp

/-- What a write lists for a location once it has noted each of these locations: the new content added to its set where it
is one of them and has changed, and what was listed elsewhere (R52). -/
theorem assocGet_foldl_histNote (o : ByteOrder) (before after : List Host.Cell) (l : List Nat)
    (h : List (Nat × List Word64)) (x : Nat) (hl : l.Nodup) :
    assocGet (l.foldl (histNote o before after) h) x =
      if x ∈ l ∧ content64 o before x ≠ content64 o after x then
        some (wordInsert (histSet o before h x) (content64 o after x))
      else assocGet h x := by
  induction l generalizing h with
  | nil => simp
  | cons y l ih =>
    obtain ⟨hy, hl⟩ := List.nodup_cons.mp hl
    rw [List.foldl_cons, ih _ hl]
    by_cases hxy : y = x
    · subst hxy
      by_cases hc : content64 o before y = content64 o after y
      · simp [hc, histNote_unchanged]
      · simp [hc, hy, histNote_same]
    · have hg := histNote_other o before after h y x hxy
      simp only [histSet, hg, List.mem_cons, Ne.symm hxy, false_or]

theorem foldl_histNote_rising (o : ByteOrder) (before after : List Host.Cell) (l : List Nat)
    (h : List (Nat × List Word64)) (hs : h.Pairwise (fun x y => x.1 < y.1)) :
    (l.foldl (histNote o before after) h).Pairwise (fun x y => x.1 < y.1) := by
  induction l generalizing h with
  | nil => exact hs
  | cons y l ih =>
    refine ih _ ?_
    unfold histNote
    split
    · exact hs
    · exact assocPut_rising _ _ _ hs

/-- What a store lists for a location (R52). -/
theorem assocGet_storeBytes_hist (a : Nat) (data : List Byte) (s : State) (x : Nat) :
    assocGet (storeBytes a data s).hist x =
      if x ∈ touchedWords a data.length ∧
          content64 s.cfg.byteOrder s.mem x ≠ content64 s.cfg.byteOrder (storeBytes a data s).mem x then
        some (wordInsert (histOf s x) (content64 s.cfg.byteOrder (storeBytes a data s).mem x))
      else assocGet s.hist x :=
  assocGet_foldl_histNote _ _ _ _ _ _ (touchedWords_nodup a data.length)

/-- A store leaves the content of an aligned location that it does not touch (R21). -/
theorem content64_storeBytes_untouched {a : Nat} {data : List Byte} {x : Nat} (s : State) (hx : x % 8 = 0)
    (h : x ∉ touchedWords a data.length) :
    content64 s.cfg.byteOrder s.mem x = content64 s.cfg.byteOrder (storeBytes a data s).mem x := by
  cases data with
  | nil => rfl
  | cons v vs =>
    have hout := outside_of_not_touched a (v :: vs).length x hx h (by simp)
    refine content64_congr _ _ _ _ fun i hi => (memRead_memWriteBytes_outside s.mem a (x + i) (v :: vs) ?_).symm
    omega

/-- A store keeps the caches in canonical form, every set with the current content in it (R52). -/
theorem storeBytes_caches (a : Nat) (data : List Byte) (s : State) (hh : histWf s.cfg.byteOrder s.mem s.hist) :
    histWf s.cfg.byteOrder (storeBytes a data s).mem (storeBytes a data s).hist := by
  have hrising : (storeBytes a data s).hist.Pairwise (fun x y => x.1 < y.1) :=
    foldl_histNote_rising _ _ _ _ _ hh.1
  refine ⟨hrising, fun x hx => ?_⟩
  have hget := assocGet_of_mem _ x hrising hx
  rw [assocGet_storeBytes_hist] at hget
  split at hget
  · next hnew =>
    obtain ⟨htouched, hchanged⟩ := hnew
    rw [← Option.some.inj hget]
    exact ⟨touchedWords_aligned _ _ _ htouched, wordInsert_rising _ _ (histSet_rising hh x.1),
      two_le_length_wordInsert (content64_mem_histSet hh x.1) hchanged, (mem_wordInsert _ _ _).mpr (.inl rfl)⟩
  · next hold =>
    obtain ⟨haligned, hr, hlen, hc⟩ := hh.2 x (mem_of_assocGet s.hist x.1 x.2 hget)
    have hsame : content64 s.cfg.byteOrder s.mem x.1 = content64 s.cfg.byteOrder (storeBytes a data s).mem x.1 := by
      by_cases ht : x.1 ∈ touchedWords a data.length
      · by_contra hne
        exact hold ⟨ht, hne⟩
      · exact content64_storeBytes_untouched s haligned ht
    exact ⟨haligned, hr, hlen, hsame ▸ hc⟩

/-- After a store the values that may be read at an aligned location are those that might be read before it, and the
current content (R52). -/
theorem mem_histOf_storeBytes {s : State} (a : Nat) (data : List Byte) (hh : histWf s.cfg.byteOrder s.mem s.hist)
    {x : Nat} (hx : x % 8 = 0) (v : Word64) :
    v ∈ histOf (storeBytes a data s) x ↔
      v ∈ histOf s x ∨ v = content64 s.cfg.byteOrder (storeBytes a data s).mem x := by
  by_cases hc : content64 s.cfg.byteOrder s.mem x = content64 s.cfg.byteOrder (storeBytes a data s).mem x
  · have hget : assocGet (storeBytes a data s).hist x = assocGet s.hist x := by
      rw [assocGet_storeBytes_hist, if_neg (fun h => h.2 hc)]
    have hsame : histOf (storeBytes a data s) x = histOf s x := by
      simp only [histOf, histSet, hget, storeBytes_cfg, ← hc]
    have hcur : content64 s.cfg.byteOrder s.mem x ∈ histOf s x := content64_mem_histSet hh x
    rw [hsame, ← hc]
    exact ⟨.inl, fun h => h.elim id (fun hv => hv ▸ hcur)⟩
  · have ht : x ∈ touchedWords a data.length := by
      by_contra ht
      exact hc (content64_storeBytes_untouched s hx ht)
    rw [histOf, histSet, assocGet_storeBytes_hist, if_pos ⟨ht, hc⟩, Option.getD_some, mem_wordInsert, or_comm]

/-! ### What a turn does to memory (R48, R57, R178) -/

/-- Memory and the caches stay, or bytes are stored at an address; the configuration stays. -/
inductive WritesAtMost (s t : State) : Prop
  | nothing (hc : t.cfg = s.cfg) (hm : t.mem = s.mem) (hh : t.hist = s.hist)
  | bytes (a : Nat) (data : List Byte) (hc : t.cfg = s.cfg) (hm : t.mem = (storeBytes a data s).mem)
      (hh : t.hist = (storeBytes a data s).hist)

theorem WritesAtMost.memory_wf {s t : State} (h : WritesAtMost s t) (hm : Memory.wf s.mem) : Memory.wf t.mem := by
  cases h with
  | nothing _ hm' _ => rwa [hm']
  | bytes a data _ hm' _ => rw [hm']; exact storeBytes_memory_wf a data s hm

theorem WritesAtMost.caches {s t : State} (h : WritesAtMost s t) (hh : histWf s.cfg.byteOrder s.mem s.hist) :
    histWf t.cfg.byteOrder t.mem t.hist := by
  cases h with
  | nothing hc hm hh' => rwa [hc, hm, hh']
  | bytes a data hc hm hh' => rw [hc, hm, hh']; exact storeBytes_caches a data s hh

theorem WritesAtMost.mem_histOf {s t : State} (h : WritesAtMost s t) (hh : histWf s.cfg.byteOrder s.mem s.hist)
    {x : Nat} (hx : x % 8 = 0) (v : Word64) :
    v ∈ histOf t x ↔ v ∈ histOf s x ∨ v = content64 t.cfg.byteOrder t.mem x := by
  cases h with
  | nothing hc hm hh' =>
    have hcur : content64 s.cfg.byteOrder s.mem x ∈ histOf s x := content64_mem_histSet hh x
    simp only [histOf, hc, hm, hh'] at hcur ⊢
    exact ⟨.inl, fun h => h.elim id (fun hv => hv ▸ hcur)⟩
  | bytes a data hc hm hh' =>
    have hstore := mem_histOf_storeBytes a data hh hx v
    simp only [histOf, hc, hm, hh'] at hstore ⊢
    exact hstore

theorem SameButWalksAndLog.writesAtMost {s t : State} (h : SameButWalksAndLog s t) : WritesAtMost s t :=
  .nothing h.cfg h.mem h.hist

theorem hwStep_frame {k : Nat} {s t : State} (h : hwStep exec k s = .next t) : SameButWalksAndLog s t := by
  rw [hwStep_exec] at h
  obtain rfl | ⟨ws, hadv⟩ := hwStep_next h
  · exact .refl _
  · exact hadv.frame

theorem process_frame {q : Request} {s t : State} (h : process q s = .next t) : SameButWalksAndLog s t := by
  obtain ⟨ws, hadv, -⟩ := process_advances h
  exact ⟨hadv.frame.cfg, hadv.frame.mem, hadv.frame.hist, hadv.frame.ctxTable, hadv.frame.accesses, hadv.frame.agenda⟩

/-- A device's access writes the bytes of a WRITE or of an ATOMIC at most, and its request leaves (R57). -/
theorem translatedAccess_writes {k : Nat} {ws : Walk} {pa : Word64} {size : PageSize} {snooped : Bool}
    {memType : MemType} {data : List Byte} {s t : State}
    (h : translatedAccess k ws pa size snooped memType data s = .next t) :
    WritesAtMost s t ∧ t.walks = s.walks.eraseIdx k := by
  simp only [translatedAccess] at h
  split at h
  · cases h
  · cases hq : ws.req.kind with
    | read => rw [hq] at h; cases h; exact ⟨.nothing rfl rfl rfl, rfl⟩
    | write => rw [hq] at h; cases h; exact ⟨.bytes _ _ rfl rfl rfl, rfl⟩
    | atomic => rw [hq] at h; cases h; exact ⟨.bytes _ _ rfl rfl rfl, rfl⟩

theorem conclude_writes {k : Nat} {data : List Byte} {s t : State} (h : conclude k data s = .next t) :
    WritesAtMost s t ∧ ∀ ws ∈ t.walks, ws ∈ s.walks := by
  unfold conclude at h
  split at h
  · cases h; exact ⟨.nothing rfl rfl rfl, fun _ => id⟩
  · split at h
    case h_4 => cases h; exact ⟨.nothing rfl rfl rfl, fun _ => List.mem_of_mem_eraseIdx⟩
    case h_5 =>
      obtain ⟨hw, hwalks⟩ := translatedAccess_writes h
      exact ⟨hw, hwalks ▸ fun _ => List.mem_of_mem_eraseIdx⟩
    all_goals cases h; exact ⟨.nothing rfl rfl rfl, fun _ => id⟩

/-- A turn that is neither software's write nor a device's access writes nothing (R48, R54). -/
theorem runTurn_keeps_memory {turn : Turn} {s t : State} (h : runTurn turn s = .next t)
    (hw : ∀ a data, turn ≠ .write a data) (hc : ∀ k data, turn ≠ .conclude k data) :
    t.mem = s.mem ∧ (turn ≠ .invalidate → t.hist = s.hist) := by
  cases turn with
  | process q =>
    rw [runTurn, exec_instr] at h
    have hf := process_frame h
    exact ⟨hf.mem, fun _ => hf.hist⟩
  | advance k =>
    have hf := hwStep_frame h
    exact ⟨hf.mem, fun _ => hf.hist⟩
  | issue q => cases h; exact ⟨rfl, fun _ => rfl⟩
  | conclude k data => exact absurd rfl (hc k data)
  | write a data => exact absurd rfl (hw a data)
  | invalidate => cases h; exact ⟨rfl, fun hi => absurd rfl hi⟩
  | program source answers => cases h; exact ⟨rfl, fun _ => rfl⟩

/-- Every turn but `Invalidate` stores bytes at most (R48, R52). -/
theorem runTurn_writes {turn : Turn} {s t : State} (hi : turn ≠ .invalidate) (h : runTurn turn s = .next t) :
    WritesAtMost s t := by
  cases turn with
  | process q => rw [runTurn, exec_instr] at h; exact (process_frame h).writesAtMost
  | advance k => exact (hwStep_frame h).writesAtMost
  | issue q => cases h; exact .nothing rfl rfl rfl
  | conclude k data => exact (conclude_writes h).1
  | write a data => rw [softwareWrite_next h]; exact .bytes a data rfl rfl rfl
  | invalidate => exact absurd rfl hi
  | program source answers => cases h; exact .nothing rfl rfl rfl

/-! ### The invariant along the turns of the agents -/

/-- A turn that stores bytes at most, adds no request and logs nothing keeps the invariant. -/
theorem WritesAtMost.inv {s t : State} (h : WritesAtMost s t) (hi : s.Inv) (hwalks : ∀ ws ∈ t.walks, ws ∈ s.walks)
    (hlog : t.faultLog = s.faultLog) : t.Inv where
  memory := h.memory_wf hi.memory
  caches := h.caches hi.caches
  walks := by
    have hcfg : t.cfg = s.cfg := by cases h <;> assumption
    exact fun ws hmem => hcfg ▸ hi.walks ws (hwalks ws hmem)
  logged := fun ws hmem cause info hp => hlog ▸ hi.logged ws (hwalks ws hmem) cause info hp

/-- `Invalidate` leaves no set listed (R54). -/
theorem invalidateCaches_inv {s : State} (hi : s.Inv) : (invalidateCaches s).Inv where
  memory := hi.memory
  caches := ⟨.nil, fun _ h => nomatch h⟩
  walks := hi.walks
  logged := hi.logged

theorem runTurn_inv {turn : Turn} {s t : State} (hi : s.Inv) (h : runTurn turn s = .next t) : t.Inv := by
  cases turn with
  | process q =>
    rw [runTurn, exec_instr, process] at h
    exact hwSteps_inv (issueRequest_inv q hi) h
  | advance k => rw [runTurn, hwStep_exec] at h; exact hwStep_inv hi h
  | issue q => cases h; exact issueRequest_inv q hi
  | conclude k data =>
    obtain ⟨hw, hwalks⟩ := conclude_writes h
    exact hw.inv hi hwalks (conclude_frame h).faultLog
  | write a data =>
    have hw : WritesAtMost s t := runTurn_writes (turn := .write a data) nofun h
    have ht := softwareWrite_next h
    exact hw.inv hi (ht ▸ fun _ => id) (by rw [ht, storeBytes_faultLog])
  | invalidate => cases h; exact invalidateCaches_inv hi
  | program source answers => cases h; exact ⟨hi.memory, hi.caches, hi.walks, hi.logged⟩

/-! ### Every request comes to its end (R99, R103) -/

/-- A request with no step left to take is over. -/
theorem done_of_stepsLeft_eq_zero {ws : Walk} (h : ws.stepsLeft = 0) : ∃ o, ws.phase = .done o := by
  cases hp : ws.phase with
  | lookup => simp [Walk.stepsLeft, hp] at h
  | check ctx => simp [Walk.stepsLeft, hp] at h
  | walk ctx =>
    simp only [Walk.stepsLeft, hp] at h
    cases hl : ws.level <;> simp [hl, Level.num] at h
  | done o => exact ⟨o, rfl⟩

theorem hasOutcome_of_walk {s : State} {k : Nat} {ws : Walk} {o : ReqOutcome} (hk : s.walks[k]? = some ws)
    (hp : ws.phase = .done o) : s.hasOutcome k o := by
  rw [State.hasOutcome, State.phaseAt, hk, Option.map_some, hp]

/-- As many steps as a request still asks for end it. -/
theorem hwSteps_hasOutcome {k n : Nat} {ws : Walk} {s t : State} (hk : s.walks[k]? = some ws) (hn : ws.stepsLeft ≤ n)
    (h : hwSteps runEntry k n s = .next t) : ∃ o, t.hasOutcome k o := by
  induction n generalizing s ws with
  | zero =>
    cases h
    obtain ⟨o, hp⟩ := done_of_stepsLeft_eq_zero (Nat.le_zero.mp hn)
    exact ⟨o, hasOutcome_of_walk hk hp⟩
  | succ n ih =>
    cases hu : ws.unfinished with
    | false =>
      obtain ⟨o, hp⟩ := phase_of_finished ws hu
      rw [hwSteps_done k _ ws o s hk hp] at h
      cases h
      exact ⟨o, hasOutcome_of_walk hk hp⟩
    | true =>
      obtain ⟨s₁, hs, hrest⟩ := hwSteps_succ_next h
      obtain ⟨ws₁, hadv, -, hmoves⟩ := hwStep_moves hk hu hs
      have hlt := hmoves.stepsLeft_lt
      exact ih (hadv.walk_at hk) (by omega) hrest

/-- A request processed without interruption is over: Lookup, Check and four entry reads suffice (R99, R103). -/
theorem process_hasOutcome {q : Request} {s t : State} (h : process q s = .next t) :
    ∃ o, t.hasOutcome s.walks.length o :=
  hwSteps_hasOutcome (ws := Walk.start q) (by simp) (le_refl 6) h

/-! ### Reads of entries (R52, R56) -/

theorem memRead64_eq_none_iff (s : State) (a : Word64) : memRead64 s a = none ↔ backed s.cfg a.toNat = false := by
  simp [memRead64]

/-- A read that succeeds returns a member of Hist where there is one (R52). -/
theorem memRead64_mem {s : State} {a v : Word64} (hne : histOf s a.toNat ≠ []) (h : memRead64 s a = some v) :
    v ∈ histOf s a.toNat := by
  unfold memRead64 at h
  split at h <;> cases h
  exact pick_mem _ _ _ hne

/-! ### The bytes of an entry (R42) -/

@[simp] theorem bytesOfEntry_length (o : ByteOrder) (e : Word64) : (bytesOfEntry o e).length = 8 := by
  cases o <;> simp [bytesOfEntry]

theorem bytesOfEntry_little_get (e : Word64) (i : Nat) (h : i < (bytesOfEntry .little e).length) :
    (bytesOfEntry .little e)[i] = e.extractLsb' (8 * i) 8 := by
  simp [bytesOfEntry]

theorem bytesOfEntry_big_get (e : Word64) (i : Nat) (h : i < (bytesOfEntry .big e).length) :
    (bytesOfEntry .big e)[i] = e.extractLsb' (56 - 8 * i) 8 := by
  have hi : i < 8 := by simpa using h
  simp only [bytesOfEntry, List.getElem_reverse, List.getElem_map, List.getElem_range, List.length_map, List.length_range]
  congr 1
  omega

/-- The eight bytes of a word side by side, the highest first, are the word. -/
theorem append_bytes (e : Word64) :
    e.extractLsb' 56 8 ++ e.extractLsb' 48 8 ++ e.extractLsb' 40 8 ++ e.extractLsb' 32 8 ++ e.extractLsb' 24 8 ++
      e.extractLsb' 16 8 ++ e.extractLsb' 8 8 ++ e.extractLsb' 0 8 = e := by
  have join : ∀ start len : Nat,
      e.extractLsb' (start + 8) len ++ e.extractLsb' start 8 = e.extractLsb' start (len + 8) :=
    fun _ _ => BitVec.extractLsb'_append_extractLsb'_eq_extractLsb' rfl
  rw [join 48, join 40, join 32, join 24, join 16, join 8, join 0]
  exact BitVec.extractLsb'_eq_self

/-! ### A page is mapped as a whole (R45, R71) -/

/-- The same entries map an input address to the same page as another mapping does, at that input address's own offset. -/
structure Mapped.SamePage (ia : Word64) (m m' : Mapped) : Prop where
  entries : m'.entries = m.entries
  size : m'.size = m.size
  level : m'.level = m.level
  addr : m'.addr = m.addr
  pa : m'.pa.toNat = m.pa.toNat - m.pa.toNat % 2 ^ pageBits m.size + ia.toNat % 2 ^ pageBits m.size

/-- Two chains of entries, for two input addresses, map as one every page of at most `low` offset bits, and map no other. -/
def MapPagesAlike (ia ia' : Word64) (low : Nat) (chain chain' : Word64 → Option Mapped) : Prop :=
  ∀ base m, chain base = some m → pageBits m.size ≤ low ∧
    (ia.toNat / 2 ^ pageBits m.size = ia'.toNat / 2 ^ pageBits m.size → ∃ m', chain' base = some m' ∧ m.SamePage ia' m')

/-- A final address with its offset replaced is the final address of the other input address (R68 to R70). -/
theorem page_offset_replaced {n k : Nat} (page : BitVec n) (ia ia' : Word64) (h : n + k ≤ 64) :
    ((page ++ ia'.extractLsb' 0 k).setWidth 64).toNat =
      ((page ++ ia.extractLsb' 0 k).setWidth 64).toNat - ((page ++ ia.extractLsb' 0 k).setWidth 64).toNat % 2 ^ k +
        ia'.toNat % 2 ^ k := by
  rw [page_offset_toNat page ia h, page_offset_toNat page ia' h, Nat.mul_add_mod_of_lt (Nat.mod_lt _ (Nat.two_pow_pos k)),
    Nat.add_sub_cancel]

/-- What an entry read at a level makes of an input address when it is a leaf of this page (R68 to R71). -/
def leafMapped {n : Nat} (e base : Word64) (L : Level) (size : PageSize) (page : BitVec n) (ia : Word64) : Mapped where
  entries := [e]
  leaf := e
  level := L
  addr := entryAddr base ia L
  pa := (page ++ ia.extractLsb' 0 (pageBits size)).setWidth 64
  size := size

/-- Input addresses of one page read the same leaf, and it maps them to one page (R45). -/
theorem leafMapped_alike {n : Nat} {e base ia ia' : Word64} {L : Level} {rd : Word64 → Option Word64}
    {chain : Word64 → Option Mapped} (size : PageSize) (page : BitVec n) (hr : rd (entryAddr base ia L) = some e)
    (hle : pageBits size ≤ indexLow L) (hn : n + pageBits size ≤ 64)
    (hchain : rd (entryAddr base ia' L) = some e → chain base = some (leafMapped e base L size page ia')) :
    pageBits size ≤ indexLow L ∧ (ia.toNat / 2 ^ pageBits size = ia'.toNat / 2 ^ pageBits size →
      ∃ m', chain base = some m' ∧ (leafMapped e base L size page ia).SamePage ia' m') := by
  refine ⟨hle, fun hpage => ?_⟩
  have haddr := entryAddr_same_page base ia ia' L _ hpage hle
  exact ⟨_, hchain (haddr ▸ hr), rfl, rfl, rfl, haddr.symm, page_offset_replaced page ia ia' hn⟩

/-- `Classify` gives a large leaf at the level of its page size only (R85). -/
theorem level_of_largeLeaf (c : Config) (L : Level) (e : Word64) :
    (classify c L e = .leaf1G → L = .l3) ∧ (classify c L e = .leaf2M → L = .l2) := by
  unfold classify
  cases L <;> split_ifs <;> simp

theorem twelve_le_indexLow (L : Level) : 12 ≤ indexLow L := by
  cases L <;> decide

/-- Chains from a level down map pages alike where the chains below them do (R45, R63). -/
theorem chainAt_mapPagesAlike (c : Config) (ia ia' : Word64) (rd : Word64 → Option Word64) (L : Level) {low : Nat}
    {below below' : Word64 → Option Mapped} (hlow : low ≤ indexLow L) (hb : MapPagesAlike ia ia' low below below') :
    MapPagesAlike ia ia' (indexLow L) (chainAt c ia rd L below) (chainAt c ia' rd L below') := by
  intro base m hm
  simp only [chainAt] at hm
  cases hr : rd (entryAddr base ia L) with
  | none => simp only [hr] at hm; cases hm
  | some e =>
    cases hc : classify c L e with
    | notPresent => simp only [hr, hc] at hm; cases hm
    | reserved => simp only [hr, hc] at hm; cases hm
    | leaf4K =>
      simp only [hr, hc] at hm
      cases hm
      exact leafMapped_alike .size4K (fieldAddr e) hr (twelve_le_indexLow L) (by decide)
        (fun hr' => by simp only [chainAt, hr', hc]; rfl)
    | leaf2M =>
      simp only [hr, hc] at hm
      cases hm
      exact leafMapped_alike .size2M (fieldPage2M e) hr ((level_of_largeLeaf c L e).2 hc ▸ le_refl 21) (by decide)
        (fun hr' => by simp only [chainAt, hr', hc]; rfl)
    | leaf1G =>
      simp only [hr, hc] at hm
      cases hm
      exact leafMapped_alike .size1G (fieldPage1G e) hr ((level_of_largeLeaf c L e).1 hc ▸ le_refl 30) (by decide)
        (fun hr' => by simp only [chainAt, hr', hc]; rfl)
    | table =>
      simp only [hr, hc] at hm
      obtain ⟨m₁, hm₁, rfl⟩ := Option.map_eq_some_iff.mp hm
      obtain ⟨hle, halike⟩ := hb _ m₁ hm₁
      refine ⟨hle.trans hlow, fun hpage => ?_⟩
      obtain ⟨m₁', hm₁', hsame⟩ := halike hpage
      rw [entryAddr_same_page base ia ia' L _ hpage (hle.trans hlow)] at hr
      exact ⟨{ m₁' with entries := e :: m₁'.entries }, by simp only [chainAt, hr, hc, hm₁', Option.map_some],
        congrArg (e :: ·) hsame.entries, hsame.size, hsame.level, hsame.addr, hsame.pa⟩

/-- The chains of a structure map pages alike (R45, R63). -/
theorem mappedBy_samePage {c : Config} {ctx : Ctx} {rd : Word64 → Option Word64} {ia ia' : Word64} {m : Mapped}
    (hm : mappedBy c ctx rd ia = some m)
    (hpage : ia.toNat / 2 ^ pageBits m.size = ia'.toNat / 2 ^ pageBits m.size) :
    ∃ m', mappedBy c ctx rd ia' = some m' ∧ m.SamePage ia' m' := by
  have h0 : MapPagesAlike ia ia' 12 (fun _ => none) (fun _ => none) := fun _ _ h => nomatch h
  have h1 := chainAt_mapPagesAlike c ia ia' rd .l1 (by decide) h0
  have h2 := chainAt_mapPagesAlike c ia ia' rd .l2 (by decide) h1
  have h3 := chainAt_mapPagesAlike c ia ia' rd .l3 (by decide) h2
  have h4 := chainAt_mapPagesAlike c ia ia' rd .l4 (by decide) h3
  by_cases hl : levelsOfAgaw ctx.agaw = 4
  · simp only [mappedBy, if_pos hl] at hm ⊢
    exact (h4 _ m hm).2 hpage
  · simp only [mappedBy, if_neg hl] at hm ⊢
    exact (h3 _ m hm).2 hpage

/-! ### The accesses of devices (R57, D11) -/

/-- The first hole is the first address that is not Backed (R56). -/
theorem firstHole_eq_some {c : Config} {a n i : Nat} (hi : i < n) (hb : backed c (a + i) = false)
    (hlt : ∀ j, j < i → backed c (a + j) = true) : firstHole c a n = some (a + i) := by
  have hfind : (List.range n).find? (fun j => !backed c (a + j)) = some i := by
    rw [List.find?_range_eq_some]
    exact ⟨by simp [hb], List.mem_range.mpr hi, fun j hj => by simp [hlt j hj]⟩
  rw [firstHole, List.find?_map]
  exact congrArg (Option.map (a + ·)) hfind

/-- The turn of a device whose request is translated is its access (R57). -/
theorem runTurn_conclude_translated {s : State} {k : Nat} {ws : Walk} {pa : Word64} {size : PageSize}
    {snooped tm : Bool} {mt : MemType} (hk : s.walks[k]? = some ws)
    (hp : ws.phase = .done (.translated pa size snooped mt tm)) (data : List Byte) :
    runTurn (.conclude k data) s = translatedAccess k ws pa size snooped mt data s := by
  simp only [runTurn, conclude, hk, hp]

/-- The state once a device's access has been noted and its request has left (R57, R177). -/
def accessNoted (k : Nat) (ws : Walk) (pa : Word64) (size : PageSize) (snooped : Bool) (mt : MemType) (data : List Byte)
    (s : State) : State :=
  { s with
    walks := s.walks.eraseIdx k
    accesses := s.accesses ++
      [{ req := ws.req, pa := pa, size := size, snooped := snooped, memType := mt, data := data }] }

section
variable {s : State} {k : Nat} {ws : Walk} {pa : Word64} {size : PageSize} {snooped : Bool} {mt : MemType}
  {data : List Byte}

/-- The access of a READ notes the bytes found (R57). -/
theorem translatedAccess_read (hq : ws.req.kind = .read)
    (hb : ∀ i, i < (data.take (bytesLeftInPage pa size)).length → backed s.cfg (pa.toNat + i) = true) :
    translatedAccess k ws pa size snooped mt data s =
      .next (accessNoted k ws pa size snooped mt
        (memReadBytes s.mem pa.toNat (data.take (bytesLeftInPage pa size)).length) s) := by
  simp only [translatedAccess, (firstHole_eq_none_iff _ _ _).mpr hb, hq]
  rfl

/-- The access of a WRITE stores its bytes and notes them (R57). -/
theorem translatedAccess_write (hq : ws.req.kind = .write)
    (hb : ∀ i, i < (data.take (bytesLeftInPage pa size)).length → backed s.cfg (pa.toNat + i) = true) :
    translatedAccess k ws pa size snooped mt data s =
      .next (storeBytes pa.toNat (data.take (bytesLeftInPage pa size))
        (accessNoted k ws pa size snooped mt (data.take (bytesLeftInPage pa size)) s)) := by
  simp only [translatedAccess, (firstHole_eq_none_iff _ _ _).mpr hb, hq]
  rfl

/-- The access of an ATOMIC stores the free values of its operation and notes the bytes found (R57, R114). -/
theorem translatedAccess_atomic (hq : ws.req.kind = .atomic)
    (hb : ∀ i, i < (data.take (bytesLeftInPage pa size)).length → backed s.cfg (pa.toNat + i) = true) :
    translatedAccess k ws pa size snooped mt data s =
      .next (countDraw (storeBytes pa.toNat
        (atomicResult s.freeCount (memReadBytes s.mem pa.toNat (data.take (bytesLeftInPage pa size)).length)
          (data.take (bytesLeftInPage pa size)))
        (accessNoted k ws pa size snooped mt
          (memReadBytes s.mem pa.toNat (data.take (bytesLeftInPage pa size)).length) s))) := by
  simp only [translatedAccess, (firstHole_eq_none_iff _ _ _).mpr hb, hq]
  rfl

end

@[simp] theorem atomicResult_length (n : Nat) (old data : List Byte) : (atomicResult n old data).length = data.length := by
  simp [atomicResult]

theorem atomicResult_get (n : Nat) (old data : List Byte) (i : Nat) (h : i < (atomicResult n old data).length) :
    (atomicResult n old data)[i] = Config.atomicByte n old data i := by
  simp [atomicResult]

/-- The bytes up to the end of a page are bytes of that page (D11). -/
theorem same_page_of_lt_bytesLeftInPage {pa : Word64} {size : PageSize} {i : Nat} (h : i < bytesLeftInPage pa size) :
    (pa.toNat + i) / 2 ^ pageBits size = pa.toNat / 2 ^ pageBits size := by
  have hlt : pa.toNat % 2 ^ pageBits size + i < 2 ^ pageBits size := by
    unfold bytesLeftInPage at h
    omega
  calc (pa.toNat + i) / 2 ^ pageBits size
      = (2 ^ pageBits size * (pa.toNat / 2 ^ pageBits size) + (pa.toNat % 2 ^ pageBits size + i)) / 2 ^ pageBits size := by
        rw [← Nat.add_assoc, Nat.div_add_mod]
    _ = pa.toNat / 2 ^ pageBits size := by
        rw [Nat.mul_add_div (Nat.two_pow_pos _), Nat.div_eq_of_lt hlt, Nat.add_zero]

/-! ### The obligations of the family -/

/-- Settles O2: a listed turn keeps the invariant, and so does the hardware where no turn is listed. -/
theorem everyStepKeepsTheInvariant : Obligations.EveryStepKeepsTheInvariant := by
  unfold Obligations.EveryStepKeepsTheInvariant
  intro s t hi h
  cases ha : s.agenda with
  | nil =>
    rw [step_of_no_agenda ha, defaultMove] at h
    split at h
    · rw [hwStep_exec] at h; exact hwStep_inv hi h
    · cases h; exact hi
  | cons turn rest =>
    rw [step_of_agenda ha] at h
    have hi' : State.Inv { s with agenda := rest } := ⟨hi.memory, hi.caches, hi.walks, hi.logged⟩
    exact runTurn_inv hi' h

/-- Settles O5: of the turns only a write and a device's access store bytes, and the default move is the hardware's. -/
theorem hardwareWritesNoMemory : Obligations.HardwareWritesNoMemory := by
  unfold Obligations.HardwareWritesNoMemory
  intro s t h hw hc
  cases ha : s.agenda with
  | nil =>
    rw [step_of_no_agenda ha, defaultMove] at h
    split at h
    · have hf := hwStep_frame h
      exact ⟨hf.mem, fun _ => hf.hist⟩
    · cases h; exact ⟨rfl, fun _ => rfl⟩
  | cons turn rest =>
    rw [step_of_agenda ha] at h
    simp only [ha, List.head?_cons, ne_eq, Option.some.injEq] at hw hc ⊢
    exact runTurn_keeps_memory (s := { s with agenda := rest }) h hw hc

/-- Settles O10: each byte reads back, and the eight of them side by side are the entry. -/
theorem entryBytesInMemory : Obligations.EntryBytesInMemory := by
  unfold Obligations.EntryBytesInMemory
  intro o m a e hm
  have hbytes : ∀ i, i < 8 → memRead (memWriteBytes m a (bytesOfEntry o e)) (a + i) =
      (match o with
        | .little => e.extractLsb' (8 * i) 8
        | .big => e.extractLsb' (56 - 8 * i) 8) := by
    intro i hi
    rw [memRead_memWriteBytes_inside m a i (bytesOfEntry o e) hm (by simpa using hi)]
    cases o with
    | little => exact bytesOfEntry_little_get e i _
    | big => exact bytesOfEntry_big_get e i _
  refine ⟨?_, hbytes⟩
  have h0 := hbytes 0 (by decide)
  rw [Nat.add_zero] at h0
  simp only [content64, h0, hbytes 1 (by decide), hbytes 2 (by decide), hbytes 3 (by decide), hbytes 4 (by decide),
    hbytes 5 (by decide), hbytes 6 (by decide), hbytes 7 (by decide)]
  cases o <;> exact append_bytes e

/-- Settles O15: the chains of the two input addresses read the same entries, since these select by bits above the page. -/
theorem pageIsMappedAsAWhole : Obligations.PageIsMappedAsAWhole := by
  unfold Obligations.PageIsMappedAsAWhole
  intro c ctx rd ia ia' m hm hpage
  obtain ⟨m', hm', hsame⟩ := mappedBy_samePage hm hpage
  exact ⟨m', hm', hsame.entries, hsame.size, hsame.level, hsame.addr, hsame.pa⟩

/-- Settles O26: in both cases the step notes the read and ends the walk at the unusable entry. -/
theorem failedReadAndReservedEntryFault : Obligations.FailedReadAndReservedEntryFault := by
  unfold Obligations.FailedReadAndReservedEntryFault
  intro s k ws ctx cause hk hp hf hcause
  have hu : ws.unfinished = true := by rw [Walk.unfinished, hp]
  have hstep : hwStep exec k s = .next (endWalk k (entryNoted s ws ctx) ctx (.unusable cause)
      (readNoted k ws ctx (entryAddr ws.base ws.req.ia ws.level) s)) := by
    rw [hwStep_exec, hwStep_walk k ws ctx s hk hp, walkStep_eq k ws ctx s hk hp]
    obtain ⟨rfl, hb⟩ | ⟨rfl, e, hread, hcls⟩ := hcause
    · rw [(memRead64_eq_none_iff s _).mpr hb]; rfl
    · simp only [hread, entryEffect, noteRead_level, hcls]; rfl
  have hadv := (readNoted_advances k ws ctx (entryAddr ws.base ws.req.ia ws.level) s hu).trans hu
    (endWalk_advances k (entryNoted s ws ctx) ctx (.unusable cause) _)
  rw [endOutcome_unusable (entryNoted s ws ctx) ctx cause (readNoted k ws ctx _ s) hf] at hadv
  exact ⟨_, hstep, hadv.frame, fun j hj => hadv.walk_at_other hj, hasOutcome_of_walk (hadv.walk_at hk) rfl, hadv.faultLog⟩

/-- Settles O37: the request alone advances, and the steps of its processing end it. -/
theorem requestFrame : Obligations.RequestFrame := by
  unfold Obligations.RequestFrame
  intro s t q h
  rw [exec_instr] at h
  obtain ⟨ws, hadv, hreq⟩ := process_advances h
  obtain ⟨o, ho⟩ := process_hasOutcome h
  have hwalks : t.walks = s.walks ++ [ws] := by
    rw [hadv.walks, issueRequest_walks, List.set_append_right _ _ (le_refl _), Nat.sub_self]; rfl
  have hphase : ws.phase = .done o := by
    simpa [State.hasOutcome, State.phaseAt, hwalks] using ho
  refine ⟨process_frame h, by simp [hwalks], fun j hj => ?_, fun a => by rw [(process_frame h).mem], o, ho, ?_⟩
  · rw [hwalks, List.getElem?_append_left hj]
  · rw [hadv.faultLog, issueRequest_faultLog, Walk.records, hphase, hreq]

/-- Settles O47: the bytes stored read back, and all of them lie before the end of the page. -/
theorem translatedWriteStoresInItsPage : Obligations.TranslatedWriteStoresInItsPage := by
  unfold Obligations.TranslatedWriteStoresInItsPage
  intro s k ws pa size snooped mt tm data bytes hk hp hq hm hbytes hb
  obtain rfl : bytes = data.take (bytesLeftInPage pa size) := hbytes
  refine ⟨_, (runTurn_conclude_translated hk hp data).trans (translatedAccess_write hq hb),
    fun i h => memRead_memWriteBytes_inside s.mem pa.toNat i _ hm h, fun i h => ?_,
    fun a h => memRead_memWriteBytes_outside s.mem pa.toNat a _ h, rfl, rfl, rfl, rfl, rfl, rfl⟩
  exact same_page_of_lt_bytesLeftInPage (h.trans_le (List.length_take_le _ _))

/-- Settles O48: the access notes the bytes found and the request leaves. -/
theorem translatedReadGetsMemory : Obligations.TranslatedReadGetsMemory := by
  unfold Obligations.TranslatedReadGetsMemory
  intro s k ws pa size snooped mt tm data n hk hp hq hn hb
  have hlen : n = (data.take (bytesLeftInPage pa size)).length := by rw [hn, List.length_take, Nat.min_comm]; rfl
  subst hlen
  rw [runTurn_conclude_translated hk hp, translatedAccess_read hq hb]
  rfl

/-- Settles O49: the bytes stored are the free values, one for each byte of the operand. -/
theorem translatedAtomicChangesOnlyItsBytes : Obligations.TranslatedAtomicChangesOnlyItsBytes := by
  unfold Obligations.TranslatedAtomicChangesOnlyItsBytes
  intro s k ws pa size snooped mt tm data bytes hk hp hq hm hbytes hb
  obtain rfl : bytes = data.take (bytesLeftInPage pa size) := hbytes
  refine ⟨_, _, (runTurn_conclude_translated hk hp data).trans (translatedAccess_atomic hq hb), rfl, fun i h => ?_,
    fun a h => ?_, rfl, rfl, rfl, rfl, rfl, rfl⟩
  · exact (memRead_memWriteBytes_inside s.mem pa.toNat i (atomicResult s.freeCount _ _) hm (by simpa using h)).trans
      (atomicResult_get _ _ _ _ _)
  · exact memRead_memWriteBytes_outside s.mem pa.toNat a (atomicResult s.freeCount _ _) (by simpa using h)

/-- Settles O52: the address named is the first hole. -/
theorem accessIntoAHoleStops : Obligations.AccessIntoAHoleStops := by
  unfold Obligations.AccessIntoAHoleStops
  refine ⟨fun s a i data hi hb hlt => ?_, fun s k i ws pa size snooped mt tm data hk hp hi hb hlt => ?_⟩
  · simp only [runTurn, softwareWrite, firstHole_eq_some hi hb hlt]
  · have hi' : i < (data.take (bytesLeftInPage pa size)).length := by rw [List.length_take, Nat.min_comm]; exact hi
    rw [runTurn_conclude_translated hk hp]
    simp only [translatedAccess, firstHole_eq_some hi' hb hlt]

/-- Settles O54: every turn but `Invalidate` stores bytes at most. -/
theorem writesExtendHist : Obligations.WritesExtendHist := by
  unfold Obligations.WritesExtendHist
  intro s t turn hi hturn h x hx v
  exact (runTurn_writes hturn h).mem_histOf hi.caches hx v

/-- Settles O55: the current content is a member of every Hist, so a read always has one to draw. -/
theorem entryReadsDrawFromHist : Obligations.EntryReadsDrawFromHist := by
  unfold Obligations.EntryReadsDrawFromHist
  intro s a hi
  have hcur : content64 s.cfg.byteOrder s.mem a.toNat ∈ histOf s a.toNat := content64_mem_histSet hi.caches a.toNat
  exact ⟨memRead64_eq_none_iff s a, fun v => memRead64_mem (List.ne_nil_of_mem hcur), hcur⟩

/-- Settles O56: no set stays listed, so a read is one of clean caches. -/
theorem invalidateMakesReadsCurrent : Obligations.InvalidateMakesReadsCurrent := by
  unfold Obligations.InvalidateMakesReadsCurrent
  intro s
  refine ⟨invalidateCaches s, rfl, rfl, histOf_invalidate s, fun a hb => ?_⟩
  rw [memRead64_clean _ a (invalidateCaches_hist s), invalidateCaches_cfg, if_pos hb, invalidateCaches_mem]

end Sys2Proof.Machine
end

section
/-! PROOFS, family 30_encoding.md. The named bits of an entry and the fields of an assembled word, the clauses of a
level, the decoder and the row of a usable word, the assembly of addresses, the page of a translation; then the
obligations of the family. -/

namespace Sys2Proof.Machine

/-! ### Named bits (R9, R61, R83) -/

/-- The bits of an entry that are named at every level (R61). -/
abbrev NamedBit (p : BitPos) (i : Nat) : Prop := (12 ≤ i ∧ i < 52) ∨ i = p.r ∨ i = p.w ∨ i = p.snp ∨ i = p.tm

theorem namedBit_r (p : BitPos) : NamedBit p p.r := .inr (.inl rfl)

theorem namedBit_w (p : BitPos) : NamedBit p p.w := .inr (.inr (.inl rfl))

theorem namedBit_snp (p : BitPos) : NamedBit p p.snp := .inr (.inr (.inr (.inl rfl)))

theorem namedBit_tm (p : BitPos) : NamedBit p p.tm := .inr (.inr (.inr (.inr rfl)))

/-- A position of a single-bit field: a bit of the word outside ADDR (R9). -/
abbrev OutsideAddr (n : Nat) : Prop := n < 64 ∧ (n < 12 ∨ 51 < n)

/-- The positions of R9: apart from each other, and outside ADDR. -/
structure PosApart (p : BitPos) : Prop where
  distinct : [p.r, p.w, p.ps, p.snp, p.tm].Nodup
  r : OutsideAddr p.r
  w : OutsideAddr p.w
  ps : OutsideAddr p.ps
  snp : OutsideAddr p.snp
  tm : OutsideAddr p.tm

theorem posApart_of_wf {c : Config} (h : c.wf = true) : PosApart c.pos := by
  simp only [Config.wf, BitPos.wf, Bool.and_eq_true, decide_eq_true_eq, List.all_cons, List.all_nil, Bool.or_eq_true,
    and_true] at h
  obtain ⟨-, hd, hr, hw, hps, hsnp, htm⟩ := h
  exact ⟨hd, hr, hw, hps, hsnp, htm⟩

theorem haw_of_wf {c : Config} (h : c.wf = true) : 13 ≤ c.haw ∧ c.haw ≤ 52 := by
  simp only [Config.wf, Bool.and_eq_true, decide_eq_true_eq] at h
  obtain ⟨⟨⟨-, hlo⟩, hhi⟩, -⟩ := h
  exact ⟨hlo, hhi⟩

theorem PosApart.ps_not_named {p : BitPos} (h : PosApart p) : ¬NamedBit p p.ps := by
  have hd := h.distinct
  have hps := h.ps
  simp only [List.nodup_cons, List.mem_cons, List.not_mem_nil, or_false, not_or] at hd
  obtain ⟨⟨-, hr, -⟩, ⟨hw, -⟩, ⟨hsnp, htm⟩, -⟩ := hd
  omega

/-- The ignored bits of an entry leave every named bit clear (R61, R83). -/
theorem ignoredBitsOnly_iff (p : BitPos) (ign : Word64) :
    ignoredBitsOnly p ign = true ↔ ∀ i, NamedBit p i → ign.getLsbD i = false := by
  simp only [ignoredBitsOnly, Bool.and_eq_true, beq_iff_eq, extract_zero_iff, Bool.not_eq_true']
  constructor
  · rintro ⟨⟨⟨⟨ha, hr⟩, hw⟩, hsnp⟩, htm⟩ i (⟨h1, h2⟩ | rfl | rfl | rfl | rfl)
    · exact ha i h1 h2
    all_goals assumption
  · intro h
    exact ⟨⟨⟨⟨fun i h1 h2 => h i (.inl ⟨h1, h2⟩), h _ (namedBit_r p)⟩, h _ (namedBit_w p)⟩,
      h _ (namedBit_snp p)⟩, h _ (namedBit_tm p)⟩

theorem ignoredPte_bit (p : BitPos) (e : Word64) {i : Nat} (hi : i < 64) :
    (ignoredPte p e).getLsbD i = (e.getLsbD i && !decide (NamedBit p i)) := by
  rw [ignoredPte_get p e i hi]
  simp only [Bool.decide_or, Bool.decide_and, Bool.or_assoc]

/-- Above level 1 the bit at PS_BIT is named too (R61). -/
theorem ignoredUpper_bit (p : BitPos) (e : Word64) {i : Nat} (hi : i < 64) :
    (ignoredUpper p e).getLsbD i = (e.getLsbD i && !(decide (NamedBit p i) || decide (i = p.ps))) := by
  rw [ignoredUpper_get p e i hi]
  simp only [Bool.decide_or, Bool.decide_and, Bool.or_assoc]

theorem ignoredPte_clear (p : BitPos) (e : Word64) (i : Nat) (h : NamedBit p i) :
    (ignoredPte p e).getLsbD i = false := by
  by_cases hi : i < 64
  · simp only [ignoredPte_bit p e hi, h, decide_true, Bool.not_true, Bool.and_false]
  · exact BitVec.getLsbD_of_ge _ _ (by omega)

theorem ignoredUpper_clear (p : BitPos) (e : Word64) (i : Nat) (h : NamedBit p i ∨ i = p.ps) :
    (ignoredUpper p e).getLsbD i = false := by
  by_cases hi : i < 64
  · simp only [ignoredUpper_bit p e hi, ← Bool.decide_or, h, decide_true, Bool.not_true, Bool.and_false]
  · exact BitVec.getLsbD_of_ge _ _ (by omega)

/-! ### The fields of an assembled word (R61, R62) -/

/-- The fields of a word that are named at every level (R61, R62). -/
structure NamedFields (c : Config) (e : Word64) (r w snp tm : Bool) (addr : Frame) : Prop where
  r : fieldR c e = r
  w : fieldW c e = w
  snp : fieldSnp c e = snp
  tm : fieldTm c e = tm
  addr : fieldAddr e = addr

section
variable {c : Config} {r w ps snp tm : Bool} {addr : Frame} {ign : Word64}

theorem assemble_outsideAddr (p : BitPos) {i : Nat} (h : OutsideAddr i) :
    (assemble p r w ps snp tm addr ign).getLsbD i =
      (ign.getLsbD i || (r && decide (i = p.r)) || (w && decide (i = p.w)) || (ps && decide (i = p.ps))
        || (snp && decide (i = p.snp)) || (tm && decide (i = p.tm))) := by
  obtain ⟨hi, ha⟩ := h
  have hin : (decide (12 ≤ i) && decide (i < 52)) = false := by
    rw [← Bool.decide_and, decide_eq_false_iff_not]
    omega
  rw [assemble_get, hin]
  simp only [hi, decide_true, Bool.and_true, Bool.false_and, Bool.or_false]

/-- An assembled word has the fields it is assembled from, where the ignored bits leave them clear. -/
theorem assemble_namedFields (hp : PosApart c.pos) (hi : ∀ i, NamedBit c.pos i → ign.getLsbD i = false) :
    NamedFields c (assemble c.pos r w ps snp tm addr ign) r w snp tm addr := by
  have hd := hp.distinct
  simp only [List.nodup_cons, List.mem_cons, List.not_mem_nil, or_false, not_or] at hd
  obtain ⟨⟨hrw, hrps, hrsnp, hrtm⟩, ⟨hwps, hwsnp, hwtm⟩, ⟨hpssnp, hpstm⟩, hsnptm, -⟩ := hd
  constructor
  · rw [fieldR, assemble_outsideAddr _ hp.r, hi _ (namedBit_r c.pos)]
    simp [hrw, hrps, hrsnp, hrtm]
  · rw [fieldW, assemble_outsideAddr _ hp.w, hi _ (namedBit_w c.pos)]
    simp [Ne.symm hrw, hwps, hwsnp, hwtm]
  · rw [fieldSnp, assemble_outsideAddr _ hp.snp, hi _ (namedBit_snp c.pos)]
    simp [Ne.symm hrsnp, Ne.symm hwsnp, Ne.symm hpssnp, hsnptm]
  · rw [fieldTm, assemble_outsideAddr _ hp.tm, hi _ (namedBit_tm c.pos)]
    simp [Ne.symm hrtm, Ne.symm hwtm, Ne.symm hpstm, Ne.symm hsnptm]
  · apply BitVec.eq_of_getLsbD_eq
    intro i hlt
    have hne : ∀ n, OutsideAddr n → 12 + i ≠ n := by omega
    rw [fieldAddr, extract_get, assemble_get, hi (12 + i) (by omega)]
    simp [hlt, hne _ hp.r, hne _ hp.w, hne _ hp.ps, hne _ hp.snp, hne _ hp.tm]
    omega

theorem assemble_unnamed {i : Nat} (h : ¬NamedBit c.pos i) (hi : i < 64) :
    (assemble c.pos r w ps snp tm addr ign).getLsbD i = (ign.getLsbD i || (ps && decide (i = c.pos.ps))) := by
  simp only [not_or, not_and_or] at h
  obtain ⟨ha, hr, hw, hsnp, htm⟩ := h
  rw [assemble_outsideAddr _ ⟨hi, by omega⟩]
  simp [hr, hw, hsnp, htm]

theorem assemble_ps (hp : PosApart c.pos) :
    fieldPs c (assemble c.pos r w ps snp tm addr ign) = (ign.getLsbD c.pos.ps || ps) := by
  rw [fieldPs, assemble_unnamed hp.ps_not_named hp.ps.1]
  simp

theorem ignoredPte_assemble (hi : ∀ i, NamedBit c.pos i → ign.getLsbD i = false) :
    ignoredPte c.pos (assemble c.pos r w false snp tm addr ign) = ign := by
  apply BitVec.eq_of_getLsbD_eq
  intro i hlt
  by_cases hn : NamedBit c.pos i
  · rw [ignoredPte_clear _ _ i hn, hi i hn]
  · rw [ignoredPte_bit _ _ hlt, assemble_unnamed hn hlt]
    simp [hn]

theorem ignoredUpper_assemble (hi : ∀ i, NamedBit c.pos i → ign.getLsbD i = false)
    (hps : ign.getLsbD c.pos.ps = false) : ignoredUpper c.pos (assemble c.pos r w ps snp tm addr ign) = ign := by
  apply BitVec.eq_of_getLsbD_eq
  intro i hlt
  by_cases hn : NamedBit c.pos i
  · rw [ignoredUpper_clear _ _ i (.inl hn), hi i hn]
  · by_cases hi' : i = c.pos.ps
    · rw [ignoredUpper_clear _ _ i (.inr hi'), hi', hps]
    · rw [ignoredUpper_bit _ _ hlt, assemble_unnamed hn hlt]
      simp only [hn, hi', decide_false, Bool.or_false, Bool.not_false, Bool.and_true, Bool.and_false]
end

/-! ### A word is assembled from its fields (R61, R62, R83) -/

/-- Two words with the same named fields and the same unnamed bits are one. -/
theorem eq_of_namedFields {c : Config} {e e' : Word64}
    (hf : NamedFields c e (fieldR c e') (fieldW c e') (fieldSnp c e') (fieldTm c e') (fieldAddr e'))
    (hu : ∀ i, i < 64 → ¬NamedBit c.pos i → e.getLsbD i = e'.getLsbD i) : e = e' := by
  apply BitVec.eq_of_getLsbD_eq
  intro i hi
  by_cases hn : NamedBit c.pos i
  · obtain ⟨h1, h2⟩ | rfl | rfl | rfl | rfl := hn
    · have h := congrArg (fun x => x.getLsbD (i - 12)) hf.addr
      simp only [fieldAddr, extract_get, show 12 + (i - 12) = i by omega, show i - 12 < 40 by omega, decide_true,
        Bool.true_and] at h
      exact h
    · exact hf.r
    · exact hf.w
    · exact hf.snp
    · exact hf.tm
  · exact hu i hi hn

theorem assemble_fields_pte {c : Config} (hp : PosApart c.pos) (e : Word64) :
    assemble c.pos (fieldR c e) (fieldW c e) false (fieldSnp c e) (fieldTm c e) (fieldAddr e)
      (ignoredPte c.pos e) = e :=
  eq_of_namedFields (assemble_namedFields hp (ignoredPte_clear c.pos e)) fun i hi hn => by
    rw [assemble_unnamed hn hi, ignoredPte_bit _ _ hi]
    simp [hn]

theorem assemble_fields_upper {c : Config} (hp : PosApart c.pos) (e : Word64) :
    assemble c.pos (fieldR c e) (fieldW c e) (fieldPs c e) (fieldSnp c e) (fieldTm c e) (fieldAddr e)
      (ignoredUpper c.pos e) = e :=
  eq_of_namedFields (assemble_namedFields hp fun i hn => ignoredUpper_clear c.pos e i (.inl hn)) fun i hi hn => by
    rw [assemble_unnamed hn hi, ignoredUpper_bit _ _ hi]
    by_cases hps : i = c.pos.ps
    · simp [hps, fieldPs]
    · simp [hn, hps]

/-- ADDR of a 1-GByte leaf: the page bits, then the bits that R76 reserves. -/
theorem fieldAddr_eq_page1G (e : Word64) : fieldAddr e = fieldPage1G e ++ e.extractLsb' 12 18 :=
  (BitVec.extractLsb'_append_extractLsb'_eq_extractLsb' (start₁ := 12) (len₁ := 18) (len₂ := 22) rfl).symm

/-- ADDR of a 2-MByte leaf: the page bits, then the bits that R78 reserves. -/
theorem fieldAddr_eq_page2M (e : Word64) : fieldAddr e = fieldPage2M e ++ e.extractLsb' 12 9 :=
  (BitVec.extractLsb'_append_extractLsb'_eq_extractLsb' (start₁ := 12) (len₁ := 9) (len₂ := 31) rfl).symm

/-! ### The reserved bits of a level (R73 to R84) -/

section
variable {c : Config} {L : Level} {e : Word64}

theorem rsvdClause_eq_none_iff :
    rsvdClause c L e = none ↔ addrAboveHaw c e = false ∧ levelClause c L e = none := by
  cases h : addrAboveHaw c e <;> simp [rsvdClause, h]

theorem snpOrTm_eq_false_iff : snpOrTm c e = false ↔ fieldSnp c e = false ∧ fieldTm c e = false := by
  rw [snpOrTm, Bool.or_eq_false_iff]

/-- A list of clauses finds none when its first clause does not hold and the others find none. -/
theorem clause_ite_eq_none_iff {b : Bool} {cl : RsvdClause} {others : Option RsvdClause} :
    (if b then some cl else others) = none ↔ b = false ∧ others = none := by
  cases b <;> simp

/-- A SL-PML4E breaks no clause of its level (R74, R79). -/
theorem levelClause_l4_eq_none_iff : levelClause c .l4 e = none ↔ fieldPs c e = false ∧ snpOrTm c e = false := by
  simp only [levelClause, clause_ite_eq_none_iff, and_true]

/-- A SL-PDPE with PS = 0 breaks no clause of its level (R79). -/
theorem levelClause_l3_table (hps : fieldPs c e = false) : levelClause c .l3 e = none ↔ snpOrTm c e = false := by
  simp only [levelClause, hps, Bool.false_eq_true, if_false, clause_ite_eq_none_iff, and_true]

/-- A SL-PDPE with PS = 1 breaks no clause of its level (R75, R76, R82). -/
theorem levelClause_l3_page (hps : fieldPs c e = true) : levelClause c .l3 e = none ↔
    c.cap.sllps1G = true ∧ e.extractLsb' 12 18 = 0 ∧ snpTmLarge c e = false := by
  simp only [levelClause, hps, if_true, clause_ite_eq_none_iff, Bool.not_eq_false', bne_eq_false_iff_eq, and_true]

/-- A SL-PDE with PS = 0 breaks no clause of its level (R79). -/
theorem levelClause_l2_table (hps : fieldPs c e = false) : levelClause c .l2 e = none ↔ snpOrTm c e = false := by
  simp only [levelClause, hps, Bool.false_eq_true, if_false, clause_ite_eq_none_iff, and_true]

/-- A SL-PDE with PS = 1 breaks no clause of its level (R77, R78, R82). -/
theorem levelClause_l2_page (hps : fieldPs c e = true) : levelClause c .l2 e = none ↔
    c.cap.sllps2M = true ∧ e.extractLsb' 12 9 = 0 ∧ snpTmLarge c e = false := by
  simp only [levelClause, hps, if_true, clause_ite_eq_none_iff, Bool.not_eq_false', bne_eq_false_iff_eq, and_true]

/-- A SL-PTE breaks no clause of its level (R80, R81). -/
theorem levelClause_l1_eq_none_iff : levelClause c .l1 e = none ↔
    (c.ecap.sc || !fieldSnp c e) = true ∧ (c.ecap.dt || !fieldTm c e) = true := by
  simp only [levelClause, clause_ite_eq_none_iff, and_true, Bool.and_eq_false_iff, Bool.or_eq_true, Bool.not_eq_false',
    Bool.not_eq_true']

theorem largeLeafSnpTmWf_iff : largeLeafSnpTmWf c (fieldSnp c e) (fieldTm c e) = true ↔ snpTmLarge c e = false := by
  rw [largeLeafSnpTmWf, Bool.not_eq_true', snpTmLarge]

/-! ### The decoder, case by case (R85) -/

theorem decodeEntry_of_notPresent (h : (fieldR c e || fieldW c e) = false) :
    decodeEntry c L e = .ok (.slEntryNotPresent e) := by
  rw [decodeEntry, ← Bool.not_or, h]; rfl

theorem decodeEntry_of_usable (hrw : (fieldR c e || fieldW c e) = true) (h : rsvdClause c L e = none) :
    decodeEntry c L e = .ok (usableEntry c L e) := by
  rw [decodeEntry, ← Bool.not_or, hrw, h]; rfl

/-- The decoder gives the row of an entry that is not present, or the row of a usable one. -/
theorem decodeEntry_eq_ok {i : Instr} (h : decodeEntry c L e = .ok i) :
    ((fieldR c e || fieldW c e) = false ∧ i = .slEntryNotPresent e) ∨
      ((fieldR c e || fieldW c e) = true ∧ rsvdClause c L e = none ∧ i = usableEntry c L e) := by
  cases hrw : fieldR c e || fieldW c e with
  | false =>
    rw [decodeEntry_of_notPresent hrw] at h
    cases h
    exact .inl ⟨rfl, rfl⟩
  | true =>
    rw [decodeEntry, ← Bool.not_or, hrw] at h
    cases hc : rsvdClause c L e with
    | some cl => rw [hc] at h; cases h
    | none => rw [hc] at h; cases h; exact .inr ⟨rfl, rfl, rfl⟩

/-! ### The row of a usable word (R60, R104 to R107) -/

theorem usableEntry_l3_table (hps : fieldPs c e = false) : usableEntry c .l3 e =
    .slPdpeTable (fieldR c e) (fieldW c e) (fieldAddr e) (ignoredUpper c.pos e) := by
  rw [usableEntry, hps]; rfl

theorem usableEntry_l3_page (hps : fieldPs c e = true) : usableEntry c .l3 e =
    .slPdpePage1g (fieldR c e) (fieldW c e) (fieldSnp c e) (fieldTm c e) (fieldPage1G e) (ignoredUpper c.pos e) := by
  rw [usableEntry, hps]; rfl

theorem usableEntry_l2_table (hps : fieldPs c e = false) : usableEntry c .l2 e =
    .slPdeTable (fieldR c e) (fieldW c e) (fieldAddr e) (ignoredUpper c.pos e) := by
  rw [usableEntry, hps]; rfl

theorem usableEntry_l2_page (hps : fieldPs c e = true) : usableEntry c .l2 e =
    .slPdePage2m (fieldR c e) (fieldW c e) (fieldSnp c e) (fieldTm c e) (fieldPage2M e) (ignoredUpper c.pos e) := by
  rw [usableEntry, hps]; rfl

theorem usableEntry_levels : L ∈ (usableEntry c L e).levels := by
  cases L with
  | l4 | l1 => simp [usableEntry, Instr.levels]
  | l3 =>
    cases hps : fieldPs c e with
    | false => simp [usableEntry_l3_table hps, Instr.levels]
    | true => simp [usableEntry_l3_page hps, Instr.levels]
  | l2 =>
    cases hps : fieldPs c e with
    | false => simp [usableEntry_l2_table hps, Instr.levels]
    | true => simp [usableEntry_l2_page hps, Instr.levels]

/-- The row of a usable word encodes to it: the fields that the row leaves out are clear. -/
theorem encodeEntry_usableEntry (hp : PosApart c.pos) (h : rsvdClause c L e = none) :
    encodeEntry c (usableEntry c L e) = some e := by
  obtain ⟨-, hl⟩ := rsvdClause_eq_none_iff.mp h
  have hup := assemble_fields_upper hp e
  have htable (hps : fieldPs c e = false) (hs : snpOrTm c e = false) :
      assemble c.pos (fieldR c e) (fieldW c e) false false false (fieldAddr e) (ignoredUpper c.pos e) = e := by
    obtain ⟨hsnp, htm⟩ := snpOrTm_eq_false_iff.mp hs
    rwa [hps, hsnp, htm] at hup
  cases L with
  | l4 =>
    obtain ⟨hps, hs⟩ := levelClause_l4_eq_none_iff.mp hl
    exact congrArg some (htable hps hs)
  | l3 =>
    cases hps : fieldPs c e with
    | false =>
      rw [usableEntry_l3_table hps]
      exact congrArg some (htable hps ((levelClause_l3_table hps).mp hl))
    | true =>
      obtain ⟨-, hlow, -⟩ := (levelClause_l3_page hps).mp hl
      rw [hps, fieldAddr_eq_page1G, hlow] at hup
      rw [usableEntry_l3_page hps]
      exact congrArg some hup
  | l2 =>
    cases hps : fieldPs c e with
    | false =>
      rw [usableEntry_l2_table hps]
      exact congrArg some (htable hps ((levelClause_l2_table hps).mp hl))
    | true =>
      obtain ⟨-, hlow, -⟩ := (levelClause_l2_page hps).mp hl
      rw [hps, fieldAddr_eq_page2M, hlow] at hup
      rw [usableEntry_l2_page hps]
      exact congrArg some hup
  | l1 => exact congrArg some (assemble_fields_pte hp e)

/-- The row of a usable word is well formed (R72 to R82). -/
theorem usableEntry_wf (hc : c.wf = true) (hrw : (fieldR c e || fieldW c e) = true) (h : rsvdClause c L e = none) :
    (usableEntry c L e).wf c = true := by
  obtain ⟨ha, hl⟩ := rsvdClause_eq_none_iff.mp h
  have haddr : frameBelowHaw c (fieldAddr e) = true := (addrAboveHaw_iff c e (haw_of_wf hc)).mp ha
  have hign : ignoredBitsOnly c.pos (ignoredUpper c.pos e) = true :=
    (ignoredBitsOnly_iff _ _).mpr fun i hn => ignoredUpper_clear c.pos e i (.inl hn)
  have hignps : (ignoredUpper c.pos e).getLsbD c.pos.ps = false := ignoredUpper_clear c.pos e _ (.inr rfl)
  have htable : tableWf c (fieldR c e) (fieldW c e) (fieldAddr e) (ignoredUpper c.pos e) = true := by
    simp only [tableWf, hrw, haddr, hign, hignps, Bool.and_true, Bool.not_false]
  cases L with
  | l4 => exact htable
  | l3 =>
    cases hps : fieldPs c e with
    | false =>
      rw [usableEntry_l3_table hps]
      exact htable
    | true =>
      obtain ⟨hsup, hlow, hst⟩ := (levelClause_l3_page hps).mp hl
      rw [fieldAddr_eq_page1G, hlow] at haddr
      rw [usableEntry_l3_page hps, Instr.wf, hrw, hsup, hign, hignps, haddr, largeLeafSnpTmWf_iff.mpr hst]
      rfl
  | l2 =>
    cases hps : fieldPs c e with
    | false =>
      rw [usableEntry_l2_table hps]
      exact htable
    | true =>
      obtain ⟨hsup, hlow, hst⟩ := (levelClause_l2_page hps).mp hl
      rw [fieldAddr_eq_page2M, hlow] at haddr
      rw [usableEntry_l2_page hps, Instr.wf, hrw, hsup, hign, hignps, haddr, largeLeafSnpTmWf_iff.mpr hst]
      rfl
  | l1 =>
    obtain ⟨hsc, hdt⟩ := levelClause_l1_eq_none_iff.mp hl
    have hpte : ignoredBitsOnly c.pos (ignoredPte c.pos e) = true :=
      (ignoredBitsOnly_iff _ _).mpr (ignoredPte_clear c.pos e)
    simp only [usableEntry, Instr.wf, hrw, haddr, hsc, hdt, hpte, Bool.and_true]

end

/-! ### Words of well-formed rows (R72 to R82) -/

/-- The fields and the ignored bits of a word above level 1 (R61, R83). -/
structure UpperFields (c : Config) (e : Word64) (r w ps snp tm : Bool) (addr : Frame) (ign : Word64) : Prop
    extends NamedFields c e r w snp tm addr where
  ps : fieldPs c e = ps
  ignored : ignoredUpper c.pos e = ign

section
variable {c : Config} {r w ps snp tm : Bool} {addr : Frame} {ign : Word64}

theorem assemble_upperFields (hp : PosApart c.pos) (hi : ignoredBitsOnly c.pos ign = true)
    (hps : ign.getLsbD c.pos.ps = false) :
    UpperFields c (assemble c.pos r w ps snp tm addr ign) r w ps snp tm addr ign where
  toNamedFields := assemble_namedFields hp ((ignoredBitsOnly_iff _ _).mp hi)
  ps := by rw [assemble_ps hp, hps, Bool.false_or]
  ignored := ignoredUpper_assemble ((ignoredBitsOnly_iff _ _).mp hi) hps

variable {L : Level} {e : Word64}

/-- A word assembled from well-formed operands that breaks no clause of its level decodes as a usable one. -/
theorem decodeEntry_of_namedFields (hc : c.wf = true) (hf : NamedFields c e r w snp tm addr) (hrw : (r || w) = true)
    (haddr : frameBelowHaw c addr = true) (hl : levelClause c L e = none) :
    decodeEntry c L e = .ok (usableEntry c L e) := by
  refine decodeEntry_of_usable (by rw [hf.r, hf.w, hrw]) (rsvdClause_eq_none_iff.mpr ⟨?_, hl⟩)
  rw [addrAboveHaw_iff c e (haw_of_wf hc), hf.addr, haddr]

/-- The word of a well-formed non-leaf row decodes, at the levels of such rows, as a usable one with its operands. -/
theorem decodeEntry_assemble_table (hc : c.wf = true) (h : tableWf c r w addr ign = true) (hL : L ≠ .l1)
    (he : e = assemble c.pos r w false false false addr ign) :
    decodeEntry c L e = .ok (usableEntry c L e) ∧ UpperFields c e r w false false false addr ign := by
  simp only [tableWf, Bool.and_eq_true, Bool.not_eq_true'] at h
  obtain ⟨⟨⟨hrw, haddr⟩, hi⟩, hps⟩ := h
  have hu : UpperFields c e r w false false false addr ign := he ▸ assemble_upperFields (posApart_of_wf hc) hi hps
  have hs : snpOrTm c e = false := snpOrTm_eq_false_iff.mpr ⟨hu.snp, hu.tm⟩
  refine ⟨decodeEntry_of_namedFields hc hu.toNamedFields hrw haddr ?_, hu⟩
  cases L with
  | l4 => exact levelClause_l4_eq_none_iff.mpr ⟨hu.ps, hs⟩
  | l3 => exact (levelClause_l3_table hu.ps).mpr hs
  | l2 => exact (levelClause_l2_table hu.ps).mpr hs
  | l1 => exact absurd rfl hL

end

/-- The two parts of a word side by side are determined by the word. -/
theorem append_inj {n k : Nat} {x x' : BitVec n} {y y' : BitVec k} (h : x ++ y = x' ++ y') : x = x' ∧ y = y' := by
  have hhi := congrArg (BitVec.extractLsb' k n) h
  have hlo := congrArg (BitVec.extractLsb' 0 k) h
  rw [BitVec.extractLsb'_append_eq_left, BitVec.extractLsb'_append_eq_left] at hhi
  rw [BitVec.extractLsb'_append_eq_right, BitVec.extractLsb'_append_eq_right] at hlo
  exact ⟨hhi, hlo⟩

/-! ### `Classify` and the decoder (R72, R85) -/

/-- What the row of an entry is used for (R85); a request is no entry. -/
def rowClass : Instr → Option EntryClass
  | .read .. => none
  | .write .. => none
  | .atomic .. => none
  | .slEntryNotPresent _ => some .notPresent
  | .slPml4e .. => some .table
  | .slPdpeTable .. => some .table
  | .slPdeTable .. => some .table
  | .slPdpePage1g .. => some .leaf1G
  | .slPdePage2m .. => some .leaf2M
  | .slPte .. => some .leaf4K

theorem rowClass_ne_reserved (i : Instr) : rowClass i ≠ some .reserved := by
  cases i <;> simp [rowClass]

theorem rowClass_eq_table_iff (i : Instr) : rowClass i = some .table ↔
    ∃ r w addr ign, i = .slPml4e r w addr ign ∨ i = .slPdpeTable r w addr ign ∨ i = .slPdeTable r w addr ign := by
  cases i <;> simp [rowClass]

/-- The class of the leaves of a page size (R68 to R70, R85). -/
def leafClass : PageSize → EntryClass
  | .size4K => .leaf4K
  | .size2M => .leaf2M
  | .size1G => .leaf1G

/-- The leaf rows make leaves of the page size of their class. -/
theorem rowClass_eq_leafClass_iff (ia : Word64) (size : PageSize) (i : Instr) :
    rowClass i = some (leafClass size) ↔ ∃ f, leafForm ia i = some f ∧ f.leaf.size = size := by
  cases i <;> cases size <;> simp [rowClass, leafClass, leafForm]

section
variable {c : Config} {L : Level} {e : Word64}

theorem classify_eq_notPresent_iff : classify c L e = .notPresent ↔ (fieldR c e || fieldW c e) = false := by
  rw [classify.eq_def, ← Bool.not_or]
  cases fieldR c e || fieldW c e with
  | false => simp
  | true =>
    cases rsvdSet c L e with
    | true => simp
    | false => cases L <;> cases fieldPs c e <;> simp

theorem classify_eq_reserved_iff :
    classify c L e = .reserved ↔ (fieldR c e || fieldW c e) = true ∧ rsvdClause c L e ≠ none := by
  rw [classify.eq_def, ← Bool.not_or, rsvdSet, ← Option.isSome_iff_ne_none]
  cases fieldR c e || fieldW c e with
  | false => simp
  | true =>
    cases (rsvdClause c L e).isSome with
    | true => simp
    | false => cases L <;> cases fieldPs c e <;> simp

theorem rowClass_usableEntry (hrw : (fieldR c e || fieldW c e) = true) (h : rsvdClause c L e = none) :
    rowClass (usableEntry c L e) = some (classify c L e) := by
  rw [classify.eq_def, ← Bool.not_or, hrw, rsvdSet, h, usableEntry.eq_def]
  cases L with
  | l4 | l1 => rfl
  | l3 | l2 => cases fieldPs c e <;> rfl

/-- The decoder's row is used for what `Classify` says. -/
theorem rowClass_of_decodeEntry {i : Instr} (h : decodeEntry c L e = .ok i) : rowClass i = some (classify c L e) := by
  obtain ⟨hrw, rfl⟩ | ⟨hrw, hr, rfl⟩ := decodeEntry_eq_ok h
  · rw [classify_eq_notPresent_iff.mpr hrw]; rfl
  · exact rowClass_usableEntry hrw hr

/-- The decoder rejects exactly the reserved entries. -/
theorem classify_eq_reserved_iff_rejected : classify c L e = .reserved ↔ ∃ r, decodeEntry c L e = .error r := by
  refine ⟨fun h => ?_, fun ⟨r, hr⟩ => classify_of_reject c L e r hr⟩
  cases hd : decodeEntry c L e with
  | error r => exact ⟨r, rfl⟩
  | ok i => exact absurd (h ▸ rowClass_of_decodeEntry hd) (rowClass_ne_reserved i)

/-- Every other class is the class of the row that the decoder gives. -/
theorem classify_eq_iff_decoded {k : EntryClass} (hk : k ≠ .reserved) :
    classify c L e = k ↔ ∃ i, decodeEntry c L e = .ok i ∧ rowClass i = some k := by
  constructor
  · intro h
    cases hd : decodeEntry c L e with
    | error r => exact absurd (h.symm.trans (classify_of_reject c L e r hd)) hk
    | ok i => exact ⟨i, rfl, h ▸ rowClass_of_decodeEntry hd⟩
  · rintro ⟨i, hd, hi⟩
    exact Option.some.inj ((rowClass_of_decodeEntry hd).symm.trans hi)

end

/-! ### The clauses bit by bit (R73 to R82) -/

/-- A field is not zero exactly when one of its bits is 1. -/
theorem extract_ne_zero_iff (e : Word64) (s n : Nat) :
    e.extractLsb' s n ≠ 0 ↔ ∃ i, s ≤ i ∧ i < s + n ∧ e.getLsbD i = true := by
  rw [ne_eq, extract_zero_iff]
  simp only [not_forall, Bool.not_eq_false, exists_prop]

/-- Bits 51:HAW (R73). -/
theorem addrAboveHaw_eq_true_iff (c : Config) (e : Word64) :
    addrAboveHaw c e = true ↔ ∃ i, c.haw ≤ i ∧ i ≤ 51 ∧ e.getLsbD i = true := by
  rw [addrAboveHaw, bne_iff_ne, extract_ne_zero_iff]
  refine exists_congr fun i => and_congr_right fun h => and_congr_left fun _ => ?_
  omega

/-! ### Bits that no clause names (R83) -/

/-- Words that agree on the named bits have the same named fields. -/
theorem namedFields_of_agree {c : Config} {e e' : Word64} (h : ∀ i, NamedBit c.pos i → e.getLsbD i = e'.getLsbD i) :
    NamedFields c e (fieldR c e') (fieldW c e') (fieldSnp c e') (fieldTm c e') (fieldAddr e') where
  r := h _ (namedBit_r c.pos)
  w := h _ (namedBit_w c.pos)
  snp := h _ (namedBit_snp c.pos)
  tm := h _ (namedBit_tm c.pos)
  addr := by
    apply BitVec.eq_of_getLsbD_eq
    intro i hi
    rw [fieldAddr, fieldAddr, extract_get, extract_get, h (12 + i) (.inl (by omega))]

section
variable {c : Config} {L : Level} {e e' : Word64}

theorem addrAboveHaw_congr (hc : c.wf = true) (h : fieldAddr e = fieldAddr e') :
    addrAboveHaw c e = addrAboveHaw c e' := by
  rw [← Bool.not_inj_iff, Bool.eq_iff_iff, Bool.not_eq_true', Bool.not_eq_true', addrAboveHaw_iff c e (haw_of_wf hc),
    addrAboveHaw_iff c e' (haw_of_wf hc), h]

/-- ADDR holds the page bits of large leaves and the bits below them. -/
theorem page_congr (h : fieldAddr e = fieldAddr e') :
    (fieldPage1G e = fieldPage1G e' ∧ e.extractLsb' 12 18 = e'.extractLsb' 12 18) ∧
      (fieldPage2M e = fieldPage2M e' ∧ e.extractLsb' 12 9 = e'.extractLsb' 12 9) :=
  ⟨append_inj (by rw [← fieldAddr_eq_page1G, ← fieldAddr_eq_page1G, h]),
    append_inj (by rw [← fieldAddr_eq_page2M, ← fieldAddr_eq_page2M, h])⟩

variable (hf : NamedFields c e (fieldR c e') (fieldW c e') (fieldSnp c e') (fieldTm c e') (fieldAddr e'))
  (hps : L ≠ .l1 → fieldPs c e = fieldPs c e')
include hf hps

theorem rsvdClause_congr (hc : c.wf = true) : rsvdClause c L e = rsvdClause c L e' := by
  obtain ⟨⟨-, hlow18⟩, -, hlow9⟩ := page_congr hf.addr
  have hs : snpOrTm c e = snpOrTm c e' := by rw [snpOrTm, hf.snp, hf.tm, snpOrTm]
  have hst : snpTmLarge c e = snpTmLarge c e' := by rw [snpTmLarge, hf.snp, hf.tm, snpTmLarge]
  rw [rsvdClause, rsvdClause, addrAboveHaw_congr hc hf.addr, levelClause.eq_def, levelClause.eq_def c L e']
  cases L with
  | l4 => rw [hps (by decide), hs]
  | l3 => rw [hps (by decide), hlow18, hst, hs]
  | l2 => rw [hps (by decide), hlow9, hst, hs]
  | l1 => rw [hf.snp, hf.tm]

theorem classify_congr (hc : c.wf = true) : classify c L e = classify c L e' := by
  rw [classify.eq_def, classify.eq_def, rsvdSet, rsvdSet, rsvdClause_congr hf hps hc, hf.r, hf.w]
  cases L with
  | l4 | l1 => rfl
  | l3 | l2 => rw [hps (by decide)]

/-- The meanings of entries do not read the ignored bits. -/
theorem exec_usableEntry_congr (s : State) : exec (usableEntry c L e) s = exec (usableEntry c L e') s := by
  obtain ⟨⟨hpage1G, -⟩, hpage2M, -⟩ := page_congr hf.addr
  cases L with
  | l4 => simp only [usableEntry, exec, execSlPml4e, hf.r, hf.w, hf.addr]
  | l3 =>
    cases h : fieldPs c e' with
    | false =>
      rw [usableEntry_l3_table ((hps (by decide)).trans h), usableEntry_l3_table h, hf.r, hf.w, hf.addr]
      rfl
    | true =>
      rw [usableEntry_l3_page ((hps (by decide)).trans h), usableEntry_l3_page h, hf.r, hf.w, hf.snp, hf.tm, hpage1G]
      rfl
  | l2 =>
    cases h : fieldPs c e' with
    | false =>
      rw [usableEntry_l2_table ((hps (by decide)).trans h), usableEntry_l2_table h, hf.r, hf.w, hf.addr]
      rfl
    | true =>
      rw [usableEntry_l2_page ((hps (by decide)).trans h), usableEntry_l2_page h, hf.r, hf.w, hf.snp, hf.tm, hpage2M]
      rfl
  | l1 => simp only [usableEntry, exec, execSlPte, hf.r, hf.w, hf.snp, hf.tm, hf.addr]

end

/-! ### Entries out of place (R60) -/

/-- Where no walk stands at a level of an entry, the entry has no meaning. -/
theorem onEntry_refused {levels : List Level} {s : State} (f : Walk → Ctx → State)
    (h : ∀ ws ctx, s.walks[s.cur]? = some ws → ws.phase = .walk ctx → ws.level ∉ levels) :
    onEntry levels s f = .refused .entryOutOfPlace := by
  unfold onEntry
  split
  · next ws ctx hcur =>
    obtain ⟨hk, hp⟩ := currentWalk_some s ws ctx hcur
    exact if_neg (h ws ctx hk hp)
  · rfl

/-- Every entry row acts on the current walk at the levels of the row. -/
theorem exec_entry_eq_onEntry {i : Instr} (h : i.isEntry = true) (s : State) :
    ∃ f, exec i s = onEntry i.levels s f := by
  cases i with
  | read | write | atomic => cases h
  | slEntryNotPresent | slPml4e | slPdpeTable | slPdpePage1g | slPdeTable | slPdePage2m | slPte => exact ⟨_, rfl⟩

/-! ### The assembly of addresses (R63, R68 to R70) -/

/-- An address made of at most 52 bits has zeros above them. -/
theorem setWidth_above_52 {n : Nat} (x : BitVec n) (h : n ≤ 52) : (x.setWidth 64).extractLsb' 52 12 = 0 := by
  rw [extract_zero_iff]
  intro i hi _
  rw [BitVec.getLsbD_setWidth, BitVec.getLsbD_of_ge x i (by omega), Bool.and_false]

/-- The nine bits of the input address that select an entry, as a number (R63). -/
theorem entryIndex_toNat (ia : Word64) (L : Level) : (entryIndex ia L).toNat = ia.toNat / 2 ^ indexLow L % 512 := by
  rw [entryIndex, BitVec.extractLsb'_toNat, Nat.shiftRight_eq_div_pow]

/-- An entry address as a number: the table's frame, the index, three zeros (R63). -/
theorem entryAddr_toNat (base ia : Word64) (L : Level) :
    (entryAddr base ia L).toNat = base.toNat / 4096 % 2 ^ 40 * 4096 + 8 * (entryIndex ia L).toNat := by
  have hbase : (base.extractLsb' 12 40).toNat = base.toNat / 4096 % 2 ^ 40 := by
    rw [BitVec.extractLsb'_toNat, Nat.shiftRight_eq_div_pow]
  have hidx := (entryIndex ia L).isLt
  rw [entryAddr, BitVec.toNat_setWidth, BitVec.toNat_append, BitVec.toNat_append, hbase,
    ← Nat.shiftLeft_add_eq_or_of_lt hidx, ← Nat.shiftLeft_add_eq_or_of_lt (by decide), Nat.shiftLeft_eq,
    Nat.shiftLeft_eq]
  simp only [BitVec.ofNat_eq_ofNat, BitVec.toNat_ofNat]
  omega

/-- The parts of a final address: the offset of the input address, the page, and zeros above (R68 to R70). -/
theorem finalAddr_parts {n k : Nat} (page : BitVec n) (ia : Word64) (h : n + k = 52) :
    ((page ++ ia.extractLsb' 0 k).setWidth 64).extractLsb' 0 k = ia.extractLsb' 0 k ∧
      ((page ++ ia.extractLsb' 0 k).setWidth 64).extractLsb' k n = page ∧
      ((page ++ ia.extractLsb' 0 k).setWidth 64).extractLsb' 52 12 = 0 := by
  refine ⟨?_, ?_, setWidth_above_52 _ h.le⟩
  · rw [BitVec.extractLsb'_setWidth_of_le (by omega), BitVec.extractLsb'_append_eq_right]
  · rw [BitVec.extractLsb'_setWidth_of_le (by omega), BitVec.extractLsb'_append_eq_left]

/-! ### A translated address stays in its page (R41, R68 to R70, R101) -/

/-- An entry that is usable has no bit of 51:HAW set (R73). -/
theorem below_haw_of_classify {c : Config} {L : Level} {e : Word64} {k : EntryClass} (h : classify c L e = k)
    (hn : k ≠ .notPresent) (hr : k ≠ .reserved) {i : Nat} (h1 : c.haw ≤ i) (h2 : i ≤ 51) : e.getLsbD i = false := by
  rw [← h, ne_eq, classify_eq_notPresent_iff, Bool.not_eq_false] at hn
  have hnone : rsvdClause c L e = none := by
    by_contra hne
    exact hr (h.symm.trans (classify_eq_reserved_iff.mpr ⟨hn, hne⟩))
  obtain ⟨ha, -⟩ := rsvdClause_eq_none_iff.mp hnone
  by_contra hb
  have habove := (addrAboveHaw_eq_true_iff c e).mpr ⟨i, h1, h2, Bool.eq_true_of_not_eq_false hb⟩
  exact absurd (ha.symm.trans habove) (by decide)

/-- A final address is below 2^HAW where its page has no bit set from HAW up and its offset lies below HAW. -/
theorem finalAddr_lt_haw {n k haw : Nat} (e ia : Word64) (hk : k ≤ haw)
    (h : ∀ i, haw ≤ i → i < k + n → e.getLsbD i = false) :
    ((e.extractLsb' k n ++ ia.extractLsb' 0 k).setWidth 64).toNat < 2 ^ haw := by
  apply Nat.lt_pow_two_of_testBit
  intro i hi
  change BitVec.getLsbD _ i = false
  rw [BitVec.getLsbD_setWidth, append_get, if_neg (by omega), extract_get, Nat.add_sub_cancel' (by omega)]
  by_cases hn : i < k + n
  · rw [h i hi hn, Bool.and_false, Bool.and_false]
  · rw [decide_eq_false (by omega : ¬i - k < n), Bool.false_and, Bool.and_false]

/-- A final address keeps the offset of the input address in the page, and is below 2^52 and, where the page is no
larger than 2^HAW, below 2^HAW (R41, R68 to R70, R101; log 27). -/
def InItsPage (c : Config) (ia pa : Word64) (size : PageSize) : Prop :=
  pa.toNat % 2 ^ pageBits size = ia.toNat % 2 ^ pageBits size ∧ pa.toNat < 2 ^ 52 ∧
    (pageBits size ≤ c.haw → pa.toNat < 2 ^ c.haw)

/-- The final address that a usable entry makes of an input address is in its page. -/
theorem inItsPage_of_classify {c : Config} {L : Level} {e : Word64} {k : EntryClass} (h : classify c L e = k)
    (hn : k ≠ .notPresent) (hr : k ≠ .reserved) (ia : Word64) (size : PageSize) {n : Nat}
    (hsize : n + pageBits size = 52) :
    InItsPage c ia ((e.extractLsb' (pageBits size) n ++ ia.extractLsb' 0 (pageBits size)).setWidth 64) size := by
  refine ⟨?_, page_offset_lt _ ia hsize, fun hk => finalAddr_lt_haw e ia hk fun i h1 h2 =>
    below_haw_of_classify h hn hr h1 (by omega)⟩
  rw [page_offset_toNat _ ia (by omega), Nat.mul_add_mod_self_right, Nat.mod_mod]

/-- A walk state whose final address, if it is translated, is in its page. -/
def Walk.TranslatedInPage (c : Config) (ws : Walk) : Prop :=
  ∀ pa size snooped mt tm, ws.phase = .done (.translated pa size snooped mt tm) → InItsPage c ws.req.ia pa size

theorem translatedInPage_of_unfinished (c : Config) {ws : Walk} (h : ws.unfinished = true) : ws.TranslatedInPage c := by
  intro pa size snooped mt tm hp
  simp [Walk.unfinished, hp] at h

/-- A translation at a walk's end has the address and the page size of the leaf that ended it (R98). -/
theorem endOutcome_translated_leaf {ws : Walk} {ctx : Ctx} {e : LoopEnd} {s : State} {pa : Word64} {size : PageSize}
    {snooped tm : Bool} {mt : MemType} (h : endOutcome ws ctx e s = .translated pa size snooped mt tm) :
    ∃ l, e = .leaf l ∧ l.pa = pa ∧ l.size = size := by
  unfold endOutcome at h
  split at h
  case h_1 l _ => cases h; exact ⟨l, rfl, rfl, rfl⟩
  all_goals cases h

theorem endWalk_translatedInPage (k : Nat) (ws : Walk) (ctx : Ctx) (e : LoopEnd) (c : Config) (s : State)
    (hl : ∀ l, e = .leaf l → InItsPage c ws.req.ia l.pa l.size) :
    ∃ ws', Advances k ws' s (endWalk k ws ctx e s) ∧ ws'.TranslatedInPage c := by
  refine ⟨_, endWalk_advances k ws ctx e s, fun pa size snooped mt tm hp => ?_⟩
  obtain ⟨l, rfl, rfl, rfl⟩ := endOutcome_translated_leaf (Phase.done.inj hp)
  exact hl l rfl

theorem endWalk_unusable_translatedInPage (k : Nat) (ws : Walk) (ctx : Ctx) (cause : Cause) (c : Config) (s : State) :
    ∃ ws', Advances k ws' s (endWalk k ws ctx (.unusable cause) s) ∧ ws'.TranslatedInPage c :=
  endWalk_translatedInPage k ws ctx _ c s fun _ h => by cases h

theorem endWalk_leaf_translatedInPage (k : Nat) (ws : Walk) (ctx : Ctx) (l : Leaf) (c : Config) (s : State)
    (hl : InItsPage c ws.req.ia l.pa l.size) :
    ∃ ws', Advances k ws' s (endWalk k ws ctx (.leaf l) s) ∧ ws'.TranslatedInPage c :=
  endWalk_translatedInPage k ws ctx _ c s fun _ h => by cases h; exact hl

/-- Only a leaf entry makes a translation, and its page is its own (R85, R96, R98). -/
theorem entryEffect_translatedInPage (k : Nat) (ws : Walk) (ctx : Ctx) (c : Config) (s : State) (r : Option Word64)
    (hu : ws.unfinished = true) :
    ∃ ws', Advances k ws' s (entryEffect k ws ctx c s r) ∧ ws'.TranslatedInPage c := by
  cases r with
  | none => exact endWalk_unusable_translatedInPage k ws ctx .slAccessError c s
  | some e =>
    simp only [entryEffect]
    cases hc : classify c ws.level e with
    | notPresent => exact endWalk_unusable_translatedInPage k ws ctx .slNotPresent c s
    | reserved => exact endWalk_unusable_translatedInPage k ws ctx .slReserved c s
    | table => exact ⟨_, setWalk_advances k _ s hu, translatedInPage_of_unfinished c hu⟩
    | leaf4K =>
      exact endWalk_leaf_translatedInPage k _ ctx _ c s
        (inItsPage_of_classify hc (by decide) (by decide) ws.req.ia .size4K rfl)
    | leaf2M =>
      exact endWalk_leaf_translatedInPage k _ ctx _ c s
        (inItsPage_of_classify hc (by decide) (by decide) ws.req.ia .size2M rfl)
    | leaf1G =>
      exact endWalk_leaf_translatedInPage k _ ctx _ c s
        (inItsPage_of_classify hc (by decide) (by decide) ws.req.ia .size1G rfl)

/-- A step of the hardware translates a request to its page only: before the walk it translates none. -/
theorem hwStep_translatedInPage {k : Nat} {ws : Walk} {s t : State} (hk : s.walks[k]? = some ws)
    (hu : ws.unfinished = true) (h : hwStep runEntry k s = .next t) :
    ∃ ws', Advances k ws' s t ∧ ws'.TranslatedInPage s.cfg := by
  cases hp : ws.phase with
  | lookup =>
    rw [hwStep_lookup k ws s hk hp] at h
    cases h
    refine ⟨lookedUp ws s, lookupStep_advances k ws s, fun pa size snooped mt tm hdone => ?_⟩
    rw [lookedUp, lookupPhase] at hdone
    split at hdone <;> cases hdone
  | check ctx =>
    rw [hwStep_check k ws ctx s hk hp] at h
    obtain ⟨ws', hadv, -, hmoves⟩ := checkStep_moves ws.level h
    refine ⟨ws', hadv, fun pa size snooped mt tm hdone => ?_⟩
    cases hmoves with
    | tooWide _ _ hfault => cases hfault.symm.trans hdone
    | started => cases hdone
  | walk ctx =>
    rw [hwStep_walk k ws ctx s hk hp, walkStep_eq k ws ctx s hk hp] at h
    cases h
    obtain ⟨ws', hadv, hin⟩ := entryEffect_translatedInPage k (entryNoted s ws ctx) ctx s.cfg
      (readNoted k ws ctx (entryAddr ws.base ws.req.ia ws.level) s)
      (memRead64 s (entryAddr ws.base ws.req.ia ws.level)) hu
    exact ⟨ws', (readNoted_advances k ws ctx _ s hu).trans hu hadv, hin⟩
  | done o => simp [Walk.unfinished, hp] at hu

/-- Steps of the hardware keep what a request has been translated to in its page. -/
theorem hwSteps_translatedInPage {k n : Nat} {ws : Walk} {s t : State} (hk : s.walks[k]? = some ws)
    (hin : ws.TranslatedInPage s.cfg) (h : hwSteps runEntry k n s = .next t) :
    ∃ ws', t.walks[k]? = some ws' ∧ ws'.TranslatedInPage s.cfg := by
  induction n generalizing s ws with
  | zero => cases h; exact ⟨ws, hk, hin⟩
  | succ n ih =>
    obtain ⟨s₁, hs, hrest⟩ := hwSteps_succ_next h
    cases hu : ws.unfinished with
    | true =>
      obtain ⟨ws₁, hadv, hin₁⟩ := hwStep_translatedInPage hk hu hs
      have hcfg := hadv.frame.cfg
      exact hcfg ▸ ih (hadv.walk_at hk) (hcfg.symm ▸ hin₁) hrest
    | false =>
      obtain ⟨o, hp⟩ := phase_of_finished ws hu
      rw [hwStep_done k ws o s hk hp] at hs
      cases hs
      exact ih hk hin hrest

/-! ### The obligations of the family -/

/-- Settles O7: the word of a well-formed row has the row's fields, so it is usable and its row is that row. -/
theorem decodeOfEncodeIsIdentity : Obligations.DecodeOfEncodeIsIdentity := by
  unfold Obligations.DecodeOfEncodeIsIdentity
  intro c i L e hc hwf hL he
  have hp := posApart_of_wf hc
  cases i with
  | read | write | atomic => simp [Instr.levels] at hL
  | slEntryNotPresent rest =>
    cases he
    simp only [Instr.wf, Bool.and_eq_true, Bool.not_eq_true'] at hwf
    obtain ⟨hr, hw⟩ := hwf
    exact decodeEntry_of_notPresent (Bool.or_eq_false_iff.mpr ⟨hr, hw⟩)
  | slPml4e r w addr ign =>
    obtain rfl : L = .l4 := by simpa [Instr.levels] using hL
    obtain ⟨hd, hu⟩ := decodeEntry_assemble_table (L := .l4) hc hwf (by decide) (Option.some.inj he).symm
    rw [hd, usableEntry, hu.r, hu.w, hu.addr, hu.ignored]
  | slPdpeTable r w addr ign =>
    obtain rfl : L = .l3 := by simpa [Instr.levels] using hL
    obtain ⟨hd, hu⟩ := decodeEntry_assemble_table (L := .l3) hc hwf (by decide) (Option.some.inj he).symm
    rw [hd, usableEntry_l3_table hu.ps, hu.r, hu.w, hu.addr, hu.ignored]
  | slPdeTable r w addr ign =>
    obtain rfl : L = .l2 := by simpa [Instr.levels] using hL
    obtain ⟨hd, hu⟩ := decodeEntry_assemble_table (L := .l2) hc hwf (by decide) (Option.some.inj he).symm
    rw [hd, usableEntry_l2_table hu.ps, hu.r, hu.w, hu.addr, hu.ignored]
  | slPdpePage1g r w snp tm page ign =>
    obtain rfl : L = .l3 := by simpa [Instr.levels] using hL
    simp only [Instr.wf, Bool.and_eq_true, Bool.not_eq_true'] at hwf
    obtain ⟨⟨⟨⟨⟨hrw, hsup⟩, haddr⟩, hst⟩, hi⟩, hps⟩ := hwf
    have hu : UpperFields c e r w true snp tm (page ++ (0 : BitVec 18)) ign :=
      Option.some.inj he ▸ assemble_upperFields hp hi hps
    obtain ⟨hpage, hlow⟩ := append_inj ((fieldAddr_eq_page1G e).symm.trans hu.addr)
    rw [← hu.snp, ← hu.tm, largeLeafSnpTmWf_iff] at hst
    have hl : levelClause c .l3 e = none := (levelClause_l3_page hu.ps).mpr ⟨hsup, hlow, hst⟩
    rw [decodeEntry_of_namedFields hc hu.toNamedFields hrw haddr hl, usableEntry_l3_page hu.ps, hu.r, hu.w, hu.snp,
      hu.tm, hpage, hu.ignored]
  | slPdePage2m r w snp tm page ign =>
    obtain rfl : L = .l2 := by simpa [Instr.levels] using hL
    simp only [Instr.wf, Bool.and_eq_true, Bool.not_eq_true'] at hwf
    obtain ⟨⟨⟨⟨⟨hrw, hsup⟩, haddr⟩, hst⟩, hi⟩, hps⟩ := hwf
    have hu : UpperFields c e r w true snp tm (page ++ (0 : BitVec 9)) ign :=
      Option.some.inj he ▸ assemble_upperFields hp hi hps
    obtain ⟨hpage, hlow⟩ := append_inj ((fieldAddr_eq_page2M e).symm.trans hu.addr)
    rw [← hu.snp, ← hu.tm, largeLeafSnpTmWf_iff] at hst
    have hl : levelClause c .l2 e = none := (levelClause_l2_page hu.ps).mpr ⟨hsup, hlow, hst⟩
    rw [decodeEntry_of_namedFields hc hu.toNamedFields hrw haddr hl, usableEntry_l2_page hu.ps, hu.r, hu.w, hu.snp,
      hu.tm, hpage, hu.ignored]
  | slPte r w snp tm page ign =>
    obtain rfl : L = .l1 := by simpa [Instr.levels] using hL
    simp only [Instr.wf, Bool.and_eq_true] at hwf
    obtain ⟨⟨⟨⟨hrw, haddr⟩, hsc⟩, hdt⟩, hi⟩ := hwf
    rw [ignoredBitsOnly_iff] at hi
    have hf : NamedFields c e r w snp tm page := Option.some.inj he ▸ assemble_namedFields hp hi
    have hign : ignoredPte c.pos e = ign := Option.some.inj he ▸ ignoredPte_assemble hi
    have hl : levelClause c .l1 e = none := levelClause_l1_eq_none_iff.mpr ⟨by rw [hf.snp, hsc], by rw [hf.tm, hdt]⟩
    rw [decodeEntry_of_namedFields hc hf hrw haddr hl, usableEntry, hf.r, hf.w, hf.snp, hf.tm, hf.addr, hign]

/-- Settles O8: what the decoder gives is the row of a word that is not present, or of a usable one. -/
theorem encodeOfDecodeIsIdentity : Obligations.EncodeOfDecodeIsIdentity := by
  unfold Obligations.EncodeOfDecodeIsIdentity
  intro c i L e hc h
  obtain ⟨hrw, rfl⟩ | ⟨hrw, hr, rfl⟩ := decodeEntry_eq_ok h
  · obtain ⟨hr, hw⟩ := Bool.or_eq_false_iff.mp hrw
    refine ⟨rfl, ?_, by cases L <;> simp [Instr.levels]⟩
    simp only [Instr.wf, Bool.and_eq_true, Bool.not_eq_true']
    exact ⟨hr, hw⟩
  · exact ⟨encodeEntry_usableEntry (posApart_of_wf hc) hr, usableEntry_wf hc hrw hr, usableEntry_levels⟩

/-- Settles O9: each class but Reserved is the class of the decoder's row, and the rows of a class are listed. -/
theorem decoderFollowsClassify : Obligations.DecoderFollowsClassify := by
  unfold Obligations.DecoderFollowsClassify
  intro c L e ia
  have hleaf (size : PageSize) (hne : leafClass size ≠ .reserved) : classify c L e = leafClass size ↔
      ∃ i f, decodeEntry c L e = .ok i ∧ leafForm ia i = some f ∧ f.leaf.size = size := by
    simp only [classify_eq_iff_decoded hne, rowClass_eq_leafClass_iff ia, exists_and_left]
  refine ⟨classify_eq_notPresent_iff.trans Bool.or_eq_false_iff, ⟨fun h => ?_, fun h => ?_⟩,
    classify_eq_reserved_iff_rejected, ?_, hleaf .size1G (by decide), hleaf .size2M (by decide),
    hleaf .size4K (by decide)⟩
  · exact decodeEntry_of_notPresent (classify_eq_notPresent_iff.mp h)
  · exact (classify_eq_iff_decoded (by decide)).mpr ⟨_, h, rfl⟩
  · rw [classify_eq_iff_decoded (by decide)]
    simp only [rowClass_eq_table_iff]
    constructor
    · rintro ⟨i, hd, r, w, addr, ign, hi⟩
      exact ⟨r, w, addr, ign, by simpa [hd] using hi⟩
    · rintro ⟨r, w, addr, ign, h | h | h⟩
      · exact ⟨_, h, r, w, addr, ign, by simp⟩
      · exact ⟨_, h, r, w, addr, ign, by simp⟩
      · exact ⟨_, h, r, w, addr, ign, by simp⟩

/-- Settles O11: bits 51:HAW hold at every level, and the other clauses are those of the level, by its PS bit. -/
theorem reservedExactlyByTheClauses : Obligations.ReservedExactlyByTheClauses := by
  unfold Obligations.ReservedExactlyByTheClauses
  intro c L e
  rw [classify_eq_reserved_iff, Bool.or_eq_true, ne_eq, rsvdClause_eq_none_iff, not_and_or, Bool.not_eq_false,
    addrAboveHaw_eq_true_iff]
  refine and_congr_right fun _ => or_congr_right ?_
  have hlow18 : e.extractLsb' 12 18 ≠ 0 ↔ ∃ i, 12 ≤ i ∧ i ≤ 29 ∧ e.getLsbD i = true := by
    simp only [extract_ne_zero_iff, Nat.lt_succ_iff]
  have hlow9 : e.extractLsb' 12 9 ≠ 0 ↔ ∃ i, 12 ≤ i ∧ i ≤ 20 ∧ e.getLsbD i = true := by
    simp only [extract_ne_zero_iff, Nat.lt_succ_iff]
  rw [← hlow18, ← hlow9]
  cases L with
  | l4 => simp [levelClause_l4_eq_none_iff, snpOrTm, fieldPs, fieldSnp, fieldTm, not_and_or, -not_and]
  | l3 =>
    cases hps : e.getLsbD c.pos.ps with
    | false => simp [levelClause_l3_table hps, snpOrTm, fieldSnp, fieldTm, not_and_or, -not_and]
    | true => simp [levelClause_l3_page hps, snpTmLarge, fieldSnp, fieldTm, not_and_or, -not_and]
  | l2 =>
    cases hps : e.getLsbD c.pos.ps with
    | false => simp [levelClause_l2_table hps, snpOrTm, fieldSnp, fieldTm, not_and_or, -not_and]
    | true => simp [levelClause_l2_page hps, snpTmLarge, fieldSnp, fieldTm, not_and_or, -not_and]
  | l1 => simp [levelClause_l1_eq_none_iff, fieldSnp, fieldTm, not_and_or, -not_and]

/-- Settles O12: words that agree on the named bits have the same fields, and no meaning reads the ignored bits. -/
theorem unnamedBitsAreIgnored : Obligations.UnnamedBitsAreIgnored := by
  unfold Obligations.UnnamedBitsAreIgnored
  intro c L e e' hc h
  have hf := namedFields_of_agree (c := c) (e := e) (e' := e') fun i hi => h i (by omega)
  have hps : L ≠ .l1 → fieldPs c e = fieldPs c e' := fun hL => h _ (by simp [hL])
  refine ⟨classify_congr hf hps hc, fun i i' hd hd' s => ?_⟩
  obtain ⟨hrw, rfl⟩ | ⟨hrw, -, rfl⟩ := decodeEntry_eq_ok hd <;>
    obtain ⟨hrw', rfl⟩ | ⟨hrw', -, rfl⟩ := decodeEntry_eq_ok hd' <;> rw [hf.r, hf.w] at hrw
  · rfl
  · exact absurd (hrw.symm.trans hrw') (by decide)
  · exact absurd (hrw.symm.trans hrw') (by decide)
  · exact exec_usableEntry_congr hf hps s

/-- Settles O13: the parts of the address, and the address as a number. -/
theorem entryAddressAssembly : Obligations.EntryAddressAssembly := by
  unfold Obligations.EntryAddressAssembly
  intro base ia L
  refine ⟨?_, ?_, ?_, setWidth_above_52 _ le_rfl, fun halign hlt => ?_⟩
  · rw [entryAddr, BitVec.extractLsb'_setWidth_of_le (by decide), BitVec.extractLsb'_append_eq_right]
  · rw [entryAddr, BitVec.extractLsb'_setWidth_of_le (by decide), BitVec.extractLsb'_append_eq_of_le (by decide),
      BitVec.extractLsb'_append_eq_right]
    cases L <;> rfl
  · rw [entryAddr, BitVec.extractLsb'_setWidth_of_le (by decide), BitVec.extractLsb'_append_eq_of_le (by decide),
      BitVec.extractLsb'_append_eq_left]
  · rw [entryAddr_toNat, entryIndex_toNat]
    omega

/-- Settles O14: the parts of the three final addresses. -/
theorem finalAddressAssembly : Obligations.FinalAddressAssembly := by
  unfold Obligations.FinalAddressAssembly
  intro e ia
  exact ⟨finalAddr_parts (fieldPage1G e) ia rfl, finalAddr_parts (fieldPage2M e) ia rfl,
    finalAddr_parts (fieldAddr e) ia rfl⟩

/-- Settles O39: a request just issued is not translated, and every step of its processing keeps a translation in its
page. -/
theorem translationKeepsTheOffset : Obligations.TranslationKeepsTheOffset := by
  unfold Obligations.TranslationKeepsTheOffset
  intro s t q pa size snooped mt tm h ho
  rw [exec_instr] at h
  have hk : (issueRequest q s).walks[s.walks.length]? = some (Walk.start q) := by simp
  obtain ⟨ws, hadv, hreq⟩ := process_advances h
  obtain ⟨ws', hk', hin⟩ := hwSteps_translatedInPage hk (translatedInPage_of_unfinished _ rfl) h
  obtain rfl : ws = ws' := Option.some.inj ((hadv.walk_at hk).symm.trans hk')
  rw [State.hasOutcome, State.phaseAt, hk'] at ho
  exact hreq ▸ hin pa size snooped mt tm (Option.some.inj ho)

/-- Settles O6: each word is decoded by evaluation. -/
theorem wordsOfTheTableDecode : Obligations.WordsOfTheTableDecode := by
  unfold Obligations.WordsOfTheTableDecode
  decide

/-- Settles O28: an entry row acts on the current walk, and none stands at its levels. -/
theorem entryNeedsAWalkAtItsLevel : Obligations.EntryNeedsAWalkAtItsLevel := by
  unfold Obligations.EntryNeedsAWalkAtItsLevel
  intro s i hi h
  obtain ⟨f, hf⟩ := exec_entry_eq_onEntry hi s
  rw [hf, onEntry_refused f h]

end Sys2Proof.Machine
end

section
/-! PROOFS, family 40_walk.md. The adjusted width, the check of a request, what the table rows and the leaf rows do to the
walk that stands at their level, when the processing of a request answers, its verdict along the pseudocode of R99, and
the agenda's part in a step of the hardware; then the obligations of the family. -/

namespace Sys2Proof.Machine

/-! ### Phase Check (R92, R94, R95) -/

/-- The admitted widths are 39 and 48, where SAGAW has them (R92). -/
theorem agawAdmitted_iff (c : Config) (agaw : Nat) :
    agawAdmitted c agaw = true ↔ (agaw = 39 ∧ c.cap.sagaw39 = true) ∨ (agaw = 48 ∧ c.cap.sagaw48 = true) := by
  simp only [agawAdmitted, sagaw, Bool.and_eq_true, Bool.or_eq_true, beq_iff_eq, List.contains_iff_mem, List.mem_append]
  constructor
  · rintro ⟨rfl | rfl, h⟩
    · exact .inl ⟨rfl, by simpa using h⟩
    · exact .inr ⟨rfl, by simpa using h⟩
  · rintro (⟨rfl, h⟩ | ⟨rfl, h⟩)
    · exact ⟨.inl rfl, by simp [h]⟩
    · exact ⟨.inr rfl, by simp [h]⟩

/-- An admitted width of 48 starts the walk at level 4, the other one at level 3 (R91, R95). -/
theorem startLevel_of_admitted {c : Config} {agaw : Nat} (h : agawAdmitted c agaw = true) :
    startLevel agaw = if agaw = 48 then .l4 else .l3 := by
  obtain ⟨rfl, -⟩ | ⟨rfl, -⟩ := (agawAdmitted_iff c agaw).mp h <;> rfl

section
variable {k : Nat} {ws : Walk} {ctx : Ctx} {s : State}

/-- A width that is not admitted is refused (R92). -/
theorem checkStep_of_not_admitted (h : agawAdmitted s.cfg ctx.agaw = false) :
    checkStep k ws ctx s = .refused (.unsupportedAgaw ctx.agaw) := by
  rw [checkStep, h]; rfl

/-- Under walk_order an input address beyond the width takes its fault (R94, R144). -/
theorem checkStep_of_beyondWidth (h : agawAdmitted s.cfg ctx.agaw = true) (hf : s.cfg.faultChoice = .walkOrder)
    (hw : beyondWidth s.cfg ctx ws.req.ia = true) :
    checkStep k ws ctx s = .next (raiseFault k ws .addrBeyondWidth (.input ws.req.ia) s) := by
  rw [checkStep, h, if_pos (And.intro hf hw)]; rfl

/-- Any other input address of an admitted width starts the walk (R95, R149). -/
theorem checkStep_of_started (h : agawAdmitted s.cfg ctx.agaw = true)
    (hw : s.cfg.faultChoice = .anyApplicable ∨ beyondWidth s.cfg ctx ws.req.ia = false) :
    checkStep k ws ctx s = .next (setWalk k (startWalk ws ctx) s) := by
  have hstart : ¬(s.cfg.faultChoice = .walkOrder ∧ beyondWidth s.cfg ctx ws.req.ia = true) := by
    rintro ⟨hf, hb⟩
    simp [hf, hb] at hw
  rw [checkStep, h, if_neg hstart]; rfl

/-- With an admitted width the check answers (R92). -/
theorem checkStep_answers (h : agawAdmitted s.cfg ctx.agaw = true) : ∃ t, checkStep k ws ctx s = .next t := by
  simp only [checkStep, h]
  split
  · contradiction
  · split <;> exact ⟨_, rfl⟩

end

/-! ### The rows of entries on the walk at their level (R96, R103 to R107) -/

/-- A leaf row that is read at its level adds its rights and ends the walk with its leaf (R105 to R107). -/
theorem exec_leaf {s : State} {ws : Walk} {ctx : Ctx} {i : Instr} {f : LeafForm} (hcur : currentWalk s = some (ws, ctx))
    (hi : leafForm ws.req.ia i = some f) (hl : ws.level = f.level) :
    exec i s = .next (endWalk s.cur (accumulate ws f.r f.w) ctx (.leaf f.leaf) s) := by
  cases i with
  | slPdpePage1g | slPdePage2m | slPte =>
    cases hi
    exact onEntry_at _ s _ ws ctx hcur (List.mem_singleton.mpr hl)
  | read | write | atomic | slEntryNotPresent | slPml4e | slPdpeTable | slPdeTable => cases hi

theorem nextLevel_num {L : Level} (h : L ≠ .l1) : (nextLevel L).num + 1 = L.num := by
  cases L with
  | l1 => exact absurd rfl h
  | l2 | l3 | l4 => rfl

/-! ### The processing of a request answers, or is refused for its width (R92, R99, R103) -/

/-- The request is past `ContextLookup`, and its width, if it is still to be checked, is admitted. -/
def Walk.Cleared (c : Config) (ws : Walk) : Prop :=
  match ws.phase with
  | .lookup => False
  | .check ctx => agawAdmitted c ctx.agaw = true
  | .walk _ => True
  | .done _ => True

/-- A move of a request past `ContextLookup` leaves nothing to be checked. -/
theorem Moves.cleared {c : Config} {L : Level} {p : Phase} {ws : Walk} (h : Moves c L p ws) (hp : p ≠ .lookup) :
    ws.Cleared c := by
  cases h with
  | answered => exact absurd rfl hp
  | tooWide _ _ h => rw [Walk.Cleared, h]; trivial
  | started => trivial
  | descended ws₀ _ _ hp₀ => simp only [Walk.Cleared, hp₀]
  | ended _ _ _ h => rw [Walk.Cleared, h]; trivial

/-- A step of the hardware on a cleared request answers, and the request stays cleared. -/
theorem hwStep_cleared {k : Nat} {ws : Walk} {s : State} (hk : s.walks[k]? = some ws) (hc : ws.Cleared s.cfg) :
    ∃ t ws', hwStep runEntry k s = .next t ∧ t.walks[k]? = some ws' ∧ ws'.Cleared t.cfg := by
  have hstep : ∃ t, hwStep runEntry k s = .next t := by
    cases hp : ws.phase with
    | lookup => rw [Walk.Cleared, hp] at hc; exact hc.elim
    | check ctx =>
      rw [Walk.Cleared, hp] at hc
      rw [hwStep_check k ws ctx s hk hp]
      exact checkStep_answers hc
    | walk ctx => exact ⟨_, by rw [hwStep_walk k ws ctx s hk hp, walkStep_eq k ws ctx s hk hp]⟩
    | done o => exact ⟨s, hwStep_done k ws o s hk hp⟩
  obtain ⟨t, ht⟩ := hstep
  cases hu : ws.unfinished with
  | true =>
    obtain ⟨ws', hadv, -, hmoves⟩ := hwStep_moves hk hu ht
    refine ⟨t, ws', ht, hadv.walk_at hk, ?_⟩
    rw [hadv.frame.cfg]
    refine hmoves.cleared fun hp => ?_
    rw [Walk.Cleared, hp] at hc
    exact hc
  | false =>
    obtain ⟨o, hp⟩ := phase_of_finished ws hu
    rw [hwStep_done k ws o s hk hp] at ht
    cases ht
    exact ⟨s, ws, hwStep_done k ws o s hk hp, hk, hc⟩

theorem hwSteps_of_cleared {k n : Nat} {ws : Walk} {s : State} (hk : s.walks[k]? = some ws) (hc : ws.Cleared s.cfg) :
    ∃ t, hwSteps runEntry k n s = .next t := by
  induction n generalizing s ws with
  | zero => exact ⟨s, rfl⟩
  | succ n ih =>
    obtain ⟨s₁, ws₁, hs, hk₁, hc₁⟩ := hwStep_cleared hk hc
    rw [hwSteps_next _ _ _ _ _ hs]
    exact ih hk₁ hc₁

/-- Only the answer `Ok` is no fault (R24). -/
theorem eq_ok_of_lookupFault {answer : CtxOutcome} {ctx : Ctx} (h : lookupFault answer = .ok ctx) : answer = .ok ctx := by
  cases answer with
  | ok ctx' => cases h; rfl
  | rootAccessError | rootNotPresent | rootInvalid | rootReserved => cases h
  | ctxAccessError | ctxNotPresent | ctxInvalid | ctxBlocked | ctxReserved => cases h

/-- The processing of a request answers a next state, or `ContextLookup` has answered a width that is refused. -/
theorem process_answers_or_refuses (q : Request) (s : State) :
    (∃ t, process q s = .next t) ∨
      ∃ ctx, contextLookup s q = .ok ctx ∧ agawAdmitted s.cfg ctx.agaw = false ∧
        process q s = .refused (.unsupportedAgaw ctx.agaw) := by
  have hk : (issueRequest q s).walks[s.walks.length]? = some (Walk.start q) := by simp
  have hadv := lookupStep_advances s.walks.length (Walk.start q) (issueRequest q s)
  have hk₁ := hadv.walk_at hk
  have hcfg : (lookupStep s.walks.length (Walk.start q) (issueRequest q s)).cfg = s.cfg := hadv.frame.cfg
  have hphase : (lookedUp (Walk.start q) (issueRequest q s)).phase = lookupPhase (contextLookup s q) := rfl
  rw [process, hwSteps_next _ _ _ _ _ (hwStep_lookup _ _ _ hk rfl)]
  generalize lookupStep s.walks.length (Walk.start q) (issueRequest q s) = s₁ at hk₁ hcfg ⊢
  cases ha : lookupFault (contextLookup s q) with
  | error cause =>
    rw [lookupPhase_of_fault ha] at hphase
    exact .inl ⟨s₁, hwSteps_done _ _ _ _ s₁ hk₁ hphase⟩
  | ok ctx =>
    rw [lookupPhase, ha] at hphase
    cases hadm : agawAdmitted s.cfg ctx.agaw with
    | true =>
      refine .inl (hwSteps_of_cleared hk₁ ?_)
      rw [Walk.Cleared, hphase, hcfg]
      exact hadm
    | false =>
      refine .inr ⟨ctx, eq_ok_of_lookupFault ha, hadm, hwSteps_refused _ _ _ _ _ ?_⟩
      rw [hwStep_check _ _ ctx s₁ hk₁ hphase, checkStep_of_not_admitted (hcfg ▸ hadm)]

/-! ### The verdict of the pseudocode along the steps (R99) -/

/-- The loop of R99 from any level down. -/
def loopFrom (c : Config) (ctx : Ctx) (q : Request) (rd : Word64 → Option Word64) :
    Level → Word64 → Bool → Bool → ReqOutcome
  | .l4 => loop4 c ctx q rd
  | .l3 => loop3 c ctx q rd
  | .l2 => loop2 c ctx q rd
  | .l1 => loop1 c ctx q rd

/-- The loop is one entry read, and the loop at the next level where that entry is a table; level 1 has no table (R85). -/
theorem loopFrom_eq (c : Config) (ctx : Ctx) (q : Request) (rd : Word64 → Option Word64) (L : Level) (base : Word64)
    (r w : Bool) :
    loopFrom c ctx q rd L base r w = loopAt c ctx q rd L (loopFrom c ctx q rd (nextLevel L)) base r w := by
  cases L with
  | l4 | l3 | l2 => rfl
  | l1 =>
    simp only [loopFrom, loop1, loopAt]
    cases rd (entryAddr base q.ia .l1) with
    | none => rfl
    | some e =>
      cases hc : classify c .l1 e with
      | table => exact absurd hc (classify_l1_ne_table c e)
      | notPresent | reserved | leaf4K | leaf2M | leaf1G => simp only [hc]

/-- What the pseudocode still has to say of a request at the place where its processing stands. -/
def Walk.verdict (c : Config) (answer : CtxOutcome) (rd : Word64 → Option Word64) (ws : Walk) : Verdict :=
  match ws.phase with
  | .lookup => processSpec c answer rd ws.req
  | .check ctx => processSpec c (.ok ctx) rd ws.req
  | .walk ctx => .outcome (loopFrom c ctx ws.req rd ws.level ws.base ws.allR ws.allW)
  | .done o => .outcome o

section
variable {c : Config} {answer : CtxOutcome} {rd : Word64 → Option Word64} {ws : Walk}

theorem verdict_lookup (h : ws.phase = .lookup) : ws.verdict c answer rd = processSpec c answer rd ws.req := by
  rw [Walk.verdict, h]

theorem verdict_check {ctx : Ctx} (h : ws.phase = .check ctx) :
    ws.verdict c answer rd = processSpec c (.ok ctx) rd ws.req := by
  rw [Walk.verdict, h]

theorem verdict_walk {ctx : Ctx} (h : ws.phase = .walk ctx) :
    ws.verdict c answer rd = .outcome (loopFrom c ctx ws.req rd ws.level ws.base ws.allR ws.allW) := by
  rw [Walk.verdict, h]

theorem verdict_done {o : ReqOutcome} (h : ws.phase = .done o) : ws.verdict c answer rd = .outcome o := by
  rw [Walk.verdict, h]

/-- Once `ContextLookup` has answered, the pseudocode goes on from the answer (R24, R99). -/
theorem verdict_answered (h : ws.phase = lookupPhase answer) :
    ws.verdict c answer rd = processSpec c answer rd ws.req := by
  cases ha : lookupFault answer with
  | error cause => rw [verdict_done (h.trans (lookupPhase_of_fault ha)), processSpec, ha]
  | ok ctx =>
    obtain rfl := eq_ok_of_lookupFault ha
    exact verdict_check h

end

section
variable {c : Config} {ctx : Ctx} {rd : Word64 → Option Word64} {q : Request}

theorem processSpec_of_not_admitted (h : agawAdmitted c ctx.agaw = false) :
    processSpec c (.ok ctx) rd q = .refused ctx.agaw := by
  simp [processSpec, lookupFault, h]

theorem processSpec_of_beyondWidth (h : agawAdmitted c ctx.agaw = true) (hw : beyondWidth c ctx q.ia = true) :
    processSpec c (.ok ctx) rd q = .outcome (.fault .addrBeyondWidth (.input q.ia)) := by
  simp [processSpec, lookupFault, h, hw]

/-- Within an admitted width the pseudocode starts its loop where the machine starts the walk (R95). -/
theorem processSpec_of_started (h : agawAdmitted c ctx.agaw = true) (hw : beyondWidth c ctx q.ia = false) :
    processSpec c (.ok ctx) rd q =
      .outcome (loopFrom c ctx q rd (startLevel ctx.agaw) (frameBase ctx.slptptr) true true) := by
  simp only [processSpec, lookupFault, h, hw, startLevel]
  by_cases hl : levelsOfAgaw ctx.agaw = 4
  · simp [hl, loopFrom]
  · simp [hl, loopFrom]

end

/-- Under walk_order a walk ends at a leaf as the pseudocode does (R98, R117, R146). -/
theorem endOutcome_eq_afterLeaf {ws : Walk} {ctx : Ctx} {s : State} {e pa : Word64} {size : PageSize}
    (hf : s.cfg.faultChoice = .walkOrder) :
    endOutcome ws ctx (.leaf ⟨pa, size, fieldSnp s.cfg e, fieldTm s.cfg e⟩) s =
      afterLeaf s.cfg ctx ws.req ws.level (entryAddr ws.base ws.req.ia ws.level) ws.allR ws.allW e pa size := by
  rw [endOutcome_leaf ws ctx _ s hf, afterLeaf]
  cases permitted ws.req.kind ws.allR ws.allW <;> rfl

/-- One entry read takes the walk to where the pseudocode goes on, or to the outcome it computes (R96, R99). -/
theorem entryEffect_verdict {k : Nat} {ws : Walk} {ctx : Ctx} {s : State} (answer : CtxOutcome)
    (rd : Word64 → Option Word64) (hp : ws.phase = .walk ctx) (hf : s.cfg.faultChoice = .walkOrder) :
    ∃ ws', Advances k ws' s (entryEffect k ws ctx s.cfg s (rd (entryAddr ws.base ws.req.ia ws.level))) ∧
      ws'.verdict s.cfg answer rd = ws.verdict s.cfg answer rd := by
  rw [verdict_walk hp, loopFrom_eq, loopAt]
  cases rd (entryAddr ws.base ws.req.ia ws.level) with
  | none => exact ⟨_, endWalk_advances k ws ctx _ s, congrArg Verdict.outcome (endOutcome_unusable ws ctx _ s hf)⟩
  | some e =>
    simp only [entryEffect]
    cases classify s.cfg ws.level e with
    | notPresent | reserved =>
      exact ⟨_, endWalk_advances k ws ctx _ s, congrArg Verdict.outcome (endOutcome_unusable ws ctx _ s hf)⟩
    | table =>
      have hu : ws.unfinished = true := by rw [Walk.unfinished, hp]
      exact ⟨_, setWalk_advances k _ s hu, verdict_walk hp⟩
    | leaf4K | leaf2M | leaf1G =>
      exact ⟨_, endWalk_advances k _ ctx _ s, congrArg Verdict.outcome (endOutcome_eq_afterLeaf hf)⟩

/-- Nothing is drawn but the one value there is: clean caches, walk_order, and one answer bound to the source. -/
structure State.Settled (source : Nat) (answer : CtxOutcome) (s : State) : Prop where
  clean : s.cachesClean
  walkOrder : s.cfg.faultChoice = .walkOrder
  bound : assocGet s.ctxTable source = some [answer]

/-- With clean caches an entry read returns memory's own content (R52, R56). -/
theorem memRead64_of_clean {s : State} (h : s.cachesClean) (a : Word64) : memRead64 s a = cleanReader s a := by
  simp only [memRead64, cleanReader, histOf, histSet, h, assocGet, Option.getD_none, pick_single]

theorem contextLookup_of_bound {s : State} {q : Request} {answer : CtxOutcome}
    (h : assocGet s.ctxTable q.source = some [answer]) : contextLookup s q = answer :=
  List.mem_singleton.mp (contextLookup_mem h (List.cons_ne_nil _ _))

theorem cleanReader_congr {s t : State} (h : SameButWalksAndLog s t) : cleanReader t = cleanReader s := by
  funext a
  rw [cleanReader, cleanReader, h.cfg, h.mem]

theorem State.Settled.frame {source : Nat} {answer : CtxOutcome} {s t : State} (h : s.Settled source answer)
    (hst : SameButWalksAndLog s t) : t.Settled source answer :=
  ⟨hst.hist.trans h.clean, by rw [hst.cfg]; exact h.walkOrder, by rw [hst.ctxTable]; exact h.bound⟩

/-- A step of the hardware takes a request to a place of which the pseudocode says the same. -/
theorem hwStep_verdict {k : Nat} {ws : Walk} {s t : State} {answer : CtxOutcome}
    (hs : s.Settled ws.req.source answer) (hk : s.walks[k]? = some ws) (hu : ws.unfinished = true)
    (h : hwStep runEntry k s = .next t) :
    ∃ ws', Advances k ws' s t ∧
      ws'.verdict s.cfg answer (cleanReader s) = ws.verdict s.cfg answer (cleanReader s) := by
  cases hp : ws.phase with
  | lookup =>
    rw [hwStep_lookup k ws s hk hp] at h
    cases h
    refine ⟨lookedUp ws s, lookupStep_advances k ws s, ?_⟩
    have hphase : (lookedUp ws s).phase = lookupPhase answer := by rw [← contextLookup_of_bound hs.bound]; rfl
    rw [verdict_lookup hp, verdict_answered hphase]
    rfl
  | check ctx =>
    rw [hwStep_check k ws ctx s hk hp] at h
    rw [verdict_check hp]
    cases ha : agawAdmitted s.cfg ctx.agaw with
    | false => rw [checkStep_of_not_admitted ha] at h; cases h
    | true =>
      cases hw : beyondWidth s.cfg ctx ws.req.ia with
      | true =>
        rw [checkStep_of_beyondWidth ha hs.walkOrder hw] at h
        cases h
        exact ⟨_, raiseFault_advances k ws _ _ s, (processSpec_of_beyondWidth ha hw).symm⟩
      | false =>
        rw [checkStep_of_started ha (.inr hw)] at h
        cases h
        exact ⟨_, setWalk_advances k (startWalk ws ctx) s rfl, (processSpec_of_started ha hw).symm⟩
  | walk ctx =>
    rw [hwStep_walk k ws ctx s hk hp, walkStep_eq k ws ctx s hk hp, memRead64_of_clean hs.clean] at h
    cases h
    obtain ⟨ws', hadv, hv⟩ := entryEffect_verdict (k := k) (ws := entryNoted s ws ctx)
      (s := readNoted k ws ctx (entryAddr ws.base ws.req.ia ws.level) s) answer (cleanReader s) hp hs.walkOrder
    exact ⟨ws', (readNoted_advances k ws ctx _ s hu).trans hu hadv, hv⟩
  | done o => simp [Walk.unfinished, hp] at hu

/-- Steps of the hardware take a request to a place of which the pseudocode says the same. -/
theorem hwSteps_verdict {k n : Nat} {ws : Walk} {s t : State} {answer : CtxOutcome}
    (hs : s.Settled ws.req.source answer) (hk : s.walks[k]? = some ws) (h : hwSteps runEntry k n s = .next t) :
    ∃ ws', t.walks[k]? = some ws' ∧
      ws'.verdict s.cfg answer (cleanReader s) = ws.verdict s.cfg answer (cleanReader s) := by
  induction n generalizing s ws with
  | zero => cases h; exact ⟨ws, hk, rfl⟩
  | succ n ih =>
    obtain ⟨s₁, hstep, hrest⟩ := hwSteps_succ_next h
    cases hu : ws.unfinished with
    | true =>
      obtain ⟨ws₁, hadv, hv⟩ := hwStep_verdict hs hk hu hstep
      obtain ⟨ws₂, hadv₂, hreq⟩ := hwStep_advances hk hu hstep
      obtain rfl : ws₁ = ws₂ := Option.some.inj ((hadv.walk_at hk).symm.trans (hadv₂.walk_at hk))
      obtain ⟨ws', hk', hv'⟩ := ih (hreq ▸ hs.frame hadv.frame) (hadv.walk_at hk) hrest
      rw [hadv.frame.cfg, cleanReader_congr hadv.frame] at hv'
      exact ⟨ws', hk', hv'.trans hv⟩
    | false =>
      obtain ⟨o, hp⟩ := phase_of_finished ws hu
      rw [hwStep_done k ws o s hk hp] at hstep
      cases hstep
      exact ih hs hk hrest

/-- Where the processing of a request answers, it ends with the outcome that the pseudocode computes (R99). -/
theorem process_meets_processSpec {q : Request} {s t : State} {answer : CtxOutcome} (hs : s.Settled q.source answer)
    (h : process q s = .next t) :
    ∃ o, processSpec s.cfg answer (cleanReader s) q = .outcome o ∧ t.hasOutcome s.walks.length o := by
  have hk : (issueRequest q s).walks[s.walks.length]? = some (Walk.start q) := by simp
  have hs' : (issueRequest q s).Settled (Walk.start q).req.source answer := ⟨hs.clean, hs.walkOrder, hs.bound⟩
  obtain ⟨ws, hkt, hv⟩ := hwSteps_verdict hs' hk h
  obtain ⟨o, ho⟩ := process_hasOutcome h
  have hphase : ws.phase = .done o := by simpa [State.hasOutcome, State.phaseAt, hkt] using ho
  rw [verdict_done hphase] at hv
  exact ⟨o, hv.symm, ho⟩

/-! ### The agenda and the steps of the hardware (R20, R100) -/

/-- The same state with these turns listed. -/
def State.withAgenda (turns : List Turn) (s : State) : State := { s with agenda := turns }

/-- The same answer with these turns listed in the next state. -/
def answerWithAgenda (turns : List Turn) : Out → Out
  | .next t => .next (t.withAgenda turns)
  | .fault f => .fault f
  | .refused r => .refused r

theorem lookupStep_withAgenda (turns : List Turn) (k : Nat) (ws : Walk) (s : State) :
    lookupStep k ws (s.withAgenda turns) = (lookupStep k ws s).withAgenda turns := by
  have hans : contextLookup (s.withAgenda turns) ws.req = contextLookup s ws.req := rfl
  simp only [lookupStep, hans]
  cases lookupFault (contextLookup s ws.req) <;> rfl

theorem checkStep_withAgenda (turns : List Turn) (k : Nat) (ws : Walk) (ctx : Ctx) (s : State) :
    checkStep k ws ctx (s.withAgenda turns) = answerWithAgenda turns (checkStep k ws ctx s) := by
  have hcfg : (s.withAgenda turns).cfg = s.cfg := rfl
  unfold checkStep
  rw [hcfg]
  split
  · rfl
  · split <;> rfl

theorem endWalk_withAgenda (turns : List Turn) (k : Nat) (ws : Walk) (ctx : Ctx) (e : LoopEnd) (s : State) :
    endWalk k ws ctx e (s.withAgenda turns) = (endWalk k ws ctx e s).withAgenda turns := by
  rw [endWalk_eq, endWalk_eq]; rfl

theorem entryEffect_withAgenda (turns : List Turn) (k : Nat) (ws : Walk) (ctx : Ctx) (c : Config) (s : State)
    (r : Option Word64) :
    entryEffect k ws ctx c (s.withAgenda turns) r = (entryEffect k ws ctx c s r).withAgenda turns := by
  cases r with
  | none => exact endWalk_withAgenda ..
  | some e =>
    simp only [entryEffect]
    cases classify c ws.level e with
    | table => rfl
    | notPresent | reserved | leaf4K | leaf2M | leaf1G => exact endWalk_withAgenda ..

/-- A step of the hardware does not depend on the turns listed, and leaves them. -/
theorem hwStep_withAgenda (turns : List Turn) (k : Nat) (s : State) :
    hwStep runEntry k (s.withAgenda turns) = answerWithAgenda turns (hwStep runEntry k s) := by
  cases hk : s.walks[k]? with
  | none =>
    have hk' : (s.withAgenda turns).walks[k]? = none := hk
    simp only [hwStep, hk, hk']; rfl
  | some ws =>
    have hk' : (s.withAgenda turns).walks[k]? = some ws := hk
    cases hp : ws.phase with
    | lookup =>
      rw [hwStep_lookup k ws _ hk hp, hwStep_lookup k ws _ hk' hp, lookupStep_withAgenda]; rfl
    | check ctx =>
      rw [hwStep_check k ws ctx _ hk hp, hwStep_check k ws ctx _ hk' hp, checkStep_withAgenda]
    | walk ctx =>
      rw [hwStep_walk k ws ctx _ hk hp, hwStep_walk k ws ctx _ hk' hp, walkStep_eq k ws ctx _ hk hp,
        walkStep_eq k ws ctx _ hk' hp]
      exact congrArg _ (entryEffect_withAgenda turns k (entryNoted s ws ctx) ctx s.cfg
        (readNoted k ws ctx (entryAddr ws.base ws.req.ia ws.level) s)
        (memRead64 s (entryAddr ws.base ws.req.ia ws.level)))
    | done o => rw [hwStep_done k ws o _ hk hp, hwStep_done k ws o _ hk' hp]; rfl

/-- Turns of the hardware on one request, taken one by one, are its steps in a row. -/
theorem stepN_advances (k n : Nat) (s : State) :
    stepN n (s.withAgenda (List.replicate n (.advance k))) = hwSteps runEntry k n (s.withAgenda []) := by
  induction n generalizing s with
  | zero => rfl
  | succ n ih =>
    have hstep : step (s.withAgenda (List.replicate (n + 1) (.advance k))) =
        answerWithAgenda (List.replicate n (.advance k)) (hwStep runEntry k s) := by
      rw [← hwStep_withAgenda, ← hwStep_exec]
      exact step_of_agenda (s := s.withAgenda (List.replicate (n + 1) (.advance k))) List.replicate_succ
    rw [stepN, hwSteps, hstep, hwStep_withAgenda]
    cases hwStep runEntry k s with
    | next t => exact ih t
    | fault f => rfl
    | refused r => rfl

/-- The hardware's turn on a request, listed first or by default, is a step on that request with the turn taken. -/
theorem step_eq_hwStep {s : State} {k : Nat}
    (h : (∃ rest, s.agenda = .advance k :: rest) ∨ (s.agenda = [] ∧ s.walks.findIdx? Walk.unfinished = some k)) :
    step s = hwStep exec k (s.withAgenda s.agenda.tail) := by
  obtain ⟨rest, ha⟩ | ⟨ha, hfirst⟩ := h
  · rw [step_of_agenda ha, ha]; rfl
  · have hsame : s.withAgenda s.agenda.tail = s := by rw [State.withAgenda, ha, List.tail_nil, ← ha]
    rw [step_of_no_agenda ha, defaultMove, hfirst, hsame]

/-- A step on a walk gives the entry that its read decodes to its row, in the state with the read noted (R96). -/
theorem hwStep_decoded {k : Nat} {ws : Walk} {ctx : Ctx} {s : State} {e : Word64} {i : Instr}
    (hk : s.walks[k]? = some ws) (hp : ws.phase = .walk ctx)
    (hread : memRead64 s (entryAddr ws.base ws.req.ia ws.level) = some e) (hd : decodeEntry s.cfg ws.level e = .ok i) :
    hwStep exec k s = exec i (readNoted k ws ctx (entryAddr ws.base ws.req.ia ws.level) s) := by
  simp only [hwStep, hk, hp, walkStep, hread, hd]

/-! ### The obligations of the family -/

/-- Settles O18: beyond the width the check raises the fault, within it the check starts the walk. -/
theorem addressWidthCheck : Obligations.AddressWidthCheck := by
  unfold Obligations.AddressWidthCheck
  intro s k ws ctx hk hp hf hagaw
  have ha := (agawAdmitted_iff s.cfg ctx.agaw).mpr hagaw
  rw [hwStep_exec, hwStep_check k ws ctx s hk hp]
  refine ⟨fun hia => ?_, fun hia => ?_⟩
  · rw [checkStep_of_beyondWidth ha hf (decide_eq_true hia)]; rfl
  · rw [checkStep_of_started ha (.inr (decide_eq_false (Nat.not_lt.mpr hia))), ← startLevel_of_admitted ha]; rfl

/-- Settles O21: each table row descends with the walk that stands at its level. -/
theorem tableEntriesDescend : Obligations.TableEntriesDescend := by
  unfold Obligations.TableEntriesDescend
  intro s ws ctx r w addr ign hk hp
  have hcur := currentWalk_eq s ws ctx hk hp
  exact ⟨fun hl => onEntry_at [.l4] s _ ws ctx hcur (List.mem_singleton.mpr hl),
    fun hl => onEntry_at [.l3] s _ ws ctx hcur (List.mem_singleton.mpr hl),
    fun hl => onEntry_at [.l2] s _ ws ctx hcur (List.mem_singleton.mpr hl)⟩

/-- Settles O22: the leaf ends the walk, and the rights with its own permit the request. -/
theorem leafEntriesTranslatePermittedRequests : Obligations.LeafEntriesTranslatePermittedRequests := by
  unfold Obligations.LeafEntriesTranslatePermittedRequests
  intro s ws ctx i f hk hp hf hi hl hperm
  have hend : endOutcome (accumulate ws f.r f.w) ctx (.leaf f.leaf) s = translatedOutcome s.cfg ctx ws.req f.leaf := by
    rw [endOutcome_leaf _ ctx f.leaf s hf]
    exact if_pos hperm
  rw [exec_leaf (currentWalk_eq s ws ctx hk hp) hi hl, endWalk_eq, hend, translatedOutcome, recordsOf, List.append_nil]
  rfl

/-- Settles O29: a step on a walk answers, and its move is a descent by one level or the end. -/
theorem walkStepMakesProgress : Obligations.WalkStepMakesProgress := by
  unfold Obligations.WalkStepMakesProgress
  intro s k ws ctx hk hp
  have hu : ws.unfinished = true := by rw [Walk.unfinished, hp]
  have hstep := hwStep_walk k ws ctx s hk hp
  rw [walkStep_eq k ws ctx s hk hp] at hstep
  obtain ⟨ws', hadv, -, hmoves⟩ := hwStep_moves hk hu hstep
  refine ⟨_, ws', (hwStep_exec k s).trans hstep, hadv.walk_at hk, ?_⟩
  rw [hp] at hmoves
  cases hmoves with
  | descended ws₀ _ f hp₀ hL => exact .inr ⟨hp₀, nextLevel_num hL⟩
  | ended _ _ o ho => exact .inl ⟨o, ho⟩

/-- Settles O35: every step keeps the verdict of the pseudocode, and a request is refused only for its width. -/
theorem processingMeetsThePseudocode : Obligations.ProcessingMeetsThePseudocode := by
  unfold Obligations.ProcessingMeetsThePseudocode
  intro s q answer hclean hf hbound
  obtain ⟨t, ht⟩ | ⟨ctx, hans, hadm, href⟩ := process_answers_or_refuses q s
  · obtain ⟨o, hspec, ho⟩ := process_meets_processSpec ⟨hclean, hf, hbound⟩ ht
    have hexec : exec q.instr s = .next t := (exec_instr q s).trans ht
    rw [hspec]
    refine ⟨fun o' ho' => ?_, fun agaw hagaw => by cases hagaw⟩
    cases ho'
    obtain ⟨-, -, -, -, o', ho', hlog⟩ := requestFrame s t q hexec
    obtain rfl : o = o' := by simpa using ho.symm.trans ho'
    exact ⟨t, hexec, ho, hlog⟩
  · rw [contextLookup_of_bound hbound] at hans
    rw [hans, processSpec_of_not_admitted hadm, exec_instr, href]
    exact ⟨fun o ho => (by cases ho), fun agaw hagaw => (by cases hagaw; rfl)⟩

/-- Settles O36: the processing is not refused, so it answers, and where it answers the request is over. -/
theorem requestsAlwaysEnd : Obligations.RequestsAlwaysEnd := by
  unfold Obligations.RequestsAlwaysEnd
  intro s q hadm
  rw [exec_instr]
  obtain ⟨t, ht⟩ | ⟨ctx, hans, hnot, -⟩ := process_answers_or_refuses q s
  · obtain ⟨o, ho⟩ := process_hasOutcome ht
    exact ⟨t, o, ht, ho⟩
  · exact absurd ((hadm ctx hans).symm.trans hnot) (by decide)

/-- Settles O41: the first turn issues the request, and the six turns on it are the steps of its processing. -/
theorem uninterruptedProcessingIsAnInterleaving : Obligations.UninterruptedProcessingIsAnInterleaving := by
  unfold Obligations.UninterruptedProcessingIsAnInterleaving
  intro s q
  rw [exec_instr]
  exact stepN_advances s.walks.length 6 (issueRequest q s)

/-- Settles O16: the remainder of GAW - 12 by 9 is below 9. -/
theorem agawIsAdjustedUpward : Obligations.AgawIsAdjustedUpward := by
  unfold Obligations.AgawIsAdjustedUpward
  intro gaw hlow hhigh
  simp only [agawOfGaw]
  split
  · omega
  · omega

/-- Settles O20: the width is not admitted. -/
theorem unsupportedAgawIsRefused : Obligations.UnsupportedAgawIsRefused := by
  unfold Obligations.UnsupportedAgawIsRefused
  intro s k ws ctx hk hp hagaw
  rw [hwStep_exec, hwStep_check k ws ctx s hk hp]
  exact checkStep_of_not_admitted (Bool.eq_false_of_not_eq_true (mt (agawAdmitted_iff s.cfg ctx.agaw).mp hagaw))

/-- Settles O42: the step is the hardware's on that request, and its read decodes to the row. -/
theorem stepRunsTheDecodedEntry : Obligations.StepRunsTheDecodedEntry := by
  unfold Obligations.StepRunsTheDecodedEntry
  intro s k ws ctx e i hturn hk hp hread hd
  rw [step_eq_hwStep hturn]
  exact hwStep_decoded (s := s.withAgenda s.agenda.tail) hk hp hread hd

end Sys2Proof.Machine
end

section
/-! PROOFS, family 41_access_rights.md. The loop of R99 along the chain of entries that controls a translation, and the
answer of a request whose input address has a valid translation, for every kind at once; then the obligations of the
family. -/

namespace Sys2Proof.Machine

/-! ### The loop of R99 along a valid translation (R110, R115) -/

/-- The outcome of a request at the leaf of a valid translation, met with these rights and those of the translation's own
entries (R98, R115, R117). -/
def Mapped.outcome (c : Config) (ctx : Ctx) (q : Request) (m : Mapped) (allR allW : Bool) : ReqOutcome :=
  afterLeaf c ctx q m.level m.addr (allR && m.entries.all (fieldR c)) (allW && m.entries.all (fieldW c)) m.leaf m.pa m.size

/-- Where a chain gives a translation, a loop from the same base ends at its leaf with the rights of its entries. -/
def LoopFollows (c : Config) (ctx : Ctx) (q : Request) (chain : Word64 → Option Mapped)
    (loop : Word64 → Bool → Bool → ReqOutcome) : Prop :=
  ∀ base m allR allW, chain base = some m → loop base allR allW = m.outcome c ctx q allR allW

section
variable {c : Config} {ctx : Ctx} {q : Request} {rd : Word64 → Option Word64} {m : Mapped}

/-- A table entry in front of the chain adds its rights to those met before it (R115). -/
theorem outcome_table (e : Word64) (allR allW : Bool) :
    ({ m with entries := e :: m.entries } : Mapped).outcome c ctx q allR allW =
      m.outcome c ctx q (allR && fieldR c e) (allW && fieldW c e) := by
  simp only [Mapped.outcome, List.all_cons, Bool.and_assoc]

/-- The loop follows the chain from a level if it does below that level. -/
theorem loopAt_follows (L : Level) {below : Word64 → Option Mapped} {loop : Word64 → Bool → Bool → ReqOutcome}
    (hb : LoopFollows c ctx q below loop) :
    LoopFollows c ctx q (chainAt c q.ia rd L below) (loopAt c ctx q rd L loop) := by
  intro base m allR allW hm
  simp only [chainAt] at hm
  cases hr : rd (entryAddr base q.ia L) with
  | none => simp only [hr] at hm; cases hm
  | some e =>
    cases hc : classify c L e with
    | notPresent | reserved => simp only [hr, hc] at hm; cases hm
    | table =>
      simp only [hr, hc] at hm
      obtain ⟨m₁, hm₁, rfl⟩ := Option.map_eq_some_iff.mp hm
      simp only [loopAt, hr, hc]
      rw [outcome_table, hb _ m₁ _ _ hm₁]
    | leaf4K | leaf2M | leaf1G =>
      simp only [hr, hc] at hm
      cases hm
      simp only [loopAt, hr, hc, Mapped.outcome, List.all_cons, List.all_nil, Bool.and_true]

/-- Where the structure of a context record translates an input address, the loop of R99 ends at that leaf, with the rights
that every entry of the chain gives (R110, R115). -/
theorem loopFrom_of_mappedBy (hm : mappedBy c ctx rd q.ia = some m) :
    loopFrom c ctx q rd (startLevel ctx.agaw) (frameBase ctx.slptptr) true true = m.outcome c ctx q true true := by
  have h1 : LoopFollows c ctx q (chainAt c q.ia rd .l1 fun _ => none) (loop1 c ctx q rd) :=
    loopAt_follows .l1 fun _ _ _ _ h => nomatch h
  have h3 := loopAt_follows (rd := rd) .l3 (loopAt_follows (rd := rd) .l2 h1)
  by_cases hl : levelsOfAgaw ctx.agaw = 4
  · simp only [mappedBy, if_pos hl] at hm
    rw [startLevel, if_pos hl]
    exact loopAt_follows .l4 h3 _ m true true hm
  · simp only [mappedBy, if_neg hl] at hm
    rw [startLevel, if_neg hl]
    exact h3 _ m true true hm

/-- A permitted request is translated by the leaf (R98, R117). -/
theorem outcome_of_permitted (h : permitted q.kind (m.entries.all (fieldR c)) (m.entries.all (fieldW c)) = true) :
    m.outcome c ctx q true true =
      .translated m.pa m.size (snoop c q (fieldSnp c m.leaf)) (memTypeOf q ctx .finalPage) (fieldTm c m.leaf) := by
  rw [Mapped.outcome, afterLeaf, Bool.true_and, Bool.true_and, h]; rfl

/-- Any other request takes the denial of its kind at the leaf (R117, R146). -/
theorem outcome_of_not_permitted
    (h : permitted q.kind (m.entries.all (fieldR c)) (m.entries.all (fieldW c)) = false) :
    m.outcome c ctx q true true = .fault (deniedCause q.kind) (.entry m.level m.addr) := by
  rw [Mapped.outcome, afterLeaf, Bool.true_and, Bool.true_and, h]; rfl

end

/-! ### Requests whose input address has a valid translation (R98, R112 to R114) -/

/-- A request for an input address with a valid translation completes: translated if the rights of all the entries permit
its kind, denied at the leaf if not. -/
theorem mapped_request_completes {s : State} {q : Request} {ctx : Ctx} {m : Mapped} (hs : s.Settled q.source (.ok ctx))
    (hadm : agawAdmitted s.cfg ctx.agaw = true) (hia : q.ia.toNat ≤ 2 ^ min s.cfg.cap.mgaw ctx.agaw - 1)
    (hm : mappedBy s.cfg ctx (cleanReader s) q.ia = some m) :
    ∃ t o, exec q.instr s = .next t ∧ SameButWalksAndLog s t ∧ t.hasOutcome s.walks.length o ∧
      t.faultLog = s.faultLog ++ recordsOf q o ∧
      (permitted q.kind (m.entries.all (fieldR s.cfg)) (m.entries.all (fieldW s.cfg)) = true →
        o = .translated m.pa m.size (snoop s.cfg q (fieldSnp s.cfg m.leaf)) (memTypeOf q ctx .finalPage)
          (fieldTm s.cfg m.leaf)) ∧
      (permitted q.kind (m.entries.all (fieldR s.cfg)) (m.entries.all (fieldW s.cfg)) = false →
        o = .fault (deniedCause q.kind) (.entry m.level m.addr)) := by
  have hwidth : beyondWidth s.cfg ctx q.ia = false := decide_eq_false (Nat.not_lt.mpr hia)
  have hspec : processSpec s.cfg (.ok ctx) (cleanReader s) q = .outcome (m.outcome s.cfg ctx q true true) := by
    rw [processSpec_of_started hadm hwidth, loopFrom_of_mappedBy hm]
  obtain ⟨t, ht, ho, hlog⟩ := (processingMeetsThePseudocode s q _ hs.clean hs.walkOrder hs.bound).1 _ hspec
  exact ⟨t, _, ht, (requestFrame s t q ht).1, ho, hlog, outcome_of_permitted, outcome_of_not_permitted⟩

/-- A right that some entry lacks is not given by all of them. -/
theorem all_eq_false_of_lacking {entries : List Word64} {right : Word64 → Bool}
    (h : ∃ e ∈ entries, right e = false) : entries.all right = false := by
  simpa using h

/-! ### The obligations of the family -/

/-- Settles O32: R alone decides whether a READ is permitted. -/
theorem readNeedsReadInEveryEntry : Obligations.ReadNeedsReadInEveryEntry := by
  unfold Obligations.ReadNeedsReadInEveryEntry
  intro s ia ns coh source ctx m hclean hf hbound hadm hia hm
  obtain ⟨t, o, ht, hsame, ho, hlog, hpermitted, hdenied⟩ :=
    mapped_request_completes (q := ⟨.read, ia, ns, coh, source⟩) ⟨hclean, hf, hbound⟩ hadm hia hm
  exact ⟨t, o, ht, hsame, ho, hlog, fun h => hpermitted (List.all_eq_true.mpr h),
    fun h => hdenied (all_eq_false_of_lacking h)⟩

/-- Settles O33: W alone decides whether a WRITE is permitted. -/
theorem writeNeedsWriteInEveryEntry : Obligations.WriteNeedsWriteInEveryEntry := by
  unfold Obligations.WriteNeedsWriteInEveryEntry
  intro s ia ns coh source ctx m hclean hf hbound hadm hia hm
  obtain ⟨t, o, ht, hsame, ho, hlog, hpermitted, hdenied⟩ :=
    mapped_request_completes (q := ⟨.write, ia, ns, coh, source⟩) ⟨hclean, hf, hbound⟩ hadm hia hm
  exact ⟨t, o, ht, hsame, ho, hlog, fun h => hpermitted (List.all_eq_true.mpr h),
    fun h => hdenied (all_eq_false_of_lacking h)⟩

/-- Settles O34: an ATOMIC is permitted when R and W are both 1 in all the entries, that is when both are in each. -/
theorem atomicNeedsBothInEveryEntry : Obligations.AtomicNeedsBothInEveryEntry := by
  unfold Obligations.AtomicNeedsBothInEveryEntry
  intro s ia ns coh source ctx m hclean hf hbound hadm hia hm
  obtain ⟨t, o, ht, hsame, ho, hlog, hpermitted, hdenied⟩ :=
    mapped_request_completes (q := ⟨.atomic, ia, ns, coh, source⟩) ⟨hclean, hf, hbound⟩ hadm hia hm
  refine ⟨t, o, ht, hsame, ho, hlog, fun h => hpermitted ?_, fun ⟨e, he, hlacks⟩ => hdenied ?_⟩
  · exact Bool.and_eq_true_iff.mpr
      ⟨List.all_eq_true.mpr fun e he => (h e he).1, List.all_eq_true.mpr fun e he => (h e he).2⟩
  · exact Bool.and_eq_false_iff.mpr
      (hlacks.imp (fun hr => all_eq_false_of_lacking ⟨e, he, hr⟩) (fun hw => all_eq_false_of_lacking ⟨e, he, hw⟩))

end Sys2Proof.Machine
end

section
/-! PROOFS, family 42_snoop.md. The snoop function by whether SC and SNP override the no-snoop attribute, and the
attributes with which a step of a walk notes its entry read; then the obligations of the family. -/

namespace Sys2Proof.Machine

/-! ### The snoop function (R122 to R125) -/

/-- Where SC or SNP is 0 the no-snoop attribute decides (R122, R124). -/
theorem snoop_of_not_overridden {c : Config} {snp : Bool} (q : Request) (h : (c.ecap.sc && snp) = false) :
    snoop c q snp = !q.noSnoop := by
  rw [snoop, h, Bool.false_or]

/-- Where SC and SNP are 1 every access is snooped (R123). -/
theorem snoop_of_overridden {c : Config} {snp : Bool} (q : Request) (h : (c.ecap.sc && snp) = true) :
    snoop c q snp = true := by
  rw [snoop, h, Bool.true_or]

/-! ### The attributes of an entry read (R121, R130, R132, R134) -/

theorem ownReadSnooped_of_c {c : Config} (n : Nat) (h : c.ecap.c = true) : ownReadSnooped c n = true := by
  rw [ownReadSnooped, h, Bool.true_or]

theorem memTypeOf_slEntry (q : Request) (ctx : Ctx) :
    memTypeOf q ctx .slEntry =
      if q.inCoherencyDomain = false then .ignored else if ctx.extended = true ∧ ctx.cd = true then .uc else .wb := by
  simp only [memTypeOf, Bool.not_eq_true', Bool.and_eq_true]

/-- The effect of an entry, whatever its class, notes no read: the one that fetched it is noted before (R96). -/
theorem entryEffect_keeps_reads (k : Nat) (ws : Walk) (ctx : Ctx) (c : Config) (s : State) (r : Option Word64)
    (hu : ws.unfinished = true) :
    ∃ ws', Advances k ws' s (entryEffect k ws ctx c s r) ∧ ws'.reads = ws.reads := by
  cases r with
  | none => exact ⟨_, endWalk_advances k ws ctx _ s, rfl⟩
  | some e =>
    simp only [entryEffect]
    cases classify c ws.level e with
    | table => exact ⟨_, setWalk_advances k _ s hu, rfl⟩
    | notPresent | reserved | leaf4K | leaf2M | leaf1G => exact ⟨_, endWalk_advances k _ ctx _ s, rfl⟩

/-- A step of a walk answers, and the request has noted the read of its entry and no other (R96, R121, R135). -/
theorem hwStep_walk_notes_entry_read {k : Nat} {ws : Walk} {ctx : Ctx} {s : State} (hk : s.walks[k]? = some ws)
    (hp : ws.phase = .walk ctx) :
    ∃ t ws', hwStep runEntry k s = .next t ∧ Advances k ws' s t ∧ ws'.reads = (entryNoted s ws ctx).reads := by
  have hu : ws.unfinished = true := by rw [Walk.unfinished, hp]
  obtain ⟨ws', hadv, hreads⟩ := entryEffect_keeps_reads k (entryNoted s ws ctx) ctx s.cfg
    (readNoted k ws ctx (entryAddr ws.base ws.req.ia ws.level) s)
    (memRead64 s (entryAddr ws.base ws.req.ia ws.level)) hu
  exact ⟨_, ws', (hwStep_walk k ws ctx s hk hp).trans (walkStep_eq k ws ctx s hk hp),
    (readNoted_advances k ws ctx _ s hu).trans hu hadv, hreads⟩

/-! ### The obligations of the family -/

/-- Settles O31: the step notes the read of its entry, with the memory type of the entry's class of access. -/
theorem entryReadAttributes : Obligations.EntryReadAttributes := by
  unfold Obligations.EntryReadAttributes
  intro s k ws ctx hk hp
  obtain ⟨t, ws', hstep, hadv, hreads⟩ := hwStep_walk_notes_entry_read hk hp
  refine ⟨t, ws', ownReadSnooped s.cfg s.freeCount, (hwStep_exec k s).trans hstep, hadv.walk_at hk,
    ownReadSnooped_of_c s.freeCount, ?_⟩
  rw [hreads, entryNoted, noteRead_reads, memTypeOf_slEntry]

/-- Settles O58: SC = 0 leaves the attribute to decide, SC = 1 with SNP = 1 overrides it. -/
theorem snoopFunction : Obligations.SnoopFunction := by
  unfold Obligations.SnoopFunction
  intro c q snp
  exact ⟨fun hsc => snoop_of_not_overridden q (by rw [hsc, Bool.false_and]),
    fun hsc hsnp => snoop_of_overridden q (by rw [hsc, hsnp, Bool.true_and])⟩

/-- Settles O59: SNP = 0 leaves the attribute to decide, whatever SC is. -/
theorem snoopWithSnpClear : Obligations.SnoopWithSnpClear := by
  unfold Obligations.SnoopWithSnpClear
  intro c q _
  exact snoop_of_not_overridden q (Bool.and_false _)

end Sys2Proof.Machine
end

section
/-! PROOFS, family 43_memory_type.md. The memory type by which of R130, R132, R133 and R134 applies; then the obligation
of the family. -/

namespace Sys2Proof.Machine

/-! ### The memory type of an access (R130 to R135) -/

/-- Outside the coherency domain the memory type is ignored (R130). -/
theorem memTypeOf_of_outside_domain {q : Request} (ctx : Ctx) (what : AccessClass) (h : q.inCoherencyDomain = false) :
    memTypeOf q ctx what = .ignored := by
  simp only [memTypeOf, h, Bool.not_false, if_true]

/-- Inside it the extended-context-entry's CD makes every access UC (R132). -/
theorem memTypeOf_of_cache_disabled {q : Request} {ctx : Ctx} (what : AccessClass) (h : q.inCoherencyDomain = true)
    (hext : ctx.extended = true) (hcd : ctx.cd = true) : memTypeOf q ctx what = .uc := by
  simp only [memTypeOf, h, hext, hcd, Bool.not_true, Bool.false_eq_true, if_false, Bool.and_self, if_true]

/-- A second-level entry is WB inside the domain where no CD disables caching (R134). -/
theorem memTypeOf_slEntry_of_cacheable {q : Request} {ctx : Ctx} (h : q.inCoherencyDomain = true)
    (hcd : ctx.extended = false ∨ ctx.cd = false) : memTypeOf q ctx .slEntry = .wb := by
  have hnot : ¬(ctx.extended = true ∧ ctx.cd = true) := by
    rcases hcd with hext | hcd
    · exact fun ⟨hext', _⟩ => ne_true_of_eq_false hext hext'
    · exact fun ⟨_, hcd'⟩ => ne_true_of_eq_false hcd hcd'
  rw [memTypeOf_slEntry, if_neg (ne_false_of_eq_true h), if_neg hnot]

/-- The final page has the memory type of a second-level entry: R134 names the two together. -/
theorem memTypeOf_finalPage (q : Request) (ctx : Ctx) : memTypeOf q ctx .finalPage = memTypeOf q ctx .slEntry := rfl

/-- A root or context entry is UC inside the domain, whatever CD is (R132, R133). -/
theorem memTypeOf_rootOrCtx_of_inside_domain {q : Request} (ctx : Ctx) (h : q.inCoherencyDomain = true) :
    memTypeOf q ctx .rootOrCtxEntry = .uc := by
  rw [memTypeOf_rootOrCtx, rootOrCtxMemType, if_pos h]

/-! ### The obligation of the family -/

/-- Settles O60: the domain decides first, then CD, then the class of the access. -/
theorem memoryTypes : Obligations.MemoryTypes := by
  unfold Obligations.MemoryTypes
  intro q ctx
  refine ⟨fun h what => memTypeOf_of_outside_domain ctx what h,
    fun h hext hcd what => memTypeOf_of_cache_disabled what h hext hcd, fun h hcd => ?_⟩
  have hsl : memTypeOf q ctx .slEntry = .wb := memTypeOf_slEntry_of_cacheable h hcd
  exact ⟨memTypeOf_rootOrCtx_of_inside_domain ctx h, hsl, (memTypeOf_finalPage q ctx).trans hsl⟩

end Sys2Proof.Machine
end

section
/-! PROOFS, family 60_exceptions.md. The fault reported where a walk ends under any_applicable, the fault that a request
has taken and the entry it is recorded with, and the processing of one request under both values of FAULT_CHOICE; then the
obligations of the family. -/

namespace Sys2Proof.Machine

/-! ### The faults met under any_applicable (R149) -/

section
variable {ws : Walk} {ctx : Ctx} {e : LoopEnd} {s : State}

/-- The end of a walk meets a fault where the address is beyond the width, the walk ends in no leaf, or a right lacks. -/
theorem faultsMet_any_ne_nil (hf : s.cfg.faultChoice = .anyApplicable)
    (h : beyondWidth s.cfg ctx ws.req.ia = true ∨ (∃ cause, e = .unusable cause) ∨
      permitted ws.req.kind ws.allR ws.allW = false) : faultsMet s.cfg ctx ws e s.freeCount ≠ [] := by
  simp only [faultsMet, hf]
  obtain hw | ⟨cause, rfl⟩ | hp := h
  · simp [hw]
  · simp [walkCause]
  · cases e <;> simp [denial, hp]

/-- Where a walk's end meets a fault under any_applicable, it reports one that applies: the width's, the walk's own, or
the denial, which stands at the leaf if there is one (R146, R149). -/
theorem endOutcome_any_fault (hf : s.cfg.faultChoice = .anyApplicable)
    (h : beyondWidth s.cfg ctx ws.req.ia = true ∨ (∃ cause, e = .unusable cause) ∨
      permitted ws.req.kind ws.allR ws.allW = false) :
    ∃ cause info, endOutcome ws ctx e s = .fault cause info ∧
      ((cause = .addrBeyondWidth ∧ info = .input ws.req.ia ∧ beyondWidth s.cfg ctx ws.req.ia = true) ∨
        (e = .unusable cause ∧ info = entryHere ws) ∨
        (cause = deniedCause ws.req.kind ∧ permitted ws.req.kind ws.allR ws.allW = false ∧
          ∀ l, e = .leaf l → info = entryHere ws)) := by
  obtain ⟨f, hmem, hout⟩ := endOutcome_mem ws ctx e s (faultsMet_any_ne_nil hf h)
  refine ⟨f.1, f.2, hout, ?_⟩
  obtain ⟨rfl, hw⟩ | hown | hdeny := (mem_faultsMet_any s.cfg ctx ws e s.freeCount f hf).mp hmem
  · exact .inl ⟨rfl, rfl, hw⟩
  · cases e with
    | unusable cause => obtain rfl := List.mem_singleton.mp hown; exact .inr (.inl ⟨rfl, rfl⟩)
    | leaf l => cases hown
  · obtain ⟨hp, hcause, hplace⟩ := mem_denial ws e s.freeCount f hdeny
    exact .inr (.inr ⟨hcause, hp, hplace⟩)

end

/-! ### Entries with which a walk cannot go on (R72, R141, R145) -/

/-- The cause of a read by its class: a read that fails, an entry that is not present, one with a reserved bit. -/
def unusableCause : Option EntryClass → Option Cause
  | none => some .slAccessError
  | some .notPresent => some .slNotPresent
  | some .reserved => some .slReserved
  | some .table => none
  | some .leaf4K => none
  | some .leaf2M => none
  | some .leaf1G => none

/-- The class of the entry at which a walk stands, as the n-th draw would read it; none where the read fails (R56, R85). -/
def Walk.classRead (ws : Walk) (s : State) (n : Nat) : Option EntryClass :=
  (memRead64 { s with freeCount := n } (entryAddr ws.base ws.req.ia ws.level)).map (classify s.cfg ws.level)

/-- The draw that a step makes next is the one that the count of draws names (R52). -/
theorem classRead_next (ws : Walk) (s : State) : ws.classRead s s.freeCount =
    (memRead64 s (entryAddr ws.base ws.req.ia ws.level)).map (classify s.cfg ws.level) := rfl

/-- A step that reads an unusable entry notes the read and ends the walk with the cause of its class (R96, R145). -/
theorem hwStep_unusable {k : Nat} {ws : Walk} {ctx : Ctx} {cause : Cause} {s : State} (hk : s.walks[k]? = some ws)
    (hp : ws.phase = .walk ctx) (h : unusableCause (ws.classRead s s.freeCount) = some cause) :
    hwStep exec k s = .next (endWalk k (entryNoted s ws ctx) ctx (.unusable cause)
      (readNoted k ws ctx (entryAddr ws.base ws.req.ia ws.level) s)) := by
  rw [classRead_next] at h
  rw [hwStep_exec, hwStep_walk k ws ctx s hk hp, walkStep_eq k ws ctx s hk hp]
  cases hread : memRead64 s (entryAddr ws.base ws.req.ia ws.level) with
  | none => rw [hread] at h; cases h; rfl
  | some e =>
    rw [hread, Option.map_some] at h
    simp only [entryEffect, noteRead_level]
    cases hc : classify s.cfg ws.level e with
    | notPresent | reserved => rw [hc] at h; cases h; rfl
    | table | leaf4K | leaf2M | leaf1G => rw [hc] at h; cases h

/-! ### The fault of a request and the entry it is recorded with (R146, R147) -/

/-- The last read of a request is the one of the entry at which its walk stands (R96). -/
def Walk.LastReadHere (ws : Walk) : Prop :=
  ∃ read, ws.reads.getLast? = some read ∧ read.what = .slEntry ws.level (entryAddr ws.base ws.req.ia ws.level)

/-- The classes of a leaf (R85, R97). -/
def leafClasses : List EntryClass := [.leaf1G, .leaf2M, .leaf4K]

/-- The faults that the table of causes admits for a walk state under walk_order, with what is recorded: a fault of
`ContextLookup` with the request, the fault of the width with the input address, and the faults of an entry with the
place of the last entry read, where a draw of its Hist has the class for it (R147). -/
inductive Walk.Recorded (s : State) (ws : Walk) : Cause → FaultInfo → Prop
  | context {answer : CtxOutcome} {cause : Cause} (h : lookupFault answer = .error cause) : Recorded s ws cause .request
  | width : Recorded s ws .addrBeyondWidth (.input ws.req.ia)
  | unusable {n : Nat} {cause : Cause} (hlast : ws.LastReadHere) (h : unusableCause (ws.classRead s n) = some cause) :
      Recorded s ws cause (entryHere ws)
  | denied {n : Nat} {cls : EntryClass} (hlast : ws.LastReadHere) (h : ws.classRead s n = some cls)
      (hleaf : cls ∈ leafClasses) : Recorded s ws (deniedCause ws.req.kind) (entryHere ws)

/-- The fault that a request has taken, if any, is one that the table of causes admits. -/
def Walk.FaultRecorded (s : State) (ws : Walk) : Prop :=
  ∀ cause info, ws.phase = .done (.fault cause info) → ws.Recorded s cause info

theorem SameButWalksAndLog.symm {s t : State} (h : SameButWalksAndLog s t) : SameButWalksAndLog t s :=
  ⟨h.cfg.symm, h.mem.symm, h.hist.symm, h.ctxTable.symm, h.accesses.symm, h.agenda.symm⟩

theorem faultRecorded_of_unfinished (s : State) {ws : Walk} (h : ws.unfinished = true) : ws.FaultRecorded s := by
  intro cause info hp
  simp [Walk.unfinished, hp] at h

/-- What an entry reads as rests on nothing that the processing of a request changes (R48). -/
theorem classRead_frame {s t : State} (h : SameButWalksAndLog s t) (ws : Walk) (n : Nat) :
    ws.classRead t n = ws.classRead s n := by
  rw [Walk.classRead, Walk.classRead, memRead64_same s t _ n h.cfg h.mem h.hist, h.cfg]

theorem Walk.Recorded.of_frame {s t : State} {ws : Walk} {cause : Cause} {info : FaultInfo}
    (hst : SameButWalksAndLog s t) (h : ws.Recorded s cause info) : ws.Recorded t cause info := by
  cases h with
  | context h => exact .context h
  | width => exact .width
  | unusable hlast h => exact .unusable hlast ((congrArg unusableCause (classRead_frame hst ws _)).trans h)
  | denied hlast h hleaf => exact .denied hlast ((classRead_frame hst ws _).trans h) hleaf

section
variable {k n : Nat} {ws : Walk} {ctx : Ctx} {s s₀ : State}

theorem endWalk_unusable_recorded {cause : Cause} (hf : s.cfg.faultChoice = .walkOrder) (hlast : ws.LastReadHere)
    (h : unusableCause (ws.classRead s₀ n) = some cause) :
    ∃ ws', Advances k ws' s (endWalk k ws ctx (.unusable cause) s) ∧ ws'.FaultRecorded s₀ := by
  refine ⟨_, endWalk_advances k ws ctx _ s, fun c info hp => ?_⟩
  rw [endOutcome_unusable ws ctx cause s hf] at hp
  cases hp
  exact .unusable hlast h

theorem endWalk_leaf_recorded {cls : EntryClass} (l : Leaf) (hf : s.cfg.faultChoice = .walkOrder)
    (hlast : ws.LastReadHere) (h : ws.classRead s₀ n = some cls) (hleaf : cls ∈ leafClasses) :
    ∃ ws', Advances k ws' s (endWalk k ws ctx (.leaf l) s) ∧ ws'.FaultRecorded s₀ := by
  refine ⟨_, endWalk_advances k ws ctx _ s, fun c info hp => ?_⟩
  rw [endOutcome_leaf ws ctx l s hf] at hp
  split at hp <;> cases hp
  exact .denied hlast h hleaf

/-- Under walk_order an entry just read faults as the table of causes says for its class (R141, R145, R146). -/
theorem entryEffect_recorded (hu : ws.unfinished = true) (hf : s.cfg.faultChoice = .walkOrder)
    (hlast : ws.LastReadHere) :
    ∃ ws', Advances k ws' s (entryEffect k ws ctx s₀.cfg s
        (memRead64 { s₀ with freeCount := n } (entryAddr ws.base ws.req.ia ws.level))) ∧ ws'.FaultRecorded s₀ := by
  have hcls : ws.classRead s₀ n = (memRead64 { s₀ with freeCount := n } (entryAddr ws.base ws.req.ia ws.level)).map
    (classify s₀.cfg ws.level) := rfl
  cases hread : memRead64 { s₀ with freeCount := n } (entryAddr ws.base ws.req.ia ws.level) with
  | none =>
    rw [hread] at hcls
    exact endWalk_unusable_recorded hf hlast (congrArg unusableCause hcls)
  | some e =>
    rw [hread, Option.map_some] at hcls
    simp only [entryEffect]
    cases hc : classify s₀.cfg ws.level e with
    | table => exact ⟨_, setWalk_advances k _ s hu, faultRecorded_of_unfinished s₀ hu⟩
    | notPresent | reserved =>
      rw [hc] at hcls
      exact endWalk_unusable_recorded hf hlast (congrArg unusableCause hcls)
    | leaf4K | leaf2M | leaf1G =>
      rw [hc] at hcls
      exact endWalk_leaf_recorded (ws := accumulate ws _ _) _ hf hlast hcls (by decide)

end

/-- A step of the hardware under walk_order takes only faults that the table of causes admits. -/
theorem hwStep_recorded {k : Nat} {ws : Walk} {s t : State} (hf : s.cfg.faultChoice = .walkOrder)
    (hk : s.walks[k]? = some ws) (hu : ws.unfinished = true) (h : hwStep runEntry k s = .next t) :
    ∃ ws', Advances k ws' s t ∧ ws'.FaultRecorded s := by
  cases hp : ws.phase with
  | lookup =>
    rw [hwStep_lookup k ws s hk hp] at h
    cases h
    refine ⟨lookedUp ws s, lookupStep_advances k ws s, fun cause info hdone => ?_⟩
    rw [lookedUp, lookupPhase] at hdone
    split at hdone
    · next hans => cases hdone; exact .context hans
    · cases hdone
  | check ctx =>
    rw [hwStep_check k ws ctx s hk hp] at h
    obtain ⟨ws', hadv, -, hmoves⟩ := checkStep_moves ws.level h
    refine ⟨ws', hadv, fun cause info hdone => ?_⟩
    cases hmoves with
    | tooWide _ _ hwide => cases hwide.symm.trans hdone; exact .width
    | started => cases hdone
  | walk ctx =>
    rw [hwStep_walk k ws ctx s hk hp, walkStep_eq k ws ctx s hk hp] at h
    cases h
    have hlast : (entryNoted s ws ctx).LastReadHere :=
      ⟨_, (congrArg List.getLast? (noteRead_reads s ws _ _)).trans List.getLast?_concat, rfl⟩
    obtain ⟨ws', hadv, hrec⟩ := entryEffect_recorded (k := k) (n := s.freeCount) (ws := entryNoted s ws ctx) (ctx := ctx)
      (s := readNoted k ws ctx (entryAddr ws.base ws.req.ia ws.level) s) (s₀ := s) hu hf hlast
    exact ⟨ws', (readNoted_advances k ws ctx _ s hu).trans hu hadv, hrec⟩
  | done o => simp [Walk.unfinished, hp] at hu

/-- Steps of the hardware under walk_order take only faults that the table of causes admits. -/
theorem hwSteps_recorded {k n : Nat} {ws : Walk} {s t : State} (hf : s.cfg.faultChoice = .walkOrder)
    (hk : s.walks[k]? = some ws) (hrec : ws.FaultRecorded s) (h : hwSteps runEntry k n s = .next t) :
    ∃ ws', t.walks[k]? = some ws' ∧ ws'.FaultRecorded t := by
  induction n generalizing s ws with
  | zero => cases h; exact ⟨ws, hk, hrec⟩
  | succ n ih =>
    obtain ⟨s₁, hs, hrest⟩ := hwSteps_succ_next h
    cases hu : ws.unfinished with
    | true =>
      obtain ⟨ws₁, hadv, hrec₁⟩ := hwStep_recorded hf hk hu hs
      exact ih (hadv.frame.cfg ▸ hf) (hadv.walk_at hk)
        (fun cause info hp => (hrec₁ cause info hp).of_frame hadv.frame) hrest
    | false =>
      obtain ⟨o, hp⟩ := phase_of_finished ws hu
      rw [hwStep_done k ws o s hk hp] at hs
      cases hs
      exact ih hf hk hrec hrest

/-- A request that has its outcome is Done with it. -/
theorem walk_of_hasOutcome {s : State} {k : Nat} {o : ReqOutcome} (h : s.hasOutcome k o) :
    ∃ ws, s.walks[k]? = some ws ∧ ws.phase = .done o :=
  Option.map_eq_some_iff.mp h

/-- A request that is issued stands behind the others (R28). -/
theorem issueRequest_walk_at (q : Request) (s : State) :
    (issueRequest q s).walks[s.walks.length]? = some (Walk.start q) := by
  rw [issueRequest_walks, List.getElem?_concat_length]

/-- The fault that a processed request has taken is one that the table of causes admits for its walk state (R147). -/
theorem process_recorded {q : Request} {s t : State} {cause : Cause} {info : FaultInfo}
    (hf : s.cfg.faultChoice = .walkOrder) (h : process q s = .next t)
    (hout : t.hasOutcome s.walks.length (.fault cause info)) :
    ∃ ws, t.walks[s.walks.length]? = some ws ∧ ws.req = q ∧ ws.Recorded s cause info := by
  have hk := issueRequest_walk_at q s
  obtain ⟨ws, hkt, hrec⟩ := hwSteps_recorded (s := issueRequest q s) hf hk (faultRecorded_of_unfinished _ rfl) h
  obtain ⟨ws', hadv, hreq⟩ := process_advances h
  obtain rfl : ws' = ws := Option.some.inj ((hadv.walk_at hk).symm.trans hkt)
  obtain ⟨ws, hkt', hphase⟩ := walk_of_hasOutcome hout
  obtain rfl : ws' = ws := Option.some.inj (hkt.symm.trans hkt')
  exact ⟨ws', hkt, hreq, (hrec cause info hphase).of_frame (process_frame h).symm⟩

/-- The causes of an entry, each with what a read of that entry finds there (R141, R145, R146). -/
def entryCauses : List (Cause × Option EntryClass) :=
  [(.slAccessError, none), (.slNotPresent, some .notPresent), (.slReserved, some .reserved),
    (.readDenied, some .leaf1G), (.readDenied, some .leaf2M), (.readDenied, some .leaf4K),
    (.writeDenied, some .leaf1G), (.writeDenied, some .leaf2M), (.writeDenied, some .leaf4K),
    (.atomicDenied, some .leaf1G), (.atomicDenied, some .leaf2M), (.atomicDenied, some .leaf4K)]

theorem mem_entryCauses_of_unusable {found : Option EntryClass} {cause : Cause} (h : unusableCause found = some cause) :
    (cause, found) ∈ entryCauses ∧ cause ∈ [Cause.slAccessError, .slNotPresent, .slReserved] := by
  rcases found with _ | cls
  · cases h; decide
  · cases cls with
    | notPresent | reserved => cases h; decide
    | table | leaf4K | leaf2M | leaf1G => cases h

theorem mem_entryCauses_of_denied {cls : EntryClass} (h : cls ∈ leafClasses) (k : Kind) :
    (deniedCause k, some cls) ∈ entryCauses := by
  cases cls with
  | leaf4K | leaf2M | leaf1G => cases k <;> decide
  | notPresent | reserved | table => exact absurd h (by decide)

/-- A fault of the entry at which a walk stands, the last it read, is recorded with the place of that entry (R146). -/
theorem place_of_entryCause {ws : Walk} {s t : State} {k n : Nat} {cause : Cause} (hk : t.walks[k]? = some ws)
    (hlast : ws.LastReadHere) (h : (cause, ws.classRead s n) ∈ entryCauses) :
    ∃ ws' a read n, t.walks[k]? = some ws' ∧ a = entryAddr ws'.base ws.req.ia ws'.level ∧
      entryHere ws = .entry ws'.level a ∧ ws'.reads.getLast? = some read ∧ read.what = .slEntry ws'.level a ∧
      (cause, (memRead64 { s with freeCount := n } a).map (classify s.cfg ws'.level)) ∈ entryCauses := by
  obtain ⟨read, hread, hwhat⟩ := hlast
  exact ⟨ws, _, read, n, hk, rfl, rfl, hread, hwhat, h⟩

/-! ### Processing under both values of FAULT_CHOICE (R149) -/

/-- The same state under this value of FAULT_CHOICE. -/
def State.underChoice (f : FaultChoice) (s : State) : State := { s with cfg := { s.cfg with faultChoice := f } }

/-- The request has taken a fault, or its walk, being beyond the width, can end in nothing else under any_applicable. -/
def Walk.BoundToFault (c : Config) (ws : Walk) : Prop :=
  match ws.phase with
  | .lookup => False
  | .check _ => False
  | .walk ctx => beyondWidth c ctx ws.req.ia = true
  | .done (.translated _ _ _ _ _) => False
  | .done (.fault _ _) => True

theorem boundToFault_walk {c : Config} {ws : Walk} {ctx : Ctx} (hp : ws.phase = .walk ctx) :
    ws.BoundToFault c ↔ beyondWidth c ctx ws.req.ia = true := by
  rw [Walk.BoundToFault, hp]

/-- Where a walk ends with a fault met under any_applicable, its request has taken a fault. -/
theorem endWalk_boundToFault (k : Nat) {ws : Walk} {ctx : Ctx} {e : LoopEnd} {s : State}
    (hf : s.cfg.faultChoice = .anyApplicable)
    (h : beyondWidth s.cfg ctx ws.req.ia = true ∨ (∃ cause, e = .unusable cause) ∨
      permitted ws.req.kind ws.allR ws.allW = false) :
    ∃ ws', Advances k ws' s (endWalk k ws ctx e s) ∧ ws'.BoundToFault s.cfg := by
  refine ⟨_, endWalk_advances k ws ctx e s, ?_⟩
  obtain ⟨cause, info, hout, -⟩ := endOutcome_any_fault (e := e) hf h
  rw [Walk.BoundToFault, hout]
  trivial

/-- An entry leaves a walk beyond the width bound to fault, whatever its class (R149). -/
theorem entryEffect_boundToFault (k : Nat) {ws : Walk} {ctx : Ctx} (c : Config) {s : State} (r : Option Word64)
    (hp : ws.phase = .walk ctx) (hf : s.cfg.faultChoice = .anyApplicable)
    (hw : beyondWidth s.cfg ctx ws.req.ia = true) :
    ∃ ws', Advances k ws' s (entryEffect k ws ctx c s r) ∧ ws'.BoundToFault s.cfg := by
  cases r with
  | none => exact endWalk_boundToFault k hf (.inl hw)
  | some e =>
    simp only [entryEffect]
    cases classify c ws.level e with
    | table =>
      have hu : ws.unfinished = true := by rw [Walk.unfinished, hp]
      exact ⟨_, setWalk_advances k _ s hu, (boundToFault_walk hp).mpr hw⟩
    | notPresent | reserved => exact endWalk_boundToFault k hf (.inl hw)
    | leaf4K | leaf2M | leaf1G => exact endWalk_boundToFault (ws := accumulate ws _ _) k hf (.inl hw)

/-- A step of the hardware under any_applicable keeps a request bound to fault. -/
theorem hwStep_boundToFault {k : Nat} {ws : Walk} {s t : State} (hf : s.cfg.faultChoice = .anyApplicable)
    (hk : s.walks[k]? = some ws) (hb : ws.BoundToFault s.cfg) (h : hwStep runEntry k s = .next t) :
    ∃ ws', t.walks[k]? = some ws' ∧ t.cfg = s.cfg ∧ ws'.BoundToFault s.cfg := by
  cases hp : ws.phase with
  | lookup => simp [Walk.BoundToFault, hp] at hb
  | check ctx => simp [Walk.BoundToFault, hp] at hb
  | walk ctx =>
    have hu : ws.unfinished = true := by rw [Walk.unfinished, hp]
    rw [hwStep_walk k ws ctx s hk hp, walkStep_eq k ws ctx s hk hp] at h
    cases h
    obtain ⟨ws', hadv, hb'⟩ := entryEffect_boundToFault k (ws := entryNoted s ws ctx) s.cfg
      (s := readNoted k ws ctx (entryAddr ws.base ws.req.ia ws.level) s)
      (memRead64 s (entryAddr ws.base ws.req.ia ws.level)) hp hf ((boundToFault_walk hp).mp hb)
    exact ⟨ws', hadv.walk_at (readNoted_walk k ws ctx _ s hk), hadv.frame.cfg, hb'⟩
  | done o =>
    rw [hwStep_done k ws o s hk hp] at h
    cases h
    exact ⟨ws, hk, rfl, hb⟩

/-- How a run of one request under walk_order (the first state) and one under any_applicable (the second) stand to each
other: they differ in FAULT_CHOICE alone, and no walk is beyond the width; or the first has faulted and the second is
bound to; or both are over with the same outcome. -/
inductive Alike (k : Nat) : State → State → Prop
  | same (s : State) (ws : Walk) (hk : s.walks[k]? = some ws)
      (hw : ∀ ctx, ws.phase = .walk ctx → beyondWidth s.cfg ctx ws.req.ia = false) :
      Alike k (s.underChoice .walkOrder) (s.underChoice .anyApplicable)
  | faulted {s t : State} {cause : Cause} {info : FaultInfo} (ws : Walk) (hs : s.hasOutcome k (.fault cause info))
      (ht : t.walks[k]? = some ws) (hf : t.cfg.faultChoice = .anyApplicable) (hb : ws.BoundToFault t.cfg) : Alike k s t
  | ended {s t : State} {o : ReqOutcome} (hs : s.hasOutcome k o) (ht : t.hasOutcome k o) : Alike k s t

theorem lookupStep_underChoice (f : FaultChoice) (k : Nat) (ws : Walk) (s : State) :
    lookupStep k ws (s.underChoice f) = (lookupStep k ws s).underChoice f := by
  have hans : contextLookup (s.underChoice f) ws.req = contextLookup s ws.req := rfl
  simp only [lookupStep, hans]
  cases lookupFault (contextLookup s ws.req) <;> rfl

/-- A walk within the width goes on alike under both. -/
theorem setWalk_alike {k : Nat} {ws ws₀ : Walk} {ctx : Ctx} {s : State} (hk : s.walks[k]? = some ws₀)
    (hp : ws.phase = .walk ctx) (hw : beyondWidth s.cfg ctx ws.req.ia = false) :
    Alike k (setWalk k ws (s.underChoice .walkOrder)) (setWalk k ws (s.underChoice .anyApplicable)) := by
  have hu : ws.unfinished = true := by rw [Walk.unfinished, hp]
  exact .same (setWalk k ws s) ws ((setWalk_advances k ws s hu).walk_at hk) fun ctx' hp' => by
    cases hp.symm.trans hp'; exact hw

/-- A walk within the width ends alike under both: an unusable entry faults, and a leaf decides by the rights (R149). -/
theorem endWalk_alike {k : Nat} {ws ws₀ : Walk} {ctx : Ctx} (e : LoopEnd) {s : State} (hk : s.walks[k]? = some ws₀)
    (hw : beyondWidth s.cfg ctx ws.req.ia = false) :
    Alike k (endWalk k ws ctx e (s.underChoice .walkOrder)) (endWalk k ws ctx e (s.underChoice .anyApplicable)) := by
  have hadv := endWalk_advances k ws ctx e (s.underChoice .walkOrder)
  have hadv' := endWalk_advances k ws ctx e (s.underChoice .anyApplicable)
  have hfaulted : ∀ cause info, endOutcome ws ctx e (s.underChoice .walkOrder) = .fault cause info →
      ((∃ cause, e = .unusable cause) ∨ permitted ws.req.kind ws.allR ws.allW = false) →
      Alike k (endWalk k ws ctx e (s.underChoice .walkOrder)) (endWalk k ws ctx e (s.underChoice .anyApplicable)) := by
    intro cause info hout h
    obtain ⟨ws', hbound, hb⟩ := endWalk_boundToFault k (s := s.underChoice .anyApplicable) rfl (.inr h)
    exact .faulted ws' (hasOutcome_of_walk (hadv.walk_at hk) (congrArg Phase.done hout)) (hbound.walk_at hk)
      (hbound.frame.cfg ▸ rfl) (hbound.frame.cfg ▸ hb)
  cases e with
  | unusable cause => exact hfaulted _ _ (endOutcome_unusable ws ctx cause _ rfl) (.inl ⟨cause, rfl⟩)
  | leaf l =>
    have hout := endOutcome_leaf ws ctx l (s.underChoice .walkOrder) rfl
    cases hperm : permitted ws.req.kind ws.allR ws.allW with
    | false =>
      rw [hperm] at hout
      exact hfaulted _ _ hout (.inr hperm)
    | true =>
      rw [hperm] at hout
      have hout' := endOutcome_leaf_any ws ctx l (s.underChoice .anyApplicable) rfl hw hperm
      exact .ended (hasOutcome_of_walk (hadv.walk_at hk) (congrArg Phase.done hout))
        (hasOutcome_of_walk (hadv'.walk_at hk) (congrArg Phase.done hout'))

/-- An entry read by a walk within the width has effects that are alike: FAULT_CHOICE classifies no entry (R85). -/
theorem entryEffect_alike {k : Nat} {ws : Walk} {ctx : Ctx} {s : State} (r : Option Word64) (hk : s.walks[k]? = some ws)
    (hp : ws.phase = .walk ctx) (hw : beyondWidth s.cfg ctx ws.req.ia = false) :
    Alike k (entryEffect k ws ctx (s.underChoice .walkOrder).cfg (s.underChoice .walkOrder) r)
      (entryEffect k ws ctx (s.underChoice .anyApplicable).cfg (s.underChoice .anyApplicable) r) := by
  cases r with
  | none => exact endWalk_alike (.unusable .slAccessError) hk hw
  | some e =>
    have hcls : ∀ f, classify (s.underChoice f).cfg ws.level e = classify s.cfg ws.level e := fun _ => rfl
    simp only [entryEffect, hcls]
    cases classify s.cfg ws.level e with
    | table => exact setWalk_alike hk hp hw
    | notPresent | reserved => exact endWalk_alike _ hk hw
    | leaf4K | leaf2M | leaf1G => exact endWalk_alike (ws := accumulate ws _ _) _ hk hw

/-- A step on a request that has its outcome changes nothing (R177). -/
theorem hwStep_of_hasOutcome {k : Nat} {o : ReqOutcome} {s : State} (h : s.hasOutcome k o) :
    hwStep runEntry k s = .next s := by
  obtain ⟨ws, hk, hp⟩ := walk_of_hasOutcome h
  exact hwStep_done k ws o s hk hp

/-- From states that differ in FAULT_CHOICE alone one step goes on to states that are alike: beyond the width it faults
under walk_order and binds to fault under any_applicable. -/
theorem hwStep_alike_of_same {k : Nat} {ws : Walk} {s t t' : State} (hk : s.walks[k]? = some ws)
    (hw : ∀ ctx, ws.phase = .walk ctx → beyondWidth s.cfg ctx ws.req.ia = false)
    (h : hwStep runEntry k (s.underChoice .walkOrder) = .next t)
    (h' : hwStep runEntry k (s.underChoice .anyApplicable) = .next t') : Alike k t t' := by
  have hk' : ∀ f, (s.underChoice f).walks[k]? = some ws := fun _ => hk
  cases hp : ws.phase with
  | lookup =>
    rw [hwStep_lookup k ws _ (hk' _) hp, lookupStep_underChoice] at h h'
    cases h
    cases h'
    refine .same _ (lookedUp ws s) ((lookupStep_advances k ws s).walk_at hk) fun ctx hctx => ?_
    rw [lookedUp, lookupPhase] at hctx
    split at hctx <;> cases hctx
  | check ctx =>
    rw [hwStep_check k ws ctx _ (hk' _) hp] at h h'
    cases ha : agawAdmitted s.cfg ctx.agaw with
    | false => rw [checkStep_of_not_admitted (s := s.underChoice .walkOrder) ha] at h; cases h
    | true =>
      rw [checkStep_of_started (s := s.underChoice .anyApplicable) ha (.inl rfl)] at h'
      cases h'
      cases hb : beyondWidth s.cfg ctx ws.req.ia with
      | true =>
        rw [checkStep_of_beyondWidth (s := s.underChoice .walkOrder) ha rfl hb] at h
        cases h
        have hadv' := setWalk_advances k (startWalk ws ctx) (s.underChoice .anyApplicable) rfl
        have hadv := raiseFault_advances k ws .addrBeyondWidth (.input ws.req.ia) (s.underChoice .walkOrder)
        exact .faulted _ (hasOutcome_of_walk (hadv.walk_at hk) rfl) (hadv'.walk_at hk) rfl hb
      | false =>
        rw [checkStep_of_started (s := s.underChoice .walkOrder) ha (.inr hb)] at h
        cases h
        exact setWalk_alike hk rfl hb
  | walk ctx =>
    rw [hwStep_walk k ws ctx _ (hk' _) hp, walkStep_eq k ws ctx _ (hk' _) hp] at h h'
    cases h
    cases h'
    exact entryEffect_alike (ws := entryNoted s ws ctx)
      (s := readNoted k ws ctx (entryAddr ws.base ws.req.ia ws.level) s)
      (memRead64 s (entryAddr ws.base ws.req.ia ws.level)) (readNoted_walk k ws ctx _ s hk) hp (hw ctx hp)
  | done o =>
    rw [hwStep_done k ws o _ (hk' _) hp] at h h'
    cases h
    cases h'
    exact .same s ws hk hw

/-- Steps of the hardware keep two runs alike. -/
theorem hwSteps_alike {k n : Nat} {s s' t t' : State} (ha : Alike k s s') (h : hwSteps runEntry k n s = .next t)
    (h' : hwSteps runEntry k n s' = .next t') : Alike k t t' := by
  induction n generalizing s s' with
  | zero => cases h; cases h'; exact ha
  | succ n ih =>
    obtain ⟨s₁, hs, hrest⟩ := hwSteps_succ_next h
    obtain ⟨s₁', hs', hrest'⟩ := hwSteps_succ_next h'
    refine ih ?_ hrest hrest'
    cases ha with
    | same s₀ ws hk hw => exact hwStep_alike_of_same hk hw hs hs'
    | faulted ws hout hk hf hb =>
      rw [hwStep_of_hasOutcome hout] at hs
      cases hs
      obtain ⟨ws', hk', hcfg, hb'⟩ := hwStep_boundToFault hf hk hb hs'
      exact .faulted ws' hout hk' (hcfg ▸ hf) (hcfg ▸ hb')
    | ended hout hout' =>
      rw [hwStep_of_hasOutcome hout] at hs
      rw [hwStep_of_hasOutcome hout'] at hs'
      cases hs
      cases hs'
      exact .ended hout hout'

/-- Two runs that are alike agree, once the second is over, on whether the request faults and on its translation. -/
theorem Alike.agree {k : Nat} {t t' : State} {o : ReqOutcome} (h : Alike k t t') (ho : t'.hasOutcome k o) :
    ((∃ cause info, t.hasOutcome k (.fault cause info)) ↔ (∃ cause info, t'.hasOutcome k (.fault cause info))) ∧
      ∀ pa size snooped mt tm, t.hasOutcome k (.translated pa size snooped mt tm) ↔
        t'.hasOutcome k (.translated pa size snooped mt tm) := by
  cases h with
  | same s ws hk hw => exact ⟨Iff.rfl, fun _ _ _ _ _ => Iff.rfl⟩
  | ended hs ht => simp only [State.hasOutcome] at hs ht ⊢; simp only [hs, ht, implies_true, and_self]
  | @faulted _ _ cause info ws hs ht hf hb =>
    obtain ⟨ws', hk', hp⟩ := walk_of_hasOutcome ho
    obtain rfl : ws' = ws := Option.some.inj (hk'.symm.trans ht)
    cases o with
    | translated => simp [Walk.BoundToFault, hp] at hb
    | fault cause' info' =>
      simp only [State.hasOutcome] at hs ho ⊢
      simp [hs, ho]

/-- A request is refused where `ContextLookup` answers a width that is not admitted (R92). -/
theorem process_of_not_admitted {q : Request} {ctx : Ctx} {s : State} (hans : contextLookup s q = .ok ctx)
    (hadm : agawAdmitted s.cfg ctx.agaw = false) : process q s = .refused (.unsupportedAgaw ctx.agaw) := by
  have hk := issueRequest_walk_at q s
  have hadv := lookupStep_advances s.walks.length (Walk.start q) (issueRequest q s)
  have hphase : (lookedUp (Walk.start q) (issueRequest q s)).phase = .check ctx := congrArg lookupPhase hans
  rw [process, hwSteps_next _ _ _ _ _ (hwStep_lookup _ _ _ hk rfl)]
  refine hwSteps_refused _ _ _ _ _ ?_
  rw [hwStep_check _ _ ctx _ (hadv.walk_at hk) hphase, checkStep_of_not_admitted (hadv.frame.cfg ▸ hadm)]

/-- A request is refused exactly there. -/
theorem process_eq_refused_iff (q : Request) (s : State) (r : Refusal) : process q s = .refused r ↔
    ∃ ctx, contextLookup s q = .ok ctx ∧ agawAdmitted s.cfg ctx.agaw = false ∧ r = .unsupportedAgaw ctx.agaw := by
  constructor
  · intro h
    obtain ⟨t, ht⟩ | ⟨ctx, hans, hadm, href⟩ := process_answers_or_refuses q s
    · cases ht.symm.trans h
    · cases href.symm.trans h; exact ⟨ctx, hans, hadm, rfl⟩
  · rintro ⟨ctx, hans, hadm, rfl⟩
    exact process_of_not_admitted hans hadm

/-- Whether a request is refused does not depend on FAULT_CHOICE: neither the lookup nor the width admitted does. -/
theorem process_underChoice_refused_iff (q : Request) (s : State) (f f' : FaultChoice) (r : Refusal) :
    process q (s.underChoice f) = .refused r ↔ process q (s.underChoice f') = .refused r :=
  (process_eq_refused_iff q _ r).trans (process_eq_refused_iff q (s.underChoice f') r).symm

/-- Where a request is processed to its end under one value of FAULT_CHOICE, it is under the other. -/
theorem process_underChoice_answers {q : Request} {s t : State} {f : FaultChoice} (f' : FaultChoice)
    (h : process q (s.underChoice f) = .next t) : ∃ t', process q (s.underChoice f') = .next t' := by
  obtain ht' | ⟨ctx, -, -, href⟩ := process_answers_or_refuses q (s.underChoice f')
  · exact ht'
  · cases h.symm.trans ((process_underChoice_refused_iff q s f f' _).mpr href)

/-! ### The obligations of the family -/

/-- Settles O38: the fault taken is one of the table's four forms, and each form has the causes and the place it says. -/
theorem faultsFollowTheTableOfCauses : Obligations.FaultsFollowTheTableOfCauses := by
  unfold Obligations.FaultsFollowTheTableOfCauses
  intro s t q cause info hf h hout
  rw [exec_instr] at h
  obtain ⟨ws, hk, rfl, hrec⟩ := process_recorded hf h hout
  cases hrec with
  | @context answer _ hans => cases answer <;> cases hans <;> simp
  | width => simp
  | unusable hlast hcls =>
    obtain ⟨hmem, hcause⟩ := mem_entryCauses_of_unusable hcls
    refine ⟨?_, ?_, ?_, ?_, ?_, fun _ => place_of_entryCause hk hlast hmem⟩
    all_goals
      simp only [List.mem_cons, List.not_mem_nil, or_false] at hcause
      obtain rfl | rfl | rfl := hcause <;> simp
  | denied hlast hcls hleaf =>
    have hmem := mem_entryCauses_of_denied hleaf ws.req.kind
    refine ⟨?_, ?_, ?_, ?_, ?_, fun _ => place_of_entryCause hk hlast (hcls ▸ hmem)⟩
    all_goals cases ws.req.kind <;> simp [deniedCause]

/-- Settles O40: the runs under both values stay alike to their end, and FAULT_CHOICE has no part in a refusal. -/
theorem faultChoiceNeverDecidesWhetherARequestFaults :
    Obligations.FaultChoiceNeverDecidesWhetherARequestFaults := by
  unfold Obligations.FaultChoiceNeverDecidesWhetherARequestFaults
  intro s q
  simp only [exec_instr]
  refine ⟨fun t h => ?_, process_underChoice_refused_iff q s .walkOrder .anyApplicable⟩
  obtain ⟨t', h'⟩ := process_underChoice_answers (s := s) .anyApplicable h
  have halike : Alike s.walks.length t t' :=
    hwSteps_alike (.same (issueRequest q s) (Walk.start q) (issueRequest_walk_at q s) fun ctx hp => by cases hp) h h'
  obtain ⟨o, ho⟩ := process_hasOutcome h'
  exact ⟨t', h', halike.agree ho⟩

/-- Settles O27: the step ends the walk with its own cause, and a fault that applies is reported. -/
theorem unusableEntriesUnderAnyApplicable : Obligations.UnusableEntriesUnderAnyApplicable := by
  unfold Obligations.UnusableEntriesUnderAnyApplicable
  intro s k ws ctx cause hk hp hf hcause
  have hu : ws.unfinished = true := by rw [Walk.unfinished, hp]
  have hcls : unusableCause (ws.classRead s s.freeCount) = some cause := by
    rw [classRead_next]
    obtain ⟨rfl, hb⟩ | ⟨e, hread, ⟨rfl, hc⟩ | ⟨rfl, hc⟩⟩ := hcause
    · rw [(memRead64_eq_none_iff s _).mpr hb]; rfl
    · rw [hread, Option.map_some, hc]; rfl
    · rw [hread, Option.map_some, hc]; rfl
  have hadv := (readNoted_advances k ws ctx (entryAddr ws.base ws.req.ia ws.level) s hu).trans hu
    (endWalk_advances k (entryNoted s ws ctx) ctx (.unusable cause) _)
  obtain ⟨reported, info, hout, happlies⟩ := endOutcome_any_fault (ws := entryNoted s ws ctx) (ctx := ctx)
    (s := readNoted k ws ctx (entryAddr ws.base ws.req.ia ws.level) s) hf (.inr (.inl ⟨cause, rfl⟩))
  rw [hout] at hadv
  refine ⟨_, reported, info, hwStep_unusable hk hp hcls, hadv.frame, fun j hj => hadv.walk_at_other hj,
    hasOutcome_of_walk (hadv.walk_at hk) rfl, hadv.faultLog, ?_⟩
  obtain hwide | ⟨hown, hplace⟩ | ⟨hdenied, hperm, -⟩ := happlies
  · exact .inr (.inl hwide)
  · cases hown; exact .inl ⟨rfl, hplace⟩
  · exact .inr (.inr ⟨hdenied, hperm⟩)

/-- Settles O19: an admitted width starts the walk whatever the address is. -/
theorem anyApplicableStartsEveryWalk : Obligations.AnyApplicableStartsEveryWalk := by
  unfold Obligations.AnyApplicableStartsEveryWalk
  intro s k ws ctx hk hp hf hagaw
  have ha := (agawAdmitted_iff s.cfg ctx.agaw).mpr hagaw
  rw [hwStep_exec, hwStep_check k ws ctx s hk hp, checkStep_of_started ha (.inl hf), ← startLevel_of_admitted ha]
  rfl

/-- Settles O23: the leaf ends the walk, and the rights with its own deny the request. -/
theorem leafEntriesDenyOtherRequests : Obligations.LeafEntriesDenyOtherRequests := by
  unfold Obligations.LeafEntriesDenyOtherRequests
  intro s ws ctx i f hk hp hf hi hl hperm
  have hend : endOutcome (accumulate ws f.r f.w) ctx (.leaf f.leaf) s =
      .fault (deniedCause ws.req.kind) (entryHere ws) := by
    rw [endOutcome_leaf _ ctx f.leaf s hf]
    exact if_neg (ne_true_of_eq_false hperm)
  rw [exec_leaf (currentWalk_eq s ws ctx hk hp) hi hl, endWalk_eq, hend]
  rfl

/-- Settles O24: the leaf ends the walk, which translates where no fault applies and reports one that does otherwise. -/
theorem leafEntriesUnderAnyApplicable : Obligations.LeafEntriesUnderAnyApplicable := by
  unfold Obligations.LeafEntriesUnderAnyApplicable
  intro s ws ctx i f hk hp hf hi hl
  have hadv := endWalk_advances s.cur (accumulate ws f.r f.w) ctx (.leaf f.leaf) s
  refine ⟨_, endOutcome (accumulate ws f.r f.w) ctx (.leaf f.leaf) s, exec_leaf (currentWalk_eq s ws ctx hk hp) hi hl,
    hadv.frame, fun j hj => hadv.walk_at_other hj, hasOutcome_of_walk (hadv.walk_at hk) rfl, hadv.faultLog,
    fun hw hperm => endOutcome_leaf_any (accumulate ws f.r f.w) ctx f.leaf s hf hw hperm, fun h => ?_⟩
  obtain ⟨cause, info, hout, happlies⟩ := endOutcome_any_fault (ws := accumulate ws f.r f.w) (ctx := ctx)
    (e := .leaf f.leaf) hf (h.imp_right .inr)
  rw [hout]
  obtain ⟨rfl, rfl, hw⟩ | ⟨hown, -⟩ | ⟨rfl, hperm, hplace⟩ := happlies
  · exact .inl ⟨rfl, hw⟩
  · cases hown
  · rw [hplace f.leaf rfl]; exact .inr ⟨rfl, hperm⟩

/-- Settles O25: the row applies at every level, and its walk ends with its own cause. -/
theorem notPresentEntryFaults : Obligations.NotPresentEntryFaults := by
  unfold Obligations.NotPresentEntryFaults
  intro s ws ctx rest hk hp hf
  have hl : ws.level ∈ ([.l4, .l3, .l2, .l1] : List Level) := by cases ws.level <;> decide
  rw [exec, execSlEntryNotPresent, onEntry_at _ s _ ws ctx (currentWalk_eq s ws ctx hk hp) hl, endWalk_eq,
    endOutcome_unusable ws ctx _ s hf]
  rfl

/-- Settles O30: the step idles, or the one request advances. -/
theorem advanceTouchesOneRequest : Obligations.AdvanceTouchesOneRequest := by
  unfold Obligations.AdvanceTouchesOneRequest
  intro s t k h
  rw [hwStep_exec] at h
  obtain rfl | ⟨ws, hadv⟩ := hwStep_next h
  · exact ⟨.refl _, rfl, fun _ _ => rfl⟩
  · exact ⟨hadv.frame, by rw [hadv.walks, List.length_set], fun j hj => hadv.walk_at_other hj⟩

/-- Settles O50: the last turn of a faulted request's device only removes the request. -/
theorem faultedRequestAccessesNothing : Obligations.FaultedRequestAccessesNothing := by
  unfold Obligations.FaultedRequestAccessesNothing
  intro s k ws cause info data hk hp
  simp only [runTurn, conclude, hk, hp]

end Sys2Proof.Machine
end

section
/-! PROOFS, family 70_reset_and_hazards.md. The invariant at launch, Hist where the caches are clean and after software
rewrites an entry there, and the idle move; then the obligations of the family. -/

namespace Sys2Proof.Machine

/-! ### The launch state (R171) -/

/-- The launch state meets the invariant: memory and the caches list nothing, and no request is in flight. -/
theorem reset_inv : State.reset.Inv where
  memory := reset_memory_wf
  caches := ⟨.nil, fun _ hx => absurd hx List.not_mem_nil⟩
  walks := fun _ hws => absurd hws List.not_mem_nil
  logged := fun _ hws => absurd hws List.not_mem_nil

/-- Configuration A is one that the spec admits. -/
theorem config_a_wf : Config.a.wf = true := by decide

/-! ### Hist where the caches are clean (R52, R173) -/

/-- With clean caches the current content is the only member of a Hist. -/
theorem histOf_of_clean {s : State} (h : s.cachesClean) (a : Nat) :
    histOf s a = [content64 s.cfg.byteOrder s.mem a] := by
  rw [histOf, h]
  rfl

/-- From clean caches the values that may be read of an entry that has been rewritten are the old one and the new one. -/
theorem mem_histOf_rewritten_entry {s : State} (hi : s.Inv) (hclean : s.cachesClean) {a : Nat} (ha : a % 8 = 0)
    (e v : Word64) :
    v ∈ histOf (storeBytes a (bytesOfEntry s.cfg.byteOrder e) s) a ↔
      v = content64 s.cfg.byteOrder s.mem a ∨ v = e := by
  have hnew : content64 s.cfg.byteOrder (storeBytes a (bytesOfEntry s.cfg.byteOrder e) s).mem a = e := by
    obtain ⟨hread, -⟩ := entryBytesInMemory s.cfg.byteOrder s.mem a e hi.memory
    exact hread
  rw [mem_histOf_storeBytes _ _ hi.caches ha, histOf_of_clean hclean, List.mem_singleton, hnew]

/-! ### The end of the run (R177) -/

/-- The default move idles where every request is over. -/
theorem defaultMove_of_all_done {s : State} (h : ∀ ws ∈ s.walks, ∃ o, ws.phase = .done o) : defaultMove s = .next s := by
  have hnone : s.walks.findIdx? Walk.unfinished = none := by
    refine List.findIdx?_eq_none_iff.mpr fun ws hws => ?_
    obtain ⟨o, ho⟩ := h ws hws
    rw [Walk.unfinished, ho]
  rw [defaultMove, hnone]

/-! ### The obligations of the family -/

/-- Settles O57: the read draws from the Hist of the rewritten entry, whose members are the two values. -/
theorem staleEntryReadsOldOrNew : Obligations.StaleEntryReadsOldOrNew := by
  unfold Obligations.StaleEntryReadsOldOrNew
  intro s t a e v hi hclean ha hwrite hread
  obtain ⟨-, hdraw, -⟩ := entryReadsDrawFromHist t a (runTurn_inv hi hwrite)
  have hv : v ∈ histOf t a.toNat := hdraw v hread
  rw [softwareWrite_next hwrite] at hv
  exact (mem_histOf_rewritten_entry hi hclean ha e v).mp hv

/-- Settles O1: every list of the launch state is empty, and its configuration is configuration A. -/
theorem resetMeetsLaunchPremises : Obligations.ResetMeetsLaunchPremises :=
  ⟨rfl, rfl, rfl, config_a_wf, reset_inv⟩

/-- Settles O45: with no turn listed the step is the default move, and no request is left for it. -/
theorem runIsOverWhenNothingMoves : Obligations.RunIsOverWhenNothingMoves := by
  unfold Obligations.RunIsOverWhenNothingMoves
  intro s hagenda hdone
  rw [step_of_no_agenda hagenda, defaultMove_of_all_done hdone]

end Sys2Proof.Machine
end
